-- ==== Sys2Proof/Word.lean ====
section
/-! DEFINITION. The words of the ZJD block: bytes, 32-bit registers, the 64-bit accumulator (spec 00_scope R16). -/

namespace Sys2Proof

/-- One byte of LMEM, one sample, one symbol (u8). -/
abbrev Byte := BitVec 8

/-- One register, one command word, one IDCT coefficient (u32 or i32). -/
abbrev Word := BitVec 32

end Sys2Proof
end

