-- ==== Sys2Proof/Syntax.lean ====
section
/-! DEFINITION. The ZJD command set, version 1: one constructor per row of spec/opcode_table.json (spec 30_encoding R96). -/

namespace Sys2Proof

/-- The 23 commands. `n` is the bit count of format B (R101), `t` the table slot of format T (R100). Every other
operand is an ARG register (R102). -/
inductive Instr where
  /-- 0x00 NOP, 40_control R110. -/
  | nop
  /-- 0x01 CORE_INIT, 40_control R111. -/
  | coreInit
  /-- 0x10 BR_INIT, 41_bitreader R127. -/
  | brInit
  /-- 0x11 BR_REFILL, 41_bitreader R128. -/
  | brRefill
  /-- 0x12 BR_PEEK, 41_bitreader R129. -/
  | brPeek (n : BitVec 6)
  /-- 0x13 BR_GET, 41_bitreader R130. -/
  | brGet (n : BitVec 6)
  /-- 0x14 BR_HAS, 41_bitreader R131. -/
  | brHas (n : BitVec 6)
  /-- 0x15 BR_SKIP_MARKER, 41_bitreader R132. -/
  | brSkipMarker
  /-- 0x20 HT_BUILD, 42_huffman R159. -/
  | htBuild (t : BitVec 3)
  /-- 0x21 HT_DECODE, 42_huffman R163. -/
  | htDecode (t : BitVec 3)
  /-- 0x22 HT_DECODE_DC, 42_huffman R165. -/
  | htDecodeDc (t : BitVec 3)
  /-- 0x23 HT_DECODE_AC, 42_huffman R166. -/
  | htDecodeAc (t : BitVec 3)
  /-- 0x24 HT_DUMP, 42_huffman R167. -/
  | htDump (t : BitVec 3)
  /-- 0x30 IDCT, 43_idct R191. -/
  | idct
  /-- 0x40 UPS_NONE, 44_upsampler R212. -/
  | upsNone
  /-- 0x41 UPS_H, 44_upsampler R213. -/
  | upsH
  /-- 0x42 UPS_V, 44_upsampler R215. -/
  | upsV
  /-- 0x43 UPS_HV, 44_upsampler R217. -/
  | upsHv
  /-- 0x50 CC_RGB, 45_color R235. -/
  | ccRgb
  /-- 0x51 CC_RGBA, 45_color R236. -/
  | ccRgba
  /-- 0x52 CC_RGBX, 45_color R237. -/
  | ccRgbx
  /-- 0x53 CC_GRAY, 45_color R238. -/
  | ccGray
  /-- 0x54 CC_YCBCR, 45_color R239. -/
  | ccYcbcr
  deriving DecidableEq, Repr

end Sys2Proof
end

