-- ==== Sys2Proof/WellFormed.lean ====
section
/-! DEFINITION. The well-formed commands: what the type of `Instr` does not already say (spec 30_encoding R101). -/

namespace Sys2Proof

/-- A bit count is at most 32 (R101); every slot 0 to 7 is legal (R100). -/
def Instr.wellFormed : Instr → Bool
  | .nop => true
  | .coreInit => true
  | .brInit => true
  | .brRefill => true
  | .brPeek n => decide (n.toNat ≤ 32)
  | .brGet n => decide (n.toNat ≤ 32)
  | .brHas n => decide (n.toNat ≤ 32)
  | .brSkipMarker => true
  | .htBuild _ => true
  | .htDecode _ => true
  | .htDecodeDc _ => true
  | .htDecodeAc _ => true
  | .htDump _ => true
  | .idct => true
  | .upsNone => true
  | .upsH => true
  | .upsV => true
  | .upsHv => true
  | .ccRgb => true
  | .ccRgba => true
  | .ccRgbx => true
  | .ccGray => true
  | .ccYcbcr => true

end Sys2Proof
end

