-- ==== Sys2Proof/Decode.lean ====
section
/-! DEFINITION. Decoding and encoding a command word (spec 30_encoding R90 to R101, R104). -/

namespace Sys2Proof

/-- Why a command word is no command: the three details of ILLEGAL_COMMAND (60_exceptions R252). -/
inductive IllegalWord where
  /-- Detail 0: the opcode is unassigned (R97). -/
  | unassignedOpcode
  /-- Detail 1: a reserved bit of the format is not zero (R95). -/
  | reservedBits
  /-- Detail 2: a bit count from 33 to 63 (R101). -/
  | badCount
  deriving DecidableEq, Repr

/-- A row of the opcode map: its format N, T or B (R92 to R94) with the command it stands for. -/
inductive OpShape where
  | n (i : Instr)
  | t (make : BitVec 3 → Instr)
  | b (make : BitVec 6 → Instr)

/-- The opcode map R96. -/
def opcodeMap : List (BitVec 8 × OpShape) :=
  [(0x00, .n .nop), (0x01, .n .coreInit),
   (0x10, .n .brInit), (0x11, .n .brRefill), (0x12, .b .brPeek), (0x13, .b .brGet), (0x14, .b .brHas),
   (0x15, .n .brSkipMarker)] ++
  [(0x20, .t .htBuild), (0x21, .t .htDecode), (0x22, .t .htDecodeDc), (0x23, .t .htDecodeAc), (0x24, .t .htDump)] ++
  [(0x30, .n .idct),
   (0x40, .n .upsNone), (0x41, .n .upsH), (0x42, .n .upsV), (0x43, .n .upsHv)] ++
  [(0x50, .n .ccRgb), (0x51, .n .ccRgba), (0x52, .n .ccRgbx), (0x53, .n .ccGray), (0x54, .n .ccYcbcr)]

/-- `opc = w[7:0]` (R91). -/
def opcodeByte (w : Word) : BitVec 8 := w.extractLsb' 0 8

/-- The rest of R99 once the opcode's row is known. -/
def decodeShape (w : Word) : OpShape → Except IllegalWord Instr
  | .n i => if w.extractLsb' 8 24 = 0 then .ok i else .error .reservedBits
  | .t make => if w.extractLsb' 11 21 = 0 then .ok (make (w.extractLsb' 8 3)) else .error .reservedBits
  | .b make =>
    if w.extractLsb' 14 18 ≠ 0 then .error .reservedBits
    else if 32 < (w.extractLsb' 8 6).toNat then .error .badCount
    else .ok (make (w.extractLsb' 8 6))

/-- The four decoding steps of R99. -/
def decode (w : Word) : Except IllegalWord Instr :=
  match opcodeMap.lookup (opcodeByte w) with
  | none => .error .unassignedOpcode
  | some shape => decodeShape w shape

/-- The opcode of a command, from the words of R104. -/
def Instr.opcode : Instr → BitVec 8
  | .nop => 0x00
  | .coreInit => 0x01
  | .brInit => 0x10
  | .brRefill => 0x11
  | .brPeek _ => 0x12
  | .brGet _ => 0x13
  | .brHas _ => 0x14
  | .brSkipMarker => 0x15
  | .htBuild _ => 0x20
  | .htDecode _ => 0x21
  | .htDecodeDc _ => 0x22
  | .htDecodeAc _ => 0x23
  | .htDump _ => 0x24
  | .idct => 0x30
  | .upsNone => 0x40
  | .upsH => 0x41
  | .upsV => 0x42
  | .upsHv => 0x43
  | .ccRgb => 0x50
  | .ccRgba => 0x51
  | .ccRgbx => 0x52
  | .ccGray => 0x53
  | .ccYcbcr => 0x54

/-- The field byte `w[15:8]` of a command (R91): the bit count, the slot, or zero. -/
def Instr.fieldByte : Instr → BitVec 8
  | .brPeek n => n.setWidth 8
  | .brGet n => n.setWidth 8
  | .brHas n => n.setWidth 8
  | .htBuild t => t.setWidth 8
  | .htDecode t => t.setWidth 8
  | .htDecodeDc t => t.setWidth 8
  | .htDecodeAc t => t.setWidth 8
  | .htDump t => t.setWidth 8
  | .nop => 0
  | .coreInit => 0
  | .brInit => 0
  | .brRefill => 0
  | .brSkipMarker => 0
  | .idct => 0
  | .upsNone => 0
  | .upsH => 0
  | .upsV => 0
  | .upsHv => 0
  | .ccRgb => 0
  | .ccRgba => 0
  | .ccRgbx => 0
  | .ccGray => 0
  | .ccYcbcr => 0

/-- The word a command statement assembles to, `{16'h0000, field, opc}` (R104). -/
def encode (i : Instr) : Word := 0#16 ++ (i.fieldByte ++ i.opcode)

/-- What the decoder reads from a command word given as a number, bits from `nbits` up being zero. A command word is
delivered whole in one 32-bit host write (R90), so no byte order enters. -/
def decodeTableWord (nbits w : Nat) : Option Instr :=
  match decode (BitVec.ofNat 32 (w % 2 ^ nbits)) with
  | .ok i => some i
  | .error _ => none

end Sys2Proof
end

