-- ==== Sys2Proof/Config.lean ====
section
/-! DEFINITION. What an implementation fixes (spec 00_scope R10 to R13) and the free values the spec leaves open. -/

namespace Sys2Proof

/-- Which IDCT_KERNEL the implementation has (R13): the default reference kernel of 43_idct R196 to R199, or some other
kernel, named by a number only so that plain data can say which. -/
inductive KernelSel where
  | reference
  | other (n : Nat)
  deriving DecidableEq, Repr

/-- The implementation parameters R10 to R13. They stand in State as data no step writes, so a statement about every
state holds for every implementation. -/
structure Params where
  /-- LMEM_LOG2 of R49: log2 of LMEM_SIZE (R10), 12 to 16. -/
  lmemLog2 : Nat
  /-- FAST_BITS (R11), 1 to 16. -/
  fastBits : Nat
  /-- PAR_AVAILABLE (R12). -/
  parAvailable : Bool
  /-- IDCT_KERNEL (R13). -/
  kernel : KernelSel
  deriving DecidableEq, Repr

/-- LMEM_SIZE of R10. -/
def Params.lmemSize (p : Params) : Nat := 2 ^ p.lmemLog2

/-- The defaults the spec gives: LMEM_SIZE 65536 (R10), FAST_BITS 9 (R11), PAR_AVAILABLE 1 (R12), the reference
kernel (R13). -/
def Params.default : Params := { lmemLog2 := 16, fastBits := 9, parAvailable := true, kernel := .reference }

/-- Free value (R289, U10): after how many further host operations an accepted command completes. Finite, otherwise
unconstrained. The argument is the counter `State.freeCtr`. -/
opaque Config.freeDelay : Nat → Nat

/-- Free value (R84, R280, U4, U9): a register read whose value the spec leaves open. -/
opaque Config.freeWord : Nat → BitVec 32

/-- Free value (U1): what a HOST read of an unwritten LMEM byte returns, by counter and address. -/
opaque Config.freeByte : Nat → Nat → BitVec 8

/-- Free value (R13, I1): output sample `k` of the kernel `KernelSel.other n` on the 64 coefficients. The bounds that
R194 and R195 set on every kernel are put on it by `Machine.idctKernel`. -/
opaque Config.idctSample : Nat → List (BitVec 32) → Nat → BitVec 8

end Sys2Proof
end

