-- ==== Sys2Proof/Machine/State.lean ====
section
/-! DEFINITION. The state of the ZJD block and of the host that drives it (spec 10_state, 30_encoding R103), its
reset, and the reasons a step can stop. -/

namespace Sys2Proof.Machine

/-- LMEM as written: the bytes the host or a command has written since reset, by address, addresses strictly rising
(R55, R60). An address that is not listed is unwritten. -/
abbrev Memory := List Host.Cell

/-- CFG (R33). Its reserved bits read as zero and ignore writes, so only the five fields are state. -/
structure Cfg where
  strict : Bool
  forceScalar : Bool
  backendReq : Bool
  ieDone : Bool
  ieErr : Bool
  deriving DecidableEq, Repr

/-- ARG0 to ARG4 (R42), and their snapshot (R56). -/
structure Args where
  arg0 : Word
  arg1 : Word
  arg2 : Word
  arg3 : Word
  arg4 : Word
  deriving DecidableEq, Repr

/-- RES0 to RES2 (R43). -/
structure Results where
  res0 : Word
  res1 : Word
  res2 : Word
  deriving DecidableEq, Repr

/-- The errors of 60_exceptions R252, one per (code, detail) pair of its table. -/
inductive ErrKind where
  | illegalOpcode
  | illegalReserved
  | illegalCount
  | addressFault
  | tableTooManySymbols
  | tableOverSubscribed
  | tableEmpty
  | streamNoMatch
  | streamTruncated
  | streamBadCategory
  | tableUndefined
  | bitUnderflow
  | cmdOverrun
  deriving DecidableEq, Repr

/-- The error record of STATUS (R38): ERRCODE and ERRDETAIL as the kind, and ERROPC. -/
structure ErrRecord where
  kind : ErrKind
  opc : BitVec 8
  deriving DecidableEq, Repr

/-- The bit-reader state BR (R51). `endPos` is BR.end. -/
structure BitReader where
  pos : Nat
  endPos : Nat
  acc : BitVec 64
  nbits : Nat
  npad : Nat
  ended : Bool
  mfound : Bool
  marker : Byte
  overrun : Bool
  deriving DecidableEq, Repr

/-- One Huffman table slot (R53): `count` holds count[1] to count[16] in order. -/
structure HtSlot where
  valid : Bool
  count : List Byte
  nsyms : Nat
  sym : List Byte
  deriving DecidableEq, Repr

/-- The width of a host access (R75, R76). -/
inductive AccessSize where
  | byte
  | half
  | word
  deriving DecidableEq, Repr

/-- One thing the outside does to the block: a host access at an aperture offset (R31), the `wait` statement (R103),
or the platform asserting or releasing the reset input (R280). -/
inductive HostOp where
  | write (size : AccessSize) (offset : BitVec 17) (value : Word)
  | read (size : AccessSize) (offset : BitVec 17)
  | wait
  | assertReset
  | releaseReset
  deriving DecidableEq, Repr

/-- Everything the spec gives the machine, and the host that drives it. -/
structure State where
  /-- The implementation parameters (R10 to R13); PARAM (R49) reads them. No step writes them. -/
  params : Params
  cfg : Cfg
  /-- CMD: the last word written (R41). -/
  cmd : Word
  args : Args
  res : Results
  /-- STATUS.BUSY (R36). -/
  busy : Bool
  /-- STATUS.DONE (R36). -/
  done : Bool
  /-- STATUS.ERR with ERRCODE, ERRDETAIL and ERROPC (R38): `none` is ERR = 0. -/
  err : Option ErrRecord
  /-- The backend latch, shown as STATUS.BACKEND (R57): true is parallel. -/
  backend : Bool
  br : BitReader
  ht : Vector HtSlot 8
  lmem : Memory
  /-- The accepted command word (R56). -/
  pending : Word
  /-- snapARG (R56). -/
  snapArgs : Args
  /-- snapCFG (R56). -/
  snapCfg : Cfg
  /-- The reset input is asserted (R280). -/
  inReset : Bool
  /-- The rest of the host's program (R103), the platform's reset events among it. -/
  script : List HostOp
  /-- The values the host's reads returned, oldest first (R103, `rd`). -/
  readLog : List Word
  /-- The model's own: host operations still to come before the command in flight completes (R289). -/
  delay : Nat
  /-- The model's own: counts the free values drawn. -/
  freeCtr : Nat
  deriving DecidableEq, Repr

/-- CFG = 0. -/
def Cfg.zero : Cfg := { strict := false, forceScalar := false, backendReq := false, ieDone := false, ieErr := false }

/-- Five zero operands. -/
def Args.zero : Args := { arg0 := 0, arg1 := 0, arg2 := 0, arg3 := 0, arg4 := 0 }

/-- Three zero results. -/
def Results.zero : Results := { res0 := 0, res1 := 0, res2 := 0 }

/-- Every BR field 0 (R59). -/
def BitReader.zero : BitReader :=
  { pos := 0, endPos := 0, acc := 0, nbits := 0, npad := 0, ended := false, mfound := false, marker := 0, overrun := false }

/-- An invalid slot. Its contents are UNSPECIFIED and unreadable (R59, R61); the model holds zero counts and no symbols
(DESIGN CHOICE, log 2). -/
def HtSlot.invalid : HtSlot := { valid := false, count := List.replicate 16 0, nsyms := 0, sym := [] }

/-- The block right after reset, for given parameters (R59). `pending`, `snapArgs` and `snapCfg` are UNSPECIFIED and not
read while BUSY = 0; the model holds zeros (DESIGN CHOICE, log 2). -/
def State.resetWith (p : Params) : State :=
  { params := p, cfg := .zero, cmd := 0, args := .zero, res := .zero,
    busy := false, done := false, err := none, backend := false,
    br := .zero, ht := Vector.replicate 8 .invalid, lmem := [],
    pending := 0, snapArgs := .zero, snapCfg := .zero,
    inReset := false, script := [], readLog := [], delay := 0, freeCtr := 0 }

/-- The block right after reset (R59, R281), with the spec's default parameters and no host program. -/
def State.reset : State := State.resetWith Params.default

/-- Why the machine stops with a fault. -/
inductive Fault where
  /-- The command `i` read the LMEM byte at `a`, which nothing has written since reset (R60: "the model faults, naming
  the command"). Raised by `readByte`, for any command that reads LMEM. Safe: the chip returns some value. -/
  | unwrittenByte (i : Instr) (a : Nat)
  deriving DecidableEq, Repr

/-- Why the machine refuses to go on. -/
inductive Refusal where
  /-- An instruction with no meaning in this model. No arm of `exec` answers it. Safe. -/
  | notModelled (mnemonic : String)
  /-- A host access to the register region that is not a 32-bit access at a 4-byte-aligned offset (R75). Raised by
  `hostAccess`. Safe: the spec refuses such a program. -/
  | registerAccess
  /-- A misaligned host access to the LMEM window (R76). Raised by `hostAccess`. Safe: the spec refuses it. -/
  | misalignedWindow
  /-- A host access to the LMEM window while BUSY = 1 (R83). Raised by `hostAccess`. Safe: the spec refuses it. -/
  | windowWhileBusy
  deriving DecidableEq, Repr

/-- Why a command ends early: `raise E(d)` (R21), or the model's fault of R60. -/
inductive CmdStop where
  | raise (k : ErrKind)
  | fault (f : Fault)
  deriving DecidableEq, Repr

/-- A piece of a command's rule: it yields a value or ends the command. -/
abbrev CmdM := Except CmdStop

/-- The outcome of a step. -/
abbrev Outcome := Host.Outcome State Fault Refusal

end Sys2Proof.Machine
end

