-- ==== Sys2Proof/Machine/Ops.lean ====
section
/-! DEFINITION. The named operations over LMEM and over the end of a command (spec 00_scope R15 to R21, 20_memory R70 to
R73, 60_exceptions R250 to R259). -/

namespace Sys2Proof.Machine

/-! ### Arithmetic primitives -/

/-- `a >> n` on a signed value: floor division by 2^n (R17). -/
def asr (a : Int) (n : Nat) : Int := a / 2 ^ n

/-- clamp255 of R18, as the byte it yields. -/
def clamp255 (v : Int) : Byte := if v < 0 then 0 else if 255 < v then 255 else BitVec.ofInt 8 v

/-! ### LMEM -/

/-- The byte at `a`, if the host or a command has written it (R60). -/
def Memory.read? : Memory → Nat → Option Byte
  | [], _ => none
  | (k, v) :: m, a => if k = a then some v else Memory.read? m a

/-- Store one byte, keeping addresses strictly rising. -/
def Memory.write : Memory → Nat → Byte → Memory
  | [], a, v => [(a, v)]
  | (k, w) :: m, a, v =>
    if a < k then (a, v) :: (k, w) :: m
    else if a = k then (a, v) :: m
    else (k, w) :: Memory.write m a v

/-- Store bytes one after another in list order, so that a later one wins (R81). -/
def Memory.writeCells : Memory → List Host.Cell → Memory
  | m, [] => m
  | m, (a, v) :: cells => Memory.writeCells (Memory.write m a v) cells

/-- Bytes at consecutive addresses from `a`. -/
def cellsAt : Nat → List Byte → List Host.Cell
  | _, [] => []
  | a, b :: bs => (a, b) :: cellsAt (a + 1) bs

/-- Store consecutive bytes from `a`, in ascending order (R81). -/
def Memory.writeBytes (m : Memory) (a : Nat) (bs : List Byte) : Memory := m.writeCells (cellsAt a bs)

/-- The canonical form: addresses strictly rising (so none is listed twice). Every listed byte differs from what an
unlisted address reads as, since an unlisted address reads as no byte at all. -/
abbrev Memory.wf (m : Memory) : Prop := m.Pairwise (fun x y => x.1 < y.1)

/-- Every listed address lies in an LMEM of `n` bytes (R55). -/
abbrev Memory.below (m : Memory) (n : Nat) : Prop := ∀ c ∈ m, c.1 < n

/-- The unsigned value of bytes stored little-endian, lowest address first (R20, R71). -/
def leValue : List Byte → Nat
  | [] => 0
  | b :: bs => b.toNat + 256 * leValue bs

/-- The `n` bytes of a value stored little-endian, lowest address first (R20, R71). -/
def leBytes : Nat → Nat → List Byte
  | 0, _ => []
  | n + 1, v => BitVec.ofNat 8 v :: leBytes n (v / 256)

/-- `raise E(d)` of R21. -/
def raise {α : Type} (k : ErrKind) : CmdM α := .error (.raise k)

/-- Go on if the check holds, else raise. -/
def require (c : Bool) (k : ErrKind) : CmdM Unit := if c then .ok () else raise k

/-- `Mem8(a)` read by command `i`. An unwritten byte is the model's fault, naming the command (R60). -/
def readByte (i : Instr) (m : Memory) (a : Nat) : CmdM Byte :=
  match m.read? a with
  | some b => .ok b
  | none => .error (.fault (.unwrittenByte i a))

/-- `Mem8(a .. a+n-1)`, in ascending address order (R20). -/
def readBytes (i : Instr) (m : Memory) : Nat → Nat → CmdM (List Byte)
  | _, 0 => .ok []
  | a, n + 1 => do
    let b ← readByte i m a
    let bs ← readBytes i m (a + 1) n
    return b :: bs

/-- `n` values `Mem32(a + 4*j)`, j ascending. The four bytes of one value are read in ascending address order, where R20
gives MemRead no order (DESIGN CHOICE, log 18): it decides only which unwritten byte a fault names. -/
def readWords (i : Instr) (m : Memory) : Nat → Nat → CmdM (List Word)
  | _, 0 => .ok []
  | a, n + 1 => do
    let bs ← readBytes i m a 4
    let ws ← readWords i m (a + 4) n
    return BitVec.ofNat 32 (leValue bs) :: ws

/-! ### The end of a command -/

/-- Record an error in STATUS: the first one is sticky (R38, R254). -/
def recordError (opc : BitVec 8) (k : ErrKind) (s : State) : State :=
  { s with err := match s.err with
                  | some e => some e
                  | none => some { kind := k, opc := opc } }

/-- An error ends the command (R253): BUSY <- 0, DONE stays, the error is recorded, nothing else changes. The block has
no other exception: no program counter moves and nothing is saved (R250, R264). -/
def raiseError (opc : BitVec 8) (k : ErrKind) (s : State) : State :=
  { recordError opc k s with busy := false }

/-- The return from an error (R259): ERR, ERRCODE, ERRDETAIL and ERROPC are cleared, nothing else changes. -/
def clearError (s : State) : State := { s with err := none }

/-- Completion without error: BUSY <- 0, DONE <- 1 (R36, R251). -/
def complete (s : State) : State := { s with busy := false, done := true }

/-- How command `i`, started in `s`, ends: its working copy is committed only on success (R22, R251, R253). -/
def commit (i : Instr) (s : State) : CmdM State → Outcome
  | .ok t => .next (complete t)
  | .error (.raise k) => .next (raiseError i.opcode k s)
  | .error (.fault f) => .fault f

end Sys2Proof.Machine
end

