-- ==== Sys2Proof/Machine/Operands.lean ====
section
/-! DEFINITION. The operand forms of the commands: ARG registers of the snapshot as unsigned integers, the strict flag of
the snapshot, table slots, bit counts, and the range check of LMEM regions (spec 10_state R42, R53, R56; 20_memory R72,
R73; 30_encoding R100 to R102). -/

namespace Sys2Proof.Machine

/-- ARG0 as a command reads it: unsigned, from the snapshot (R42, R102). -/
def State.opnd0 (s : State) : Nat := s.snapArgs.arg0.toNat
/-- ARG1 as a command reads it. -/
def State.opnd1 (s : State) : Nat := s.snapArgs.arg1.toNat
/-- ARG2 as a command reads it. -/
def State.opnd2 (s : State) : Nat := s.snapArgs.arg2.toNat
/-- ARG3 as a command reads it. -/
def State.opnd3 (s : State) : Nat := s.snapArgs.arg3.toNat
/-- ARG4 as a command reads it. -/
def State.opnd4 (s : State) : Nat := s.snapArgs.arg4.toNat

/-- CFG.STRICT as a command reads it: from the snapshot (R34). -/
def State.strict (s : State) : Bool := s.snapCfg.strict

/-- `InRange(a, n)` of R72, over unbounded integers (R73). -/
def State.inRange (s : State) (a n : Nat) : Bool := decide (a + n ≤ s.params.lmemSize)

/-- Check regions in order; the first that fails raises ADDRESS_FAULT(0) (R72, R258). -/
def checkRegions (s : State) : List (Nat × Nat) → CmdM Unit
  | [] => .ok ()
  | (a, n) :: rest => do
    require (s.inRange a n) .addressFault
    checkRegions s rest

/-- `HT[t]` (R53, R100). -/
def State.slot (s : State) (t : BitVec 3) : HtSlot := s.ht[t.toNat]'(t.isLt)

/-- `HT[t] <- x`. -/
def State.setSlot (s : State) (t : BitVec 3) (x : HtSlot) : State := { s with ht := s.ht.set t.toNat x t.isLt }

/-- `HT[t].valid <- 0` for every t; the contents stay (R111). -/
def invalidateAll (h : Vector HtSlot 8) : Vector HtSlot 8 :=
  ⟨⟨h.toArray.toList.map (fun x => { x with valid := false })⟩, by simp⟩

/-- Write RES0 and no other result register (R43, R106). -/
def State.setRes0 (s : State) (a : Word) : State := { s with res := { s.res with res0 := a } }
/-- Write RES0 and RES1 and no other result register (R43, R106). -/
def State.setRes01 (s : State) (a b : Word) : State := { s with res := { s.res with res0 := a, res1 := b } }
/-- Write RES0, RES1 and RES2 (R43, R106). -/
def State.setRes012 (s : State) (a b c : Word) : State := { s with res := { res0 := a, res1 := b, res2 := c } }

/-- An unsigned result, zero-extended (R106, D51). -/
def zres (v : Nat) : Word := BitVec.ofNat 32 v
/-- A signed result as its two's-complement value (R106, D51). -/
def sres (v : Int) : Word := BitVec.ofInt 32 v

end Sys2Proof.Machine
end

