-- ==== Sys2Proof/Machine/BitReader.lean ====
section
/-! DEFINITION. The bit reader: refill, consume, and the six BR commands (spec 41_bitreader). -/

namespace Sys2Proof.Machine

/-! ### Primitives -/

/-- Append one data byte below the valid bits and move past `width` stream bytes (R121). -/
def loadByte (b : BitReader) (v : Byte) (width : Nat) : BitReader :=
  { b with acc := b.acc ||| (v.setWidth 64 <<< (56 - b.nbits)), nbits := b.nbits + 8, pos := b.pos + width }

/-- One turn of refill's loop (R121): a data byte, a stuffed 0xFF (R122), a marker (R123), or the end of data (R124). -/
def refillStep (i : Instr) (m : Memory) (b : BitReader) : CmdM BitReader :=
  if b.endPos ≤ b.pos then .ok { b with ended := true }
  else do
    let v ← readByte i m b.pos
    if v ≠ 0xFF then .ok (loadByte b v 1)
    else if b.endPos ≤ b.pos + 1 then .ok { b with ended := true }
    else do
      let v2 ← readByte i m (b.pos + 1)
      if v2 = 0x00 then .ok (loadByte b 0xFF 2)
      else .ok { b with mfound := true, marker := v2, ended := true }

/-- Refill's loop (R121), with a bound on its turns: each turn loads 8 bits or ends the stream, so 8 turns are enough. -/
def refillLoop (i : Instr) (m : Memory) : Nat → BitReader → CmdM BitReader
  | 0, b => .ok b
  | k + 1, b =>
    if b.nbits ≤ 56 ∧ b.ended = false then do
      let b' ← refillStep i m b
      refillLoop i m k b'
    else .ok b

/-- Padding once the stream has ended (R125). -/
def padBits (b : BitReader) : BitReader :=
  if b.ended = true ∧ b.nbits < 64 then { b with npad := b.npad + (64 - b.nbits), nbits := 64 } else b

/-- `refill` of R121. -/
def refill (i : Instr) (m : Memory) (b : BitReader) : CmdM BitReader := do
  let b' ← refillLoop i m 8 b
  return padBits b'

/-- The next `n` bits as an unsigned value, first bit most significant: `acc[63 : 64-n]`, and 0 for n = 0 (R126). -/
def peekBits (b : BitReader) (n : Nat) : Nat := (b.acc >>> (64 - n)).toNat

/-- The pad bits that taking `n` bits would take (`padc` of R126). -/
def padTaken (b : BitReader) (n : Nat) : Nat := n - (b.nbits - b.npad)

/-- What taking `n` bits leaves, pad bits among them or not (R126). -/
def dropBits (b : BitReader) (n : Nat) : BitReader :=
  { b with acc := b.acc <<< n, nbits := b.nbits - n, npad := b.npad - padTaken b n,
           overrun := b.overrun || decide (0 < padTaken b n) }

/-- `consume` of R126. -/
def consume (b : BitReader) (n : Nat) (strict : Bool) : CmdM (Nat × BitReader) :=
  if 0 < padTaken b n ∧ strict = true then raise .streamTruncated
  else .ok (peekBits b n, dropBits b n)

/-! ### BR_SKIP_MARKER's scan -/

/-- Skip a run of 0xFF from `q` (R132, R133), with a bound on its length. -/
def skipFill (i : Instr) (m : Memory) (endPos : Nat) : Nat → Nat → CmdM Nat
  | 0, q => .ok q
  | k + 1, q =>
    if q < endPos then do
      let v ← readByte i m q
      if v = 0xFF then skipFill i m endPos k (q + 1) else .ok q
    else .ok q

/-- The scan loop of R132 from `p`, with a bound on its turns: the marker code and the address after it, or none. -/
def scanMarker (i : Instr) (m : Memory) (endPos : Nat) : Nat → Nat → CmdM (Option (Byte × Nat))
  | 0, _ => .ok none
  | k + 1, p =>
    if p < endPos then do
      let v ← readByte i m p
      if v ≠ 0xFF then scanMarker i m endPos k (p + 1)
      else do
        let q ← skipFill i m endPos (endPos - (p + 1)) (p + 1)
        if endPos ≤ q then .ok none
        else do
          let c ← readByte i m q
          if c = 0x00 then scanMarker i m endPos k (q + 1) else .ok (some (c, q + 1))
    else .ok none

/-- The scan of R132 over the rest of the segment. -/
def findMarker (i : Instr) (m : Memory) (b : BitReader) : CmdM (Option (Byte × Nat)) :=
  scanMarker i m b.endPos (b.endPos - b.pos) b.pos

/-! ### Commands -/

/-- The BR fields BR_INIT sets (R127). -/
def segmentAt (a len : Nat) : BitReader := { BitReader.zero with pos := a, endPos := a + len }

/-- BR_INIT (R127). -/
def execBrInit (s : State) : Outcome := commit .brInit s do
  require (s.inRange s.opnd0 s.opnd1) .addressFault
  return { s with br := segmentAt s.opnd0 s.opnd1 }

/-- BR_REFILL (R128). -/
def execBrRefill (s : State) : Outcome := commit .brRefill s do
  let b ← refill .brRefill s.lmem s.br
  return { s with br := b }

/-- BR_PEEK n (R129). -/
def execBrPeek (n : BitVec 6) (s : State) : Outcome := commit (.brPeek n) s do
  require (decide (n.toNat ≤ s.br.nbits)) .bitUnderflow
  return s.setRes0 (zres (peekBits s.br n.toNat))

/-- BR_GET n (R130). -/
def execBrGet (n : BitVec 6) (s : State) : Outcome := commit (.brGet n) s do
  require (decide (n.toNat ≤ s.br.nbits)) .bitUnderflow
  let r ← consume s.br n.toNat s.strict
  return { s with br := r.2 }.setRes0 (zres r.1)

/-- BR_HAS n (R131). -/
def execBrHas (n : BitVec 6) (s : State) : Outcome :=
  commit (.brHas n) s (.ok (s.setRes0 (zres (if n.toNat ≤ s.br.nbits then 1 else 0))))

/-- What BR_SKIP_MARKER leaves (R132), the buffered bits discarded either way. -/
def skipTo (s : State) : Option (Byte × Nat) → State
  | some (code, p) =>
    { s with br := { s.br with acc := 0, nbits := 0, npad := 0, pos := p, ended := false, mfound := false,
                               marker := code, overrun := false } }.setRes01 (zres code.toNat) 1
  | none =>
    { s with br := { s.br with acc := 0, nbits := 0, npad := 0, pos := s.br.endPos, ended := true,
                               mfound := false } }.setRes01 0 0

/-- BR_SKIP_MARKER (R132). -/
def execBrSkipMarker (s : State) : Outcome := commit .brSkipMarker s do
  let r ← findMarker .brSkipMarker s.lmem s.br
  return skipTo s r

end Sys2Proof.Machine
end

