-- ==== Sys2Proof/Machine/Color.lean ====
section
/-! DEFINITION. The YCbCr colour converter: the per-pixel function and the five CC commands (spec 45_color). -/

namespace Sys2Proof.Machine

/-- Y_CF (R230). -/
def yCf : Int := 16384
/-- CR_CF (R230). -/
def crCf : Int := 22970
/-- CB_CF (R230). -/
def cbCf : Int := 29032
/-- G_CR (R230). -/
def gCr : Int := -11700
/-- G_CB (R230). -/
def gCb : Int := -5638
/-- YUV_RND (R230). -/
def yuvRnd : Int := 8191

/-- A chroma sample less its offset: `cb - 128`, `cr - 128` (R232). -/
def chroma (v : Byte) : Int := (v.toNat : Int) - 128

/-- `base = y * Y_CF + YUV_RND` (R232). -/
def lumaBase (y : Byte) : Int := (y.toNat : Int) * yCf + yuvRnd

/-- The red sample of `ycc` (R232). -/
def yccR (y cr : Byte) : Byte := clamp255 (asr (lumaBase y + chroma cr * crCf) 14)
/-- The green sample of `ycc` (R232). -/
def yccG (y cb cr : Byte) : Byte := clamp255 (asr (lumaBase y + chroma cr * gCr + chroma cb * gCb) 14)
/-- The blue sample of `ycc` (R232). -/
def yccB (y cb : Byte) : Byte := clamp255 (asr (lumaBase y + chroma cb * cbCf) 14)

/-- The bytes of one RGB pixel (R235). -/
def pixelRgb (y cb cr : Byte) : List Byte := [yccR y cr, yccG y cb cr, yccB y cb]
/-- The bytes of one RGBA pixel (R236). -/
def pixelRgba (y cb cr : Byte) : List Byte := [yccR y cr, yccG y cb cr, yccB y cb, 0xFF]
/-- The bytes of one RGBX pixel (R237). -/
def pixelRgbx (y cb cr : Byte) : List Byte := [yccR y cr, yccG y cb cr, yccB y cb, 0xFF]
/-- The bytes of one passed-through YCbCr pixel (R239). -/
def pixelYcbcr (y cb cr : Byte) : List Byte := [y, cb, cr]

/-- The pixels of three planes, one after another (R231). -/
def interleave (pixel : Byte → Byte → Byte → List Byte) : List Byte → List Byte → List Byte → List Byte
  | y :: ys, cb :: cbs, cr :: crs => pixel y cb cr ++ interleave pixel ys cbs crs
  | _, _, _ => []

/-- The rule CC_RGB, CC_RGBA, CC_RGBX and CC_YCBCR share (R235): check Y, Cb, Cr and the output of `bpp` bytes a pixel,
read the three planes, store the pixels. The planes are read whole, Y, then Cb, then Cr, where R235 gives no order among
them and R239 names them pixel by pixel (DESIGN CHOICE, log 17): it decides only which unwritten byte a fault names. -/
def convert (i : Instr) (bpp : Nat) (pixel : Byte → Byte → Byte → List Byte) (s : State) : CmdM State := do
  checkRegions s [(s.opnd0, s.opnd4), (s.opnd1, s.opnd4), (s.opnd2, s.opnd4), (s.opnd3, bpp * s.opnd4)]
  let ys ← readBytes i s.lmem s.opnd0 s.opnd4
  let cbs ← readBytes i s.lmem s.opnd1 s.opnd4
  let crs ← readBytes i s.lmem s.opnd2 s.opnd4
  return { s with lmem := s.lmem.writeBytes s.opnd3 (interleave pixel ys cbs crs) }

/-- CC_RGB (R235). -/
def execCcRgb (s : State) : Outcome := commit .ccRgb s (convert .ccRgb 3 pixelRgb s)

/-- CC_RGBA (R236). -/
def execCcRgba (s : State) : Outcome := commit .ccRgba s (convert .ccRgba 4 pixelRgba s)

/-- CC_RGBX (R237). -/
def execCcRgbx (s : State) : Outcome := commit .ccRgbx s (convert .ccRgbx 4 pixelRgbx s)

/-- CC_GRAY (R238): ARG1 and ARG2 are neither read nor checked. -/
def execCcGray (s : State) : Outcome := commit .ccGray s do
  checkRegions s [(s.opnd0, s.opnd4), (s.opnd3, s.opnd4)]
  let ys ← readBytes .ccGray s.lmem s.opnd0 s.opnd4
  return { s with lmem := s.lmem.writeBytes s.opnd3 ys }

/-- CC_YCBCR (R239). -/
def execCcYcbcr (s : State) : Outcome := commit .ccYcbcr s (convert .ccYcbcr 3 pixelYcbcr s)

end Sys2Proof.Machine
end

