-- ==== Sys2Proof/Machine/Control.lean ====
section
/-! DEFINITION. The control commands NOP and CORE_INIT (spec 40_control). -/

namespace Sys2Proof.Machine

/-- NOP (R110): nothing but completion. -/
def execNop (s : State) : Outcome := commit .nop s (.ok s)

/-- `select_backend` of R112: true is the parallel-reduction backend. -/
def selectBackend (p : Params) (c : Cfg) : Bool := c.backendReq && !c.forceScalar && p.parAvailable

/-- The state CORE_INIT leaves before completion (R111). -/
def initCore (s : State) : State :=
  { s with backend := selectBackend s.params s.snapCfg, br := .zero, ht := invalidateAll s.ht, res := .zero, err := none }

/-- CORE_INIT (R111). -/
def execCoreInit (s : State) : Outcome := commit .coreInit s (.ok (initCore s))

end Sys2Proof.Machine
end

