-- ==== Sys2Proof/Machine/Huffman.lean ====
section
/-! DEFINITION. Huffman tables, symbol decoding and the five HT commands (spec 42_huffman). -/

namespace Sys2Proof.Machine

/-! ### The canonical code -/

/-- A codeword: its length and its value, read most significant bit first (R156). -/
structure Codeword where
  len : Nat
  code : Nat
  deriving DecidableEq, Repr

/-- The codewords of lengths l, l+1, … for the given counts, the next one having value `code` (R156). -/
def codewordsFrom : Nat → Nat → List Byte → List Codeword
  | _, _, [] => []
  | l, code, c :: cs =>
    (List.range c.toNat).map (fun j => { len := l, code := code + j }) ++
      codewordsFrom (l + 1) (2 * (code + c.toNat)) cs

/-- The canonical code of the counts count[1], count[2], … (R156). -/
def codewords (count : List Byte) : List Codeword := codewordsFrom 1 0 count

/-- The sum of the counts (`nsyms` of R151). -/
def countSum : List Byte → Nat
  | [] => 0
  | c :: cs => c.toNat + countSum cs

/-- The Kraft sum of the counts of lengths l, l+1, … (R155). -/
def kraftFrom : Nat → List Byte → Nat
  | _, [] => 0
  | l, c :: cs => c.toNat * 2 ^ (16 - l) + kraftFrom (l + 1) cs

/-- The Kraft sum K of R155. -/
def kraft (count : List Byte) : Nat := kraftFrom 1 count

/-- The codewords with their symbols (R152, R156). -/
def HtSlot.entries (h : HtSlot) : List (Codeword × Byte) := (codewords h.count).zip h.sym

/-- Does the 16-bit window begin with this codeword (R157)? -/
def Codeword.matches (w : Codeword) (x : BitVec 16) : Bool := x.toNat >>> (16 - w.len) == w.code

/-- The decode function of a slot (R160): the symbol and the code length, or NOMATCH. -/
def HtSlot.decode (h : HtSlot) (x : BitVec 16) : Option (Byte × Nat) :=
  (h.entries.find? (fun e => e.1.matches x)).map (fun e => (e.2, e.1.len))

/-- Entry `i` of the lookup table with k = FAST_BITS: HIT, LONG or INVALID (R161). -/
def HtSlot.lutEntry (h : HtSlot) (k i : Nat) : BitVec 16 :=
  match h.entries.find? (fun e => decide (e.1.len ≤ k) && i >>> (k - e.1.len) == e.1.code) with
  | some e => 1#2 ++ (0#1 ++ (BitVec.ofNat 5 e.1.len ++ e.2))
  | none =>
    if h.entries.any (fun e => decide (k < e.1.len) && e.1.code >>> (e.1.len - k) == i) then 0x8000 else 0x0000

/-- The image HT_DUMP writes: 2^k entries, each a little-endian u16 (R167). -/
def HtSlot.lutBytes (h : HtSlot) (k : Nat) : List Byte :=
  (List.range (2 ^ k)).flatMap (fun i => leBytes 2 (h.lutEntry k i).toNat)

/-- The sign extension of R164. -/
def extend (v s : Nat) : Int :=
  if s = 0 then 0 else if 2 ^ (s - 1) ≤ v then (v : Int) else (v : Int) - (2 ^ s - 1)

/-! ### Building -/

/-- The table a checked definition builds (R159). -/
def builtSlot (count sym : List Byte) : HtSlot := { valid := true, count := count, nsyms := countSum count, sym := sym }

/-- HT_BUILD t (R159). -/
def execHtBuild (t : BitVec 3) (s : State) : Outcome := commit (.htBuild t) s do
  require (s.inRange s.opnd0 16) .addressFault
  let count ← readBytes (.htBuild t) s.lmem s.opnd0 16
  require (decide (countSum count ≤ 256)) .tableTooManySymbols
  require (decide (countSum count ≠ 0)) .tableEmpty
  require (decide (kraft count ≤ 65536)) .tableOverSubscribed
  require (s.inRange (s.opnd0 + 16) (countSum count)) .addressFault
  let sym ← readBytes (.htBuild t) s.lmem (s.opnd0 + 16) (countSum count)
  return (s.setSlot t (builtSlot count sym)).setRes01 (zres (countSum count)) (zres (kraft count))

/-! ### Decoding -/

/-- `decode_sym` of R162: the symbol, its code length, and the refilled reader it was read from. -/
def decodeSym (i : Instr) (t : BitVec 3) (s : State) : CmdM (Byte × Nat × BitReader) := do
  require (s.slot t).valid .tableUndefined
  let b ← refill i s.lmem s.br
  match (s.slot t).decode (b.acc.extractLsb' 48 16) with
  | none => raise .streamNoMatch
  | some (sym, l) => return (sym, l, b)

/-- HT_DECODE t (R163). -/
def execHtDecode (t : BitVec 3) (s : State) : Outcome := commit (.htDecode t) s do
  let r ← decodeSym (.htDecode t) t s
  let c ← consume r.2.2 r.2.1 s.strict
  return { s with br := c.2 }.setRes01 (zres r.1.toNat) (zres r.2.1)

/-- HT_DECODE_DC t (R165). -/
def execHtDecodeDc (t : BitVec 3) (s : State) : Outcome := commit (.htDecodeDc t) s do
  let r ← decodeSym (.htDecodeDc t) t s
  require (decide (r.1.toNat ≤ 11)) .streamBadCategory
  let c ← consume r.2.2 r.2.1 s.strict
  let v ← consume c.2 r.1.toNat s.strict
  return { s with br := v.2 }.setRes01 (sres (extend v.1 r.1.toNat)) (zres r.1.toNat)

/-- The kind of an AC symbol with run `r` and size `z`: 0 COEF, 1 EOB, 2 ZRL, 3 EOBRUN (R166, R168). -/
def acKind (r z : Nat) : Nat := if z ≠ 0 then 0 else if r = 0 then 1 else if r = 15 then 2 else 3

/-- HT_DECODE_AC t (R166). A size of 0 takes no extra bits and gives the value 0. -/
def execHtDecodeAc (t : BitVec 3) (s : State) : Outcome := commit (.htDecodeAc t) s do
  let r ← decodeSym (.htDecodeAc t) t s
  let c ← consume r.2.2 r.2.1 s.strict
  let run := r.1.toNat / 16
  let size := r.1.toNat % 16
  let v ← consume c.2 size s.strict
  return { s with br := v.2 }.setRes012 (sres (extend v.1 size)) (zres r.1.toNat) (zres (acKind run size))

/-- HT_DUMP t (R167). -/
def execHtDump (t : BitVec 3) (s : State) : Outcome := commit (.htDump t) s do
  require (s.slot t).valid .tableUndefined
  require (s.inRange s.opnd0 (2 * 2 ^ s.params.fastBits)) .addressFault
  return { s with lmem := s.lmem.writeBytes s.opnd0 ((s.slot t).lutBytes s.params.fastBits) }.setRes0
    (zres (2 ^ s.params.fastBits))

end Sys2Proof.Machine
end

