-- ==== Sys2Proof/Machine/Idct.lean ====
section
/-! DEFINITION. The IDCT engine: IDCT_KERNEL, its default instantiation, and the IDCT command (spec 43_idct). -/

namespace Sys2Proof.Machine

/-! ### The reference kernel -/

/-- What the 1-D butterfly returns (R197). -/
structure Butterfly where
  x0 : Word
  x1 : Word
  x2 : Word
  x3 : Word
  t0 : Word
  t1 : Word
  t2 : Word
  t3 : Word
  deriving DecidableEq, Repr

/-- The 1-D butterfly of R197; every operation wraps to 32 bits (R196), so a constant -k is its two's complement. -/
def idct1d (s0 s1 s2 s3 s4 s5 s6 s7 : Word) : Butterfly :=
  -- even part
  let p1 := (s2 + s6) * 2217#32
  let e2 := p1 - s6 * 7567#32
  let e3 := p1 + s2 * 3135#32
  let e0 := (s0 + s4) * 4096#32
  let e1 := (s0 - s4) * 4096#32
  -- odd part: a0 = s7, a1 = s5, a2 = s3, a3 = s1
  let q3 := s7 + s3
  let q4 := s5 + s1
  let q5 := (q3 + q4) * 4816#32
  let r1 := q5 - (s7 + s1) * 3685#32
  let r2 := q5 - (s5 + s3) * 10497#32
  let r3 := - (q3 * 8034#32)
  let r4 := - (q4 * 1597#32)
  { x0 := e0 + e3, x1 := e1 + e2, x2 := e1 - e2, x3 := e0 - e3,
    t3 := s1 * 6149#32 + r1 + r4, t2 := s3 * 12586#32 + r2 + r3,
    t1 := s5 * 8410#32 + r2 + r4, t0 := s7 * 1223#32 + r1 + r3 }

/-- The eight outputs of a pass: `bias` added to x0..x3, sums and differences shifted right arithmetically by `sh`
(R198 with 512 and 10, R199 with 16842752 and 17). -/
def passOut (bias : Word) (sh : Nat) (f : Butterfly) : List Word :=
  [(f.x0 + bias + f.t3).sshiftRight sh, (f.x1 + bias + f.t2).sshiftRight sh,
   (f.x2 + bias + f.t1).sshiftRight sh, (f.x3 + bias + f.t0).sshiftRight sh,
   (f.x3 + bias - f.t0).sshiftRight sh, (f.x2 + bias - f.t1).sshiftRight sh,
   (f.x1 + bias - f.t2).sshiftRight sh, (f.x0 + bias - f.t3).sshiftRight sh]

/-- Element `k` of a list of words. -/
def at32 (c : List Word) (k : Nat) : Word := c.getD k 0

/-- Column `i` of the column pass (R198): v[i], v[8+i], …, v[56+i]. -/
def columnPass (c : List Word) (i : Nat) : List Word :=
  passOut 512 10 (idct1d (at32 c i) (at32 c (8 + i)) (at32 c (16 + i)) (at32 c (24 + i))
    (at32 c (32 + i)) (at32 c (40 + i)) (at32 c (48 + i)) (at32 c (56 + i)))

/-- The eight columns of intermediates (R198). -/
def columns (c : List Word) : List (List Word) := (List.range 8).map (columnPass c)

/-- v[8r + u], from the columns. -/
def colAt (cols : List (List Word)) (u r : Nat) : Word := at32 (cols.getD u []) r

/-- Row `r` of the row pass, before clamping (R199). -/
def rowPass (cols : List (List Word)) (r : Nat) : List Word :=
  passOut 16842752 17 (idct1d (colAt cols 0 r) (colAt cols 1 r) (colAt cols 2 r) (colAt cols 3 r)
    (colAt cols 4 r) (colAt cols 5 r) (colAt cols 6 r) (colAt cols 7 r))

/-- The reference kernel (R196 to R199): 64 coefficients to 64 samples. -/
def referenceKernel (c : List Word) : List Byte :=
  (List.range 8).flatMap (fun r => (rowPass (columns c) r).map (fun x => clamp255 x.toInt))

/-! ### The parameter IDCT_KERNEL -/

/-- All 63 AC coefficients are zero (R194). -/
def dcOnly (c : List Word) : Bool := c.tail.all (· == 0)

/-- `dcval` of R195. -/
def dcval (d : Int) : Byte := clamp255 (asr (d + 4) 3 + 128)

/-- The range of c[0] in which R195 fixes the value. -/
def dcInRange (d : Int) : Bool := decide (-2328 ≤ d) && decide (d ≤ 2328)

/-- IDCT_KERNEL (R13). A kernel other than the reference one is free but for R192 to R195: a function of the 64
coefficients, 64 samples in [0, 255], equal samples on a DC-only block, and `dcval` of c[0] where R195 fixes it. -/
def idctKernel : KernelSel → List Word → List Byte
  | .reference, c => referenceKernel c
  | .other n, c =>
    if dcOnly c then
      List.replicate 64 (if dcInRange (at32 c 0).toInt then dcval (at32 c 0).toInt else Config.idctSample n c 0)
    else (List.range 64).map (Config.idctSample n c)

/-! ### The command -/

/-- The 64 stores of the block, row-major, row `r` at `oa + r*st` (R190, R202). -/
def blockCells (oa st : Nat) (o : List Byte) : List Host.Cell :=
  (List.range 64).map (fun k => (oa + k / 8 * st + k % 8, o.getD k 0))

/-- IDCT (R191). -/
def execIdct (s : State) : Outcome := commit .idct s do
  checkRegions s [(s.opnd0, 256), (s.opnd1 + 7 * s.opnd2, 8)]
  let c ← readWords .idct s.lmem s.opnd0 64
  return { s with lmem := s.lmem.writeCells (blockCells s.opnd1 s.opnd2 (idctKernel s.params.kernel c)) }

end Sys2Proof.Machine
end

