-- ==== Sys2Proof/Machine/Upsampler.lean ====
section
/-! DEFINITION. The chroma upsampler: the triangle filter and the four UPS commands (spec 44_upsampler). -/

namespace Sys2Proof.Machine

/-- `tri(c, n) = (3*c + n + 2) >> 2` (R211), exact in a byte (R219). -/
def tri (c n : Byte) : Byte := BitVec.ofNat 8 ((3 * c.toNat + n.toNat + 2) / 4)

/-- Element `i` of a row. -/
def at8 (s : List Byte) (i : Nat) : Byte := s.getD i 0

/-- The two outputs of sample `i` of the row (R214): the boundary sample is replicated outward, so the left neighbour of
sample 0 is itself, and so is the right neighbour of the last. -/
def hpair (s : List Byte) (i : Nat) : List Byte :=
  [tri (at8 s i) (at8 s (i - 1)), tri (at8 s i) (at8 s (min (i + 1) (s.length - 1)))]

/-- The horizontal row function (R214): 2w samples from w. -/
def hrow (s : List Byte) : List Byte := (List.range s.length).flatMap (hpair s)

/-- The vertical formula over two rows (R215). -/
def vrow (c n : List Byte) : List Byte := List.zipWith tri c n

/-- UPS_NONE (R212). -/
def execUpsNone (s : State) : Outcome := commit .upsNone s do
  checkRegions s [(s.opnd0, s.opnd4), (s.opnd3, s.opnd4)]
  let row ← readBytes .upsNone s.lmem s.opnd0 s.opnd4
  return { s with lmem := s.lmem.writeBytes s.opnd3 row }

/-- UPS_H (R213). -/
def execUpsH (s : State) : Outcome := commit .upsH s do
  checkRegions s [(s.opnd0, s.opnd4), (s.opnd3, 2 * s.opnd4)]
  let row ← readBytes .upsH s.lmem s.opnd0 s.opnd4
  return { s with lmem := s.lmem.writeBytes s.opnd3 (hrow row) }

/-- The three input rows of UPS_V and UPS_HV: cur, near and far (R215, R217). -/
def readRows (i : Instr) (s : State) : CmdM (List Byte × List Byte × List Byte) := do
  let c ← readBytes i s.lmem s.opnd0 s.opnd4
  let n ← readBytes i s.lmem s.opnd1 s.opnd4
  let f ← readBytes i s.lmem s.opnd2 s.opnd4
  return (c, n, f)

/-- UPS_V (R215). -/
def execUpsV (s : State) : Outcome := commit .upsV s do
  checkRegions s [(s.opnd0, s.opnd4), (s.opnd1, s.opnd4), (s.opnd2, s.opnd4), (s.opnd3, 2 * s.opnd4)]
  let r ← readRows .upsV s
  return { s with lmem := s.lmem.writeBytes s.opnd3 (vrow r.1 r.2.1 ++ vrow r.1 r.2.2) }

/-- UPS_HV (R217). -/
def execUpsHv (s : State) : Outcome := commit .upsHv s do
  checkRegions s [(s.opnd0, s.opnd4), (s.opnd1, s.opnd4), (s.opnd2, s.opnd4), (s.opnd3, 4 * s.opnd4)]
  let r ← readRows .upsHv s
  return { s with lmem := s.lmem.writeBytes s.opnd3 (hrow (vrow r.1 r.2.1) ++ hrow (vrow r.1 r.2.2)) }

end Sys2Proof.Machine
end

