-- ==== Sys2Proof/Machine/Dispatch.lean ====
section
/-! DEFINITION. Which meaning each command has: one arm per constructor of `Instr`. -/

namespace Sys2Proof.Machine

/-- The core's atomic step for the command `i` (spec 10_state R56). -/
def exec (i : Instr) (s : State) : Host.Outcome State Fault Refusal :=
  match i with
  -- control
  | .nop => Sys2Proof.Machine.execNop s
  | .coreInit => Sys2Proof.Machine.execCoreInit s
  -- bit reader
  | .brInit => Sys2Proof.Machine.execBrInit s
  | .brRefill => Sys2Proof.Machine.execBrRefill s
  | .brPeek n => Sys2Proof.Machine.execBrPeek n s
  | .brGet n => Sys2Proof.Machine.execBrGet n s
  | .brHas n => Sys2Proof.Machine.execBrHas n s
  | .brSkipMarker => Sys2Proof.Machine.execBrSkipMarker s
  -- Huffman
  | .htBuild t => Sys2Proof.Machine.execHtBuild t s
  | .htDecode t => Sys2Proof.Machine.execHtDecode t s
  | .htDecodeDc t => Sys2Proof.Machine.execHtDecodeDc t s
  | .htDecodeAc t => Sys2Proof.Machine.execHtDecodeAc t s
  | .htDump t => Sys2Proof.Machine.execHtDump t s
  -- IDCT
  | .idct => Sys2Proof.Machine.execIdct s
  -- upsampler
  | .upsNone => Sys2Proof.Machine.execUpsNone s
  | .upsH => Sys2Proof.Machine.execUpsH s
  | .upsV => Sys2Proof.Machine.execUpsV s
  | .upsHv => Sys2Proof.Machine.execUpsHv s
  -- colour converter
  | .ccRgb => Sys2Proof.Machine.execCcRgb s
  | .ccRgba => Sys2Proof.Machine.execCcRgba s
  | .ccRgbx => Sys2Proof.Machine.execCcRgbx s
  | .ccGray => Sys2Proof.Machine.execCcGray s
  | .ccYcbcr => Sys2Proof.Machine.execCcYcbcr s

end Sys2Proof.Machine
end

