-- ==== Sys2Proof/Machine/Flags.lean ====
section
/-! DEFINITION. The flag computations: STATUS and the interrupt output, CFG, PARAM and the views of the bit reader and of
the table slots (spec 10_state R32 to R49; 60_exceptions R252, R260). -/

namespace Sys2Proof.Machine

/-- ERRCODE of an error (R252). -/
def ErrKind.code : ErrKind → BitVec 8
  | .illegalOpcode => 0x01
  | .illegalReserved => 0x01
  | .illegalCount => 0x01
  | .addressFault => 0x02
  | .tableTooManySymbols => 0x03
  | .tableOverSubscribed => 0x03
  | .tableEmpty => 0x03
  | .streamNoMatch => 0x04
  | .streamTruncated => 0x04
  | .streamBadCategory => 0x04
  | .tableUndefined => 0x05
  | .bitUnderflow => 0x06
  | .cmdOverrun => 0x07

/-- ERRDETAIL of an error (R252). -/
def ErrKind.detail : ErrKind → BitVec 4
  | .illegalOpcode => 0
  | .illegalReserved => 1
  | .illegalCount => 2
  | .addressFault => 0
  | .tableTooManySymbols => 1
  | .tableOverSubscribed => 2
  | .tableEmpty => 3
  | .streamNoMatch => 0
  | .streamTruncated => 1
  | .streamBadCategory => 2
  | .tableUndefined => 0
  | .bitUnderflow => 0
  | .cmdOverrun => 0

/-- The error an illegal command word raises (R252). -/
def illegalKind : IllegalWord → ErrKind
  | .unassignedOpcode => .illegalOpcode
  | .reservedBits => .illegalReserved
  | .badCount => .illegalCount

/-- ERRCODE, 0 when ERR = 0 (R35). -/
def State.errCode (s : State) : BitVec 8 :=
  match s.err with
  | some e => e.kind.code
  | none => 0
/-- ERRDETAIL, 0 when ERR = 0 (R35). -/
def State.errDetail (s : State) : BitVec 4 :=
  match s.err with
  | some e => e.kind.detail
  | none => 0
/-- ERROPC, 0 when ERR = 0 (R35). -/
def State.errOpc (s : State) : BitVec 8 :=
  match s.err with
  | some e => e.opc
  | none => 0

/-- The interrupt output, `(DONE & IE_DONE) | (ERR & IE_ERR)` (R260). -/
def State.irq (s : State) : Bool := (s.done && s.cfg.ieDone) || (s.err.isSome && s.cfg.ieErr)

/-- STATUS bits [7:5]: BR_OVERRUN, BR_MARKER_FOUND, BR_ENDED (R39). -/
def BitReader.flags (b : BitReader) : BitVec 3 :=
  BitVec.ofBool b.overrun ++ (BitVec.ofBool b.mfound ++ BitVec.ofBool b.ended)

/-- STATUS with the given bits [7:5] (R35). -/
def State.statusWith (s : State) (brFlags : BitVec 3) : Word :=
  s.errOpc ++ (0#4 ++ (s.errDetail ++ (s.errCode ++ (brFlags ++ (BitVec.ofBool s.backend ++
    (BitVec.ofBool s.irq ++ (BitVec.ofBool s.err.isSome ++ (BitVec.ofBool s.done ++ BitVec.ofBool s.busy))))))))

/-- STATUS as it reads while BUSY = 0 (R35). -/
def State.status (s : State) : Word := s.statusWith s.br.flags

/-- ID (R32). -/
def idWord : Word := 0x5A4A4401

/-- CFG as it reads: reserved bits are zero (R33). -/
def Cfg.toWord (c : Cfg) : Word :=
  0#26 ++ (BitVec.ofBool c.ieErr ++ (BitVec.ofBool c.ieDone ++ (0#1 ++
    (BitVec.ofBool c.backendReq ++ (BitVec.ofBool c.forceScalar ++ BitVec.ofBool c.strict)))))

/-- What a write of `w` leaves in CFG: reserved bits are ignored (R33). -/
def Cfg.ofWord (w : Word) : Cfg :=
  { strict := w.getLsbD 0, forceScalar := w.getLsbD 1, backendReq := w.getLsbD 2,
    ieDone := w.getLsbD 4, ieErr := w.getLsbD 5 }

/-- BR_BITS (R45). -/
def BitReader.bitsWord (b : BitReader) : Word :=
  0#9 ++ (BitVec.ofNat 7 (b.nbits - b.npad) ++ (0#1 ++ (BitVec.ofNat 7 b.npad ++ (0#1 ++ BitVec.ofNat 7 b.nbits))))

/-- HT_VALID (R48). -/
def State.htValid (s : State) : Word :=
  0#24 ++ (BitVec.ofBool s.ht[7].valid ++ (BitVec.ofBool s.ht[6].valid ++ (BitVec.ofBool s.ht[5].valid ++
    (BitVec.ofBool s.ht[4].valid ++ (BitVec.ofBool s.ht[3].valid ++ (BitVec.ofBool s.ht[2].valid ++
      (BitVec.ofBool s.ht[1].valid ++ BitVec.ofBool s.ht[0].valid)))))))

/-- PARAM (R49). -/
def paramWord (p : Params) : Word :=
  0#8 ++ (1#8 ++ (0#5 ++ (BitVec.ofBool p.parAvailable ++ (BitVec.ofNat 5 p.fastBits ++ BitVec.ofNat 5 p.lmemLog2))))

end Sys2Proof.Machine
end

