-- ==== Sys2Proof/Machine/CoreStep.lean ====
section
/-! DEFINITION. The core's atomic step over the pending word (spec 10_state R56, 30_encoding R99, 70_reset_and_hazards
R289). -/

namespace Sys2Proof.Machine

/-- May the core take its step: a command is in flight, its delay has run out, and the reset input is not asserted
(R56, R280, R289). -/
def coreReady (s : State) : Bool := s.busy && !s.inReset && s.delay == 0

/-- The core's step: `pending` is decoded; an illegal word raises its error, with the opcode byte of the word as ERROPC
(R99, R253), and a command runs under its rule (R56). -/
def coreStep (s : State) : Outcome :=
  match decode s.pending with
  | .error e => .next (raiseError (opcodeByte s.pending) (illegalKind e) s)
  | .ok i => exec i s

/-- The host's turn brings the completion of a command in flight one operation nearer (R289). -/
def tick (s : State) : State := { s with delay := s.delay - 1 }

end Sys2Proof.Machine
end

