-- ==== Sys2Proof/Machine/HostAccess.lean ====
section
/-! DEFINITION. The host's side: register reads and writes, acceptance of a command, the LMEM window, the reset input
(spec 10_state R31 to R56; 20_memory R75 to R84; 60_exceptions R255, R256; 70_reset_and_hazards R280). -/

namespace Sys2Proof.Machine

/-! ### Command acceptance -/

/-- The latches of acceptance (R56, case 3): the word and the snapshots, BUSY <- 1, DONE <- 0. -/
def latchCommand (w : Word) (s : State) : State :=
  { s with pending := w, snapArgs := s.args, snapCfg := s.cfg, busy := true, done := false }

/-- Acceptance, with a fresh delay to completion (R56, R289). -/
def acceptCommand (w : Word) (s : State) : State :=
  { latchCommand w s with delay := Config.freeDelay s.freeCtr, freeCtr := s.freeCtr + 1 }

/-- May this word be accepted while ERR = 1: NOP and CORE_INIT only (R56 case 2, R255). -/
def acceptedInError (w : Word) : Bool := opcodeByte w == 0x00 || opcodeByte w == 0x01

/-- A host write of `w` to CMD (R41, R56, R255, R256, R257). -/
def writeCmd (w : Word) (s : State) : State :=
  if s.busy then recordError (opcodeByte w) .cmdOverrun { s with cmd := w }
  else if s.err.isSome && !acceptedInError w then { s with cmd := w }
  else acceptCommand w { s with cmd := w }

/-! ### Registers -/

/-- A host write of `w` to STATUS: bit [1] clears DONE, bit [2] clears the error, every other bit is ignored (R35). -/
def writeStatus (w : Word) (s : State) : State :=
  let s := if w.getLsbD 2 then clearError s else s
  if w.getLsbD 1 then { s with done := false } else s

/-- A 32-bit host write to the register at an aligned offset (R31, R33, R35, R41, R42); a read-only or reserved one
ignores it (R50). -/
def writeReg (off : Nat) (w : Word) (s : State) : State :=
  match off with
  | 0x04 => { s with cfg := Cfg.ofWord w }
  | 0x08 => writeStatus w s
  | 0x0C => writeCmd w s
  | 0x10 => { s with args := { s.args with arg0 := w } }
  | 0x14 => { s with args := { s.args with arg1 := w } }
  | 0x18 => { s with args := { s.args with arg2 := w } }
  | 0x1C => { s with args := { s.args with arg3 := w } }
  | 0x20 => { s with args := { s.args with arg4 := w } }
  | _ => s

/-- The value of the register at an aligned offset while BUSY = 0 (R31 to R50). -/
def regValue (s : State) (off : Nat) : Word :=
  match off with
  | 0x00 => idWord
  | 0x04 => s.cfg.toWord
  | 0x08 => s.status
  | 0x0C => s.cmd
  | 0x10 => s.args.arg0
  | 0x14 => s.args.arg1
  | 0x18 => s.args.arg2
  | 0x1C => s.args.arg3
  | 0x20 => s.args.arg4
  | 0x24 => s.res.res0
  | 0x28 => s.res.res1
  | 0x2C => s.res.res2
  | 0x30 => BitVec.ofNat 32 s.br.pos
  | 0x34 => BitVec.ofNat 32 s.br.endPos
  | 0x38 => s.br.bitsWord
  | 0x3C => s.br.marker.setWidth 32
  | 0x40 => s.br.acc.extractLsb' 32 32
  | 0x44 => s.br.acc.extractLsb' 0 32
  | 0x48 => s.htValid
  | 0x4C => paramWord s.params
  | _ => 0

/-- The registers that read any value while BUSY = 1: RES0 to RES2, the BR views and HT_VALID (R84). -/
def openWhileBusy (off : Nat) : Bool := decide (0x24 ≤ off) && decide (off ≤ 0x48)

/-- Draw a free value: the counter moves on. -/
def drawn (s : State) : State := { s with freeCtr := s.freeCtr + 1 }

/-- A 32-bit host read of the register at an aligned offset, and the state after it. Reads have no side effects (R79);
where the value is open (R84, R280) a free value is drawn. -/
def readReg (off : Nat) (s : State) : Word × State :=
  if s.inReset then (Config.freeWord s.freeCtr, drawn s)
  else if s.busy && off == 0x08 then
    (s.statusWith ((Config.freeWord s.freeCtr).extractLsb' 5 3), drawn s)
  else if s.busy && openWhileBusy off then (Config.freeWord s.freeCtr, drawn s)
  else (regValue s off, s)

/-! ### The LMEM window -/

/-- The bytes of an access. -/
def AccessSize.bytes : AccessSize → Nat
  | .byte => 1
  | .half => 2
  | .word => 4

/-- The offset at which the LMEM window starts (R31). -/
def windowBase : Nat := 0x10000

/-- Is the offset in the LMEM window (R31)? -/
def inWindow (off : BitVec 17) : Bool := decide (windowBase ≤ off.toNat)

/-- One byte of a host read of LMEM: 0 from LMEM_SIZE up (R76), any value where nothing has written (U1). -/
def windowByte (s : State) (a : Nat) : Byte :=
  if s.params.lmemSize ≤ a then 0
  else match s.lmem.read? a with
    | some b => b
    | none => Config.freeByte s.freeCtr a

/-- The value of a host read of `n` bytes of LMEM, little-endian, zero-extended (R71). -/
def windowValue (s : State) (a n : Nat) : Word :=
  BitVec.ofNat 32 (leValue ((List.range n).map (fun j => windowByte s (a + j))))

/-- A host write of `n` bytes to LMEM, little-endian; the whole of it is ignored from LMEM_SIZE up (R71, R76). -/
def windowWrite (s : State) (a n : Nat) (w : Word) : State :=
  if s.params.lmemSize ≤ a then s else { s with lmem := s.lmem.writeBytes a (leBytes n w.toNat) }

/-! ### One host access -/

/-- Why the access is refused, if it is (R75, R76, R83). -/
def accessRefusal (size : AccessSize) (off : BitVec 17) (s : State) : Option Refusal :=
  if inWindow off then
    if off.toNat % size.bytes ≠ 0 then some .misalignedWindow
    else if s.busy then some .windowWhileBusy
    else none
  else if size ≠ .word ∨ off.toNat % 4 ≠ 0 then some .registerAccess
  else none

/-- A host write. While the reset input is asserted it has no effect (R280). -/
def hostWrite (size : AccessSize) (off : BitVec 17) (w : Word) (s : State) : Outcome :=
  if s.inReset then .next s
  else match accessRefusal size off s with
    | some r => .refused r
    | none =>
      if inWindow off then .next (windowWrite s (off.toNat - windowBase) size.bytes w)
      else .next (writeReg off.toNat w s)

/-- Any value of an access's width (R280). -/
def anyValue (s : State) (size : AccessSize) : Word :=
  BitVec.ofNat 32 ((Config.freeWord s.freeCtr).toNat % 2 ^ (8 * size.bytes))

/-- The value logged for a read, in the state after it. -/
def logRead (r : Word × State) : State := { r.2 with readLog := r.2.readLog ++ [r.1] }

/-- A host read; its value is the statement's result (R103). While the reset input is asserted it returns any value
(R280). -/
def hostRead (size : AccessSize) (off : BitVec 17) (s : State) : Outcome :=
  if s.inReset then .next (logRead (anyValue s size, drawn s))
  else match accessRefusal size off s with
    | some r => .refused r
    | none =>
      if inWindow off then
        .next (logRead (windowValue s (off.toNat - windowBase) size.bytes, drawn s))
      else .next (logRead (readReg off.toNat s))

/-! ### The reset input -/

/-- The block in its reset state, the host's program, its read log and the model's own counters kept (R280, R59). -/
def resetBlock (s : State) : State :=
  { State.resetWith s.params with script := s.script, readLog := s.readLog, freeCtr := s.freeCtr }

/-! ### One host operation -/

/-- Carry out one host operation, already taken from the script. A `wait` whose poll reads BUSY = 1 is put back (R103). -/
def runHostOp : HostOp → State → Outcome
  | .write size off w, s => hostWrite size off w s
  | .read size off, s => hostRead size off s
  | .wait, s =>
    let r := readReg 0x08 s
    if r.1.getLsbD 0 then .next { r.2 with script := .wait :: r.2.script } else .next r.2
  | .assertReset, s => .next { resetBlock s with inReset := true }
  | .releaseReset, s => if s.inReset then .next (resetBlock s) else .next s

/-- The host's turn: its next operation, or nothing when its program has ended (R269, R291). -/
def hostStep (s : State) : Outcome :=
  match s.script with
  | [] => .next s
  | op :: rest => runHostOp op { s with script := rest }

end Sys2Proof.Machine
end

