-- ==== Sys2Proof/Machine/Step.lean ====
section
/-! DEFINITION. One step of the block and its host, and how a command word is placed where the next step runs it. -/

namespace Sys2Proof.Machine

/-- One step: the core's when its command completes now, otherwise the host's next operation (R30, R56, R289). -/
def step (s : State) : Host.Outcome State Fault Refusal :=
  if coreReady s then coreStep s else hostStep (tick s)

/-- `s` with a command word written to CMD and accepted, its core step coming next: the latches of acceptance (R41, R56)
with no delay and the reset input not asserted. Bits from `nbits` up are zero. -/
def State.withFetchWord (s : State) (nbits w : Nat) : State :=
  { latchCommand (BitVec.ofNat 32 (w % 2 ^ nbits)) { s with cmd := BitVec.ofNat 32 (w % 2 ^ nbits) } with
    inReset := false, delay := 0 }

end Sys2Proof.Machine
end

