-- ==== Sys2Proof/Machine/HostProgram.lean ====
section
/-! DEFINITION. Host programs: the statements of the host language, its pseudo-instructions, the assembler's spelling of a
command, and loading a program (spec 30_encoding R103 to R105). -/

namespace Sys2Proof.Machine

/-- The registers of the register space by name (R31). -/
inductive HostReg where
  | id | cfg | status | cmd | arg0 | arg1 | arg2 | arg3 | arg4 | res0 | res1 | res2
  | brPos | brEnd | brBits | brMarker | brAccHi | brAccLo | htValid | param
  deriving DecidableEq, Repr

/-- The offset of a register (R31). -/
def HostReg.offset : HostReg → BitVec 17
  | .id => 0x00
  | .cfg => 0x04
  | .status => 0x08
  | .cmd => 0x0C
  | .arg0 => 0x10
  | .arg1 => 0x14
  | .arg2 => 0x18
  | .arg3 => 0x1C
  | .arg4 => 0x20
  | .res0 => 0x24
  | .res1 => 0x28
  | .res2 => 0x2C
  | .brPos => 0x30
  | .brEnd => 0x34
  | .brBits => 0x38
  | .brMarker => 0x3C
  | .brAccHi => 0x40
  | .brAccLo => 0x44
  | .htValid => 0x48
  | .param => 0x4C

/-- The statements of R103. -/
inductive HostStmt where
  | wr (r : HostReg) (v : Word)
  | rd (r : HostReg)
  | wb (a : Nat) (bytes : List Byte)
  | ww (a : Nat) (v : Word)
  | wait
  | command (i : Instr)
  deriving DecidableEq, Repr

/-- The aperture offset of LMEM byte `a`, for a < 65536 (R31). -/
def windowOffset (a : Nat) : BitVec 17 := BitVec.ofNat 17 (windowBase + a)

/-- The host accesses `wb` makes: 8-bit writes at a, a+1, … (R103). -/
def byteWrites : Nat → List Byte → List HostOp
  | _, [] => []
  | a, b :: bs => .write .byte (windowOffset a) (b.setWidth 32) :: byteWrites (a + 1) bs

/-- The host operations of a statement (R103, R104). -/
def HostStmt.ops : HostStmt → List HostOp
  | .wr r v => [.write .word r.offset v]
  | .rd r => [.read .word r.offset]
  | .wb a bytes => byteWrites a bytes
  | .ww a v => [.write .word (windowOffset a) v]
  | .wait => [.wait]
  | .command i => [.write .word HostReg.cmd.offset (encode i)]

/-- The registers `wr` may name (R103). -/
def HostReg.writable : HostReg → Bool
  | .cfg | .status | .cmd | .arg0 | .arg1 | .arg2 | .arg3 | .arg4 => true
  | .id | .res0 | .res1 | .res2 | .brPos | .brEnd | .brBits | .brMarker | .brAccHi | .brAccLo | .htValid | .param => false

/-- The statements the host language allows (R103): a writable register, LMEM addresses inside the aperture, an aligned
word, a well-formed command. -/
def HostStmt.wellFormed : HostStmt → Bool
  | .wr r _ => r.writable
  | .rd _ => true
  | .wb a bytes => decide (a + bytes.length ≤ 65536)
  | .ww a _ => decide (a % 4 = 0) && decide (a + 4 ≤ 65536)
  | .wait => true
  | .command i => i.wellFormed

/-- The five layouts the pseudo-instruction `cc` may name (R105). -/
inductive CcLayout where
  | rgb | rgba | rgbx | gray | ycbcr
  deriving DecidableEq, Repr

/-- The command of a layout (R96). -/
def CcLayout.command : CcLayout → Instr
  | .rgb => .ccRgb
  | .rgba => .ccRgba
  | .rgbx => .ccRgbx
  | .gray => .ccGray
  | .ycbcr => .ccYcbcr

/-- The pseudo-instructions of R105. -/
inductive Pseudo where
  | brOpen (a len : Word)
  | brSkip (n : BitVec 6)
  | htLoad (t : BitVec 3) (a : Word)
  | htDumpTo (t : BitVec 3) (a : Word)
  | idct8 (c o st : Word)
  | upsNone (i o w : Word)
  | upsH (i o w : Word)
  | upsV (c nr fr o w : Word)
  | upsHv (c nr fr o w : Word)
  | cc (l : CcLayout) (y cb cr o n : Word)
  | doCommand (i : Instr)
  | clrErr
  | clrDone
  deriving DecidableEq, Repr

/-- The expansions of R105, as its table has them. `clr.err` and `clr.done` are one STATUS write with no `wait` there, though
the sentence before the table (and R285) says every pseudo-instruction ends with one: the table is followed (DESIGN
CHOICE, log 16). -/
def Pseudo.expand : Pseudo → List HostStmt
  | .brOpen a len => [.wr .arg0 a, .wr .arg1 len, .command .brInit, .wait]
  | .brSkip n => [.command (.brGet n), .wait]
  | .htLoad t a => [.wr .arg0 a, .command (.htBuild t), .wait]
  | .htDumpTo t a => [.wr .arg0 a, .command (.htDump t), .wait]
  | .idct8 c o st => [.wr .arg0 c, .wr .arg1 o, .wr .arg2 st, .command .idct, .wait]
  | .upsNone i o w => [.wr .arg0 i, .wr .arg3 o, .wr .arg4 w, .command .upsNone, .wait]
  | .upsH i o w => [.wr .arg0 i, .wr .arg3 o, .wr .arg4 w, .command .upsH, .wait]
  | .upsV c nr fr o w =>
    [.wr .arg0 c, .wr .arg1 nr, .wr .arg2 fr, .wr .arg3 o, .wr .arg4 w, .command .upsV, .wait]
  | .upsHv c nr fr o w =>
    [.wr .arg0 c, .wr .arg1 nr, .wr .arg2 fr, .wr .arg3 o, .wr .arg4 w, .command .upsHv, .wait]
  | .cc l y cb cr o n =>
    [.wr .arg0 y, .wr .arg1 cb, .wr .arg2 cr, .wr .arg3 o, .wr .arg4 n, .command l.command, .wait]
  | .doCommand i => [.command i, .wait]
  | .clrErr => [.wr .status 4]
  | .clrDone => [.wr .status 2]

/-- The spelling of a table operand: dc0 to dc3, ac0 to ac3 (R104). -/
def slotName (t : BitVec 3) : String :=
  (if t.getLsbD 2 then "ac" else "dc") ++ toString (t.extractLsb' 0 2).toNat

/-- The assembler's spelling of a command statement (R104). -/
def asmText : Instr → String
  | .nop => "nop"
  | .coreInit => "core.init"
  | .brInit => "br.init"
  | .brRefill => "br.refill"
  | .brPeek n => "br.peek " ++ toString n.toNat
  | .brGet n => "br.get " ++ toString n.toNat
  | .brHas n => "br.has " ++ toString n.toNat
  | .brSkipMarker => "br.skipm"
  | .htBuild t => "ht.build " ++ slotName t
  | .htDecode t => "ht.dec " ++ slotName t
  | .htDecodeDc t => "ht.dcdec " ++ slotName t
  | .htDecodeAc t => "ht.acdec " ++ slotName t
  | .htDump t => "ht.dump " ++ slotName t
  | .idct => "idct"
  | .upsNone => "ups.none"
  | .upsH => "ups.h"
  | .upsV => "ups.v"
  | .upsHv => "ups.hv"
  | .ccRgb => "cc.rgb"
  | .ccRgba => "cc.rgba"
  | .ccRgbx => "cc.rgbx"
  | .ccGray => "cc.gray"
  | .ccYcbcr => "cc.ycbcr"

/-- `s` with a host program to run next: how a program is loaded from outside (log 3). -/
def State.withProgram (s : State) (p : List HostStmt) : State := { s with script := p.flatMap HostStmt.ops }

end Sys2Proof.Machine
end

