-- ==== Sys2Proof/Safety.lean ====
section
/-! DEFINITION. What claims are stated in: the parameters' ranges, the invariant of the block, the hazards a host must
respect, and the end of a host program (spec 00_scope R10 to R12; 10_state R52, R53; 70_reset_and_hazards R285, R291). -/

namespace Sys2Proof.Machine

/-- The ranges of the implementation parameters (R10, R11). -/
structure ParamsOk (p : Params) : Prop where
  log2_lo : 12 ≤ p.lmemLog2
  log2_hi : p.lmemLog2 ≤ 16
  fast_lo : 1 ≤ p.fastBits
  fast_hi : p.fastBits ≤ 16

/-- The bit-reader invariants of R52, for an LMEM of `size` bytes. -/
structure BrOk (b : BitReader) (size : Nat) : Prop where
  /-- R52 (1). -/
  npad_le : b.npad ≤ b.nbits
  /-- R52 (1). -/
  nbits_le : b.nbits ≤ 64
  /-- R52 (2) and (3): the bits below the valid ones are zero, and so are the pad bits, the last npad valid ones. -/
  low_zero : b.acc.toNat % 2 ^ (64 - (b.nbits - b.npad)) = 0
  /-- R52 (4). -/
  pos_le : b.pos ≤ b.endPos
  /-- R52 (4). -/
  end_le : b.endPos ≤ size
  /-- R52 (5). -/
  mfound_ended : b.mfound = true → b.ended = true
  /-- Pad bits come only after the end of the stream (R125). -/
  pad_ended : 0 < b.npad → b.ended = true

/-- What a valid slot holds (R53, R153 to R155, R159). -/
structure SlotOk (h : HtSlot) : Prop where
  count_len : h.count.length = 16
  nsyms_eq : h.nsyms = countSum h.count
  sym_len : h.sym.length = h.nsyms
  nsyms_lo : 1 ≤ h.nsyms
  nsyms_hi : h.nsyms ≤ 256
  kraft_le : kraft h.count ≤ 65536

/-- The invariant of the block: parameters in range, the bit reader as R52 says, every valid slot a built table, LMEM in
its canonical form and inside LMEM_SIZE, DONE = 0 while a command is in flight (R36). -/
structure Inv (s : State) : Prop where
  params : ParamsOk s.params
  br : BrOk s.br s.params.lmemSize
  slots : ∀ t, (s.slot t).valid = true → SlotOk (s.slot t)
  lmem_wf : s.lmem.wf
  lmem_below : s.lmem.below s.params.lmemSize
  busy_done : s.busy = true → s.done = false

/-! ### LMEM and registers as claims read them -/

/-- LMEM bytes a to a+n-1 have all been written (R60, R283). -/
abbrev Written (m : Memory) (a n : Nat) : Prop := ∀ j, j < n → (m.read? (a + j)).isSome = true

/-- The bytes of LMEM from `a` on are `bs`. -/
abbrev Holds (m : Memory) (a : Nat) (bs : List Byte) : Prop := ∀ j, j < bs.length → m.read? (a + j) = bs[j]?

/-- The bytes of LMEM from `a` on are the 32-bit words `ws`, each little-endian (R71). -/
abbrev HoldsWords (m : Memory) (a : Nat) (ws : List Word) : Prop :=
  ∀ j, j < ws.length → ∀ k, k < 4 → m.read? (a + 4 * j + k) = some ((ws.getD j 0).extractLsb' (8 * k) 8)

/-- The LMEM byte at `a` is written and its value is the number `v`. -/
def ByteIs (m : Memory) (a v : Nat) : Prop := ∃ b, m.read? a = some b ∧ b.toNat = v

/-- A host read of `size` at the offset, made in `s`, returns `v`. -/
def Reads (s : State) (size : AccessSize) (off : BitVec 17) (v : Word) : Prop :=
  ∃ t, hostRead size off s = .next t ∧ t.readLog = s.readLog ++ [v]

/-- `s` after a command that completed without error, but for what the command wrote (R36). -/
def finished (s : State) : State := { s with busy := false, done := true }

/-- `s` after a command that ended in the error `k`, ERROPC `opc`: the first error stays (R253, R254). -/
def failed (s : State) (opc : BitVec 8) (k : ErrKind) : State :=
  { s with busy := false, err := s.err.or (some { kind := k, opc := opc }) }

/-- Is `x` an address the command stores to when it completes in `s` (R77, R191, R202)? -/
def outputByte (i : Instr) (s : State) (x : Nat) : Prop :=
  match i with
  | .htDump _ => s.opnd0 ≤ x ∧ x < s.opnd0 + 2 * 2 ^ s.params.fastBits
  | .idct => ∃ r, r < 8 ∧ s.opnd1 + r * s.opnd2 ≤ x ∧ x < s.opnd1 + r * s.opnd2 + 8
  | .upsNone => s.opnd3 ≤ x ∧ x < s.opnd3 + s.opnd4
  | .upsH => s.opnd3 ≤ x ∧ x < s.opnd3 + 2 * s.opnd4
  | .upsV => s.opnd3 ≤ x ∧ x < s.opnd3 + 2 * s.opnd4
  | .upsHv => s.opnd3 ≤ x ∧ x < s.opnd3 + 4 * s.opnd4
  | .ccRgb => s.opnd3 ≤ x ∧ x < s.opnd3 + 3 * s.opnd4
  | .ccRgba => s.opnd3 ≤ x ∧ x < s.opnd3 + 4 * s.opnd4
  | .ccRgbx => s.opnd3 ≤ x ∧ x < s.opnd3 + 4 * s.opnd4
  | .ccGray => s.opnd3 ≤ x ∧ x < s.opnd3 + s.opnd4
  | .ccYcbcr => s.opnd3 ≤ x ∧ x < s.opnd3 + 3 * s.opnd4
  | .nop | .coreInit | .brInit | .brRefill | .brPeek _ | .brGet _ | .brHas _ | .brSkipMarker
  | .htBuild _ | .htDecode _ | .htDecodeDc _ | .htDecodeAc _ => False

/-! ### The stream the bit reader stands in -/

/-- The bits of a byte, most significant first (R89). -/
def byteBits (v : Byte) : List Bool := (List.range 8).map (fun j => v.getLsbD (7 - j))

/-- The data bytes of the segment from `p` to `e`, stuffing removed, up to the first marker, the end, or a lone
trailing 0xFF (R120, R122 to R124), with a bound on their number. -/
def dataBytes (m : Memory) (e : Nat) : Nat → Nat → List Byte
  | 0, _ => []
  | k + 1, p =>
    if e ≤ p then []
    else match m.read? p with
      | none => []
      | some v =>
        if v ≠ 0xFF then v :: dataBytes m e k (p + 1)
        else if e ≤ p + 1 then []
        else if m.read? (p + 1) = some 0x00 then 0xFF :: dataBytes m e k (p + 2)
        else []

/-- The data bytes `ds` stand in the segment that ends at `e`, from `p` up to `q`: an ordinary byte in one place, a data
byte 0xFF in two, with its stuffed 0x00 (R121, R122). -/
def DataAhead (m : Memory) (e q : Nat) : Nat → List Byte → Prop
  | p, [] => p = q
  | p, d :: ds =>
    if d ≠ 0xFF then p < e ∧ m.read? p = some d ∧ DataAhead m e q (p + 1) ds
    else p + 1 < e ∧ m.read? p = some 0xFF ∧ m.read? (p + 1) = some 0x00 ∧ DataAhead m e q (p + 2) ds

/-- Bytes as an unsigned number, first byte most significant. -/
def bytesValue (ds : List Byte) : Nat := ds.foldl (fun v d => 256 * v + d.toNat) 0

/-- The stream bits of the segment from `p` to `e`. -/
def streamBits (m : Memory) (p e : Nat) : List Bool := (dataBytes m e (e - p) p).flatMap byteBits

/-- The first `n` bits of the accumulator; the next unread bit is acc[63] (R51). -/
def accBits (acc : BitVec 64) (n : Nat) : List Bool := (List.range n).map (fun j => acc.getLsbD (63 - j))

/-- The data bits the reader has still to deliver: the buffered ones, then the rest of the segment unless the reader has
met its end. Pad bits are none of them. -/
def bitsLeft (m : Memory) (b : BitReader) : List Bool :=
  accBits b.acc (b.nbits - b.npad) ++ (if b.ended then [] else streamBits m b.pos b.endPos)

/-- The bits left in `s`, followed by zero bits (R125): more than any one command takes. -/
def paddedBits (s : State) : List Bool := bitsLeft s.lmem s.br ++ List.replicate 64 false

/-- The reader `b` with its next `n` bits taken, pad bits after the data bits (R126). -/
def afterBits (b : BitReader) (n : Nat) : BitReader :=
  let real := b.nbits - b.npad
  { b with acc := BitVec.ofNat 64 (b.acc.toNat * 2 ^ n), nbits := b.nbits - n, npad := b.npad - (n - real),
           overrun := b.overrun || decide (real < n) }

/-- Bits as an unsigned number, first bit most significant (R126). -/
def bitsValue (bs : List Bool) : Nat := bs.foldl (fun v b => 2 * v + b.toNat) 0

/-! ### The reference kernel over integers -/

/-- `wrap32` of R16. -/
def wrap32 (v : Int) : Int := v.bmod (2 ^ 32)

/-- One pass over eight integers, as R197 writes the butterfly and R198 and R199 its outputs: `wrap` is put on every
addition, subtraction and multiplication, `bias` is added to x0 to x3, and `>> sh` is floor division (R17). With `wrap32`
it is the 32-bit computation of R196, with `id` the unbounded one of R200. -/
def rulePass (wrap : Int → Int) (bias : Int) (sh : Nat) (s0 s1 s2 s3 s4 s5 s6 s7 : Int) : List Int :=
  let p1 := wrap (wrap (s2 + s6) * 2217)
  let e2 := wrap (p1 + wrap (s6 * (-7567)))
  let e3 := wrap (p1 + wrap (s2 * 3135))
  let e0 := wrap (wrap (s0 + s4) * 4096)
  let e1 := wrap (wrap (s0 - s4) * 4096)
  let x0 := wrap (wrap (e0 + e3) + bias)
  let x3 := wrap (wrap (e0 - e3) + bias)
  let x1 := wrap (wrap (e1 + e2) + bias)
  let x2 := wrap (wrap (e1 - e2) + bias)
  let q3 := wrap (s7 + s3)
  let q4 := wrap (s5 + s1)
  let q5 := wrap (wrap (q3 + q4) * 4816)
  let r1 := wrap (q5 + wrap (wrap (s7 + s1) * (-3685)))
  let r2 := wrap (q5 + wrap (wrap (s5 + s3) * (-10497)))
  let r3 := wrap (q3 * (-8034))
  let r4 := wrap (q4 * (-1597))
  let t3 := wrap (wrap (wrap (s1 * 6149) + r1) + r4)
  let t2 := wrap (wrap (wrap (s3 * 12586) + r2) + r3)
  let t1 := wrap (wrap (wrap (s5 * 8410) + r2) + r4)
  let t0 := wrap (wrap (wrap (s7 * 1223) + r1) + r3)
  [wrap (x0 + t3) / 2 ^ sh, wrap (x1 + t2) / 2 ^ sh, wrap (x2 + t1) / 2 ^ sh, wrap (x3 + t0) / 2 ^ sh,
   wrap (x3 - t0) / 2 ^ sh, wrap (x2 - t1) / 2 ^ sh, wrap (x1 - t2) / 2 ^ sh, wrap (x0 - t3) / 2 ^ sh]

/-- The kernel of R198 and R199 over integers: every column, then every row, then the clamp. -/
def ruleKernel (wrap : Int → Int) (c : List Int) : List Int :=
  let column := fun i => rulePass wrap 512 10 (c.getD i 0) (c.getD (8 + i) 0) (c.getD (16 + i) 0) (c.getD (24 + i) 0)
    (c.getD (32 + i) 0) (c.getD (40 + i) 0) (c.getD (48 + i) 0) (c.getD (56 + i) 0)
  let v := fun i r => (column i).getD r 0
  (List.range 8).flatMap (fun r =>
    (rulePass wrap 16842752 17 (v 0 r) (v 1 r) (v 2 r) (v 3 r) (v 4 r) (v 5 r) (v 6 r) (v 7 r)).map
      (fun x => max 0 (min 255 x)))

/-- The bits of a codeword (R156). -/
def Codeword.bits (w : Codeword) : List Bool := (List.range w.len).map (fun j => w.code.testBit (w.len - 1 - j))

/-- The (RES0, RES1) pairs of `n` HT_DECODE commands one after another, if each completes without error (R169). -/
def decodeRun (t : BitVec 3) : Nat → State → Option (List (Word × Word))
  | 0, _ => some []
  | n + 1, s =>
    match exec (.htDecode t) s with
    | .next u => if u.err.isSome then none else (decodeRun t n u).map (fun l => (u.res.res0, u.res.res1) :: l)
    | .fault _ => none
    | .refused _ => none

/-! ### Host programs -/

/-- Does the host operation respect the hazards of R285 in this state: while BUSY = 1, no access to the LMEM window, no
write to CMD, no read of an open register? -/
def respectsHazards (s : State) : HostOp → Bool
  | .write _ off _ => !s.busy || !(inWindow off || off == HostReg.cmd.offset)
  | .read _ off => !s.busy || !(inWindow off || openWhileBusy off.toNat)
  | .wait => true
  | .assertReset => true
  | .releaseReset => true

/-- The host program has ended and the block is idle (R291). -/
def Ended (s : State) : Prop := s.script = [] ∧ s.busy = false

/-- A step from this state neither faults nor is refused. -/
def SafeStep (s : State) : Prop := ∃ t, step s = .next t

end Sys2Proof.Machine
end

