-- ==== Sys2Proof/Certificates/Slice0/Obligations.lean ====
section
/-! DEFINITION. The statements for the provers: what the numbered rules of the spec say the machine does. -/

open Sys2Proof Sys2Proof.Machine

/-! ### Encoding (30_encoding) -/

/-- Decoding the word a well-formed command assembles to gives the command back (R99, R104). -/
def Obligations.DecodeOfEncodeGivesTheCommand : Prop :=
  ∀ i : Instr, i.wellFormed = true → decode (encode i) = .ok i

/-- A word that decodes is the word its command assembles to, and the command is well formed: no bit of a command word
is ignored (R92 to R95, R99, R104). -/
def Obligations.DecodableWordIsTheEncoding : Prop :=
  ∀ (w : Word) (i : Instr), decode w = .ok i → i.wellFormed = true ∧ encode i = w

/-- The three worked words of R104. -/
def Obligations.WorkedWordsDecode : Prop :=
  decode 0x00000513 = .ok (.brGet 5) ∧ decode 0x00000423 = .ok (.htDecodeAc 4) ∧
    decode 0x00000120 = .ok (.htBuild 1)

/-- R97: in the core's step an unassigned opcode raises ILLEGAL_COMMAND(0) and does nothing else. -/
def Obligations.UnassignedOpcodeIsIllegalCommandZero : Prop :=
  ∀ s : State, s.busy = true → s.inReset = false → s.delay = 0 →
    let opc := s.pending.toNat % 256
    ((0x02 ≤ opc ∧ opc ≤ 0x0F) ∨ (0x16 ≤ opc ∧ opc ≤ 0x1F) ∨ (0x25 ≤ opc ∧ opc ≤ 0x2F) ∨
      (0x31 ≤ opc ∧ opc ≤ 0x3F) ∨ (0x44 ≤ opc ∧ opc ≤ 0x4F) ∨ 0x55 ≤ opc) →
    step s = .next (failed s (BitVec.ofNat 8 opc) .illegalOpcode) ∧
      (ErrKind.illegalOpcode.code = 0x01 ∧ ErrKind.illegalOpcode.detail = 0)

/-- R95: a reserved bit of the opcode's format that is not zero raises ILLEGAL_COMMAND(1), before any other check: no
hypothesis is made on the bit count, the operands or the rest of the state. -/
def Obligations.ReservedBitsAreIllegalCommandOne : Prop :=
  ∀ s : State, s.busy = true → s.inReset = false → s.delay = 0 →
    let w := s.pending.toNat
    let opc := w % 256
    ((opc ∈ [0x20, 0x21, 0x22, 0x23, 0x24] ∧ w / 2 ^ 11 ≠ 0) ∨
      (opc ∈ [0x12, 0x13, 0x14] ∧ w / 2 ^ 14 ≠ 0) ∨
      (opc ∈ [0x00, 0x01, 0x10, 0x11, 0x15, 0x30, 0x40, 0x41, 0x42, 0x43, 0x50, 0x51, 0x52, 0x53, 0x54] ∧
        w / 2 ^ 8 ≠ 0)) →
    step s = .next (failed s (BitVec.ofNat 8 opc) .illegalReserved) ∧
      (ErrKind.illegalReserved.code = 0x01 ∧ ErrKind.illegalReserved.detail = 1)

/-- R101: with the reserved bits zero, the bit count of BR_PEEK, BR_GET and BR_HAS is w[13:8] zero-extended when at most
32, and 33 to 63 raise ILLEGAL_COMMAND(2). -/
def Obligations.BitCountsUpToThirtyTwo : Prop :=
  ∀ (s : State) (n : BitVec 6) (opc : BitVec 8) (make : BitVec 6 → Instr),
    (opc, make) ∈ [((0x12 : BitVec 8), Instr.brPeek), (0x13, Instr.brGet), (0x14, Instr.brHas)] →
    s.busy = true → s.inReset = false → s.delay = 0 → s.pending = 0#18 ++ (n ++ opc) →
    (n.toNat ≤ 32 → decode s.pending = .ok (make n) ∧ step s = exec (make n) s) ∧
    (33 ≤ n.toNat → step s = .next (failed s opc .illegalCount) ∧
      (ErrKind.illegalCount.code = 0x01 ∧ ErrKind.illegalCount.detail = 2))

/-! ### The step, acceptance and completion (10_state, 60_exceptions, 70_reset_and_hazards) -/

/-- The step runs the command that the pending word decodes to. -/
def Obligations.StepRunsThePendingCommand : Prop :=
  ∀ (s : State) (i : Instr), s.busy = true → s.inReset = false → s.delay = 0 → decode s.pending = .ok i →
    step s = exec i s

/-- While the host waits, an accepted command completes after `delay` polls, whatever the delay is, and its core step
runs on the state of its acceptance: only the counter of free values has moved (R289). The countdown `delay` is the
model's choice (log 4). -/
def Obligations.WaitingHostSeesTheCommandComplete : Prop :=
  ∀ (s : State) (i : Instr) (rest : List HostOp), s.busy = true → s.inReset = false →
    s.script = .wait :: rest → decode s.pending = .ok i →
    Sys2Proof.core.run (s.delay + 1) s = exec i { s with delay := 0, freeCtr := s.freeCtr + s.delay }

/-- Acceptance: a CMD write while BUSY = 0, with no error recorded or with NOP or CORE_INIT, latches the word and the
snapshots, sets BUSY and clears DONE; only the delay to completion is left open. -/
def Obligations.AcceptanceLatchesTheCommand : Prop :=
  ∀ (s : State) (w : Word) (rest : List HostOp), s.inReset = false → s.busy = false →
    s.script = .write .word 0x0C w :: rest →
    (s.err = none ∨ w.toNat % 256 = 0x00 ∨ w.toNat % 256 = 0x01) →
    ∃ d, step s = .next { s with
      script := rest, cmd := w, pending := w, snapArgs := s.args, snapCfg := s.cfg, busy := true, done := false,
      delay := d, freeCtr := s.freeCtr + 1 }

/-- R255: while an error is recorded, a CMD write of another opcode than NOP and CORE_INIT changes nothing but the value
CMD reads back, whether the block is idle or a command is still in flight. The host's program moves on, and nothing is
said of the model's own countdown `delay`. -/
def Obligations.CommandsAreDiscardedInError : Prop :=
  ∀ (s : State) (w : Word) (rest : List HostOp), s.inReset = false → s.busy = false ∨ s.delay ≠ 0 →
    s.script = .write .word 0x0C w :: rest → s.err.isSome = true →
    w.toNat % 256 ≠ 0x00 → w.toNat % 256 ≠ 0x01 →
    ∃ t, step s = .next t ∧ t = { s with script := rest, cmd := w, delay := t.delay }

/-- A CMD write while BUSY = 1 is discarded and records CMD_OVERRUN unless an error is already recorded; the command in
flight keeps its word and its snapshots (R256). The countdown `delay` is the model's choice (log 4). -/
def Obligations.CommandWriteWhileBusyIsAnOverrun : Prop :=
  ∀ (s : State) (w : Word) (rest : List HostOp), s.inReset = false → s.busy = true → s.delay ≠ 0 →
    s.script = .write .word 0x0C w :: rest →
    step s = .next { s with
      script := rest, cmd := w, delay := s.delay - 1,
      err := s.err.or (some { kind := .cmdOverrun, opc := BitVec.ofNat 8 (w.toNat % 256) }) } ∧
    (ErrKind.cmdOverrun.code = 0x07 ∧ ErrKind.cmdOverrun.detail = 0)

/-! ### Registers and the LMEM window (10_state, 20_memory) -/

/-- R35, R40, R260: what STATUS reads, bit by bit, and the two effects of a write. Bits [7:5] read their flags while
BUSY = 0. -/
def Obligations.StatusReadsAndClears : Prop :=
  (∀ s : State, s.inReset = false → ∃ v, Reads s .word 0x08 v ∧
    v.getLsbD 0 = s.busy ∧ v.getLsbD 1 = s.done ∧ v.getLsbD 2 = s.err.isSome ∧
    v.getLsbD 3 = ((s.done && s.cfg.ieDone) || (s.err.isSome && s.cfg.ieErr)) ∧
    v.getLsbD 4 = s.backend ∧
    (s.busy = false → v.getLsbD 5 = s.br.ended ∧ v.getLsbD 6 = s.br.mfound ∧ v.getLsbD 7 = s.br.overrun) ∧
    v.extractLsb' 20 4 = 0 ∧
    (s.err = none → v.extractLsb' 8 8 = 0 ∧ v.extractLsb' 16 4 = 0 ∧ v.extractLsb' 24 8 = 0) ∧
    (∀ e, s.err = some e →
      v.extractLsb' 8 8 = e.kind.code ∧ v.extractLsb' 16 4 = e.kind.detail ∧ v.extractLsb' 24 8 = e.opc)) ∧
  (∀ (s : State) (w : Word), s.inReset = false →
    hostWrite .word 0x08 w s = .next { s with
      done := s.done && !w.getLsbD 1, err := if w.getLsbD 2 then none else s.err }) ∧
  State.reset.status = 0

/-- R33, R42: CFG keeps its five fields and reads its reserved bits as zero; ARG0 to ARG4 keep any value written; a write
changes nothing else. -/
def Obligations.CfgAndArgHoldWhatIsWritten : Prop :=
  ∀ (s : State) (w : Word), s.inReset = false →
    (∃ t, hostWrite .word 0x04 w s = .next t ∧ t = { s with cfg := t.cfg } ∧
      t.cfg.strict = w.getLsbD 0 ∧ t.cfg.forceScalar = w.getLsbD 1 ∧ t.cfg.backendReq = w.getLsbD 2 ∧
      t.cfg.ieDone = w.getLsbD 4 ∧ t.cfg.ieErr = w.getLsbD 5 ∧ Reads t .word 0x04 (w &&& 0x37)) ∧
    (∀ k, k < 5 → ∃ t, hostWrite .word (BitVec.ofNat 17 (0x10 + 4 * k)) w s = .next t ∧
      t = { s with args := t.args } ∧
      (∀ j, j < 5 → Reads t .word (BitVec.ofNat 17 (0x10 + 4 * j))
        (if j = k then w else [s.args.arg0, s.args.arg1, s.args.arg2, s.args.arg3, s.args.arg4].getD j 0)))

/-- R41, R43 to R48: what a host reads of the state it cannot write directly. CMD reads the last word written, accepted
or discarded, and that in every state; while BUSY = 0, RES0 to RES2 read the results, and the views read the bit reader
and the table slots. -/
def Obligations.ViewsShowTheHiddenState : Prop :=
  (∀ (s : State) (w : Word), s.inReset = false →
    Reads s .word 0x0C s.cmd ∧ ∃ t, hostWrite .word 0x0C w s = .next t ∧ Reads t .word 0x0C w) ∧
  ∀ s : State, s.inReset = false → s.busy = false →
    Reads s .word 0x24 s.res.res0 ∧ Reads s .word 0x28 s.res.res1 ∧ Reads s .word 0x2C s.res.res2 ∧
    Reads s .word 0x30 (BitVec.ofNat 32 s.br.pos) ∧ Reads s .word 0x34 (BitVec.ofNat 32 s.br.endPos) ∧
    (s.br.npad ≤ s.br.nbits → s.br.nbits ≤ 64 → ∃ v : Word, Reads s .word 0x38 v ∧
      v.toNat = s.br.nbits + 2 ^ 8 * s.br.npad + 2 ^ 16 * (s.br.nbits - s.br.npad)) ∧
    Reads s .word 0x3C (BitVec.ofNat 32 s.br.marker.toNat) ∧
    Reads s .word 0x40 (BitVec.ofNat 32 (s.br.acc.toNat / 2 ^ 32)) ∧
    Reads s .word 0x44 (BitVec.ofNat 32 (s.br.acc.toNat % 2 ^ 32)) ∧
    (∃ v, Reads s .word 0x48 v ∧ (∀ t : BitVec 3, v.getLsbD t.toNat = (s.slot t).valid) ∧ v.extractLsb' 8 24 = 0)

/-- R32, R49, R50: ID and PARAM, reserved offsets read zero, and a write to a read-only or reserved register has no
effect. -/
def Obligations.ReadOnlyAndReservedRegisters : Prop :=
  ∀ s : State, s.inReset = false →
    Reads s .word 0x00 0x5A4A4401 ∧
    (ParamsOk s.params → ∃ v, Reads s .word 0x4C v ∧
      (v.extractLsb' 0 5).toNat = s.params.lmemLog2 ∧ (v.extractLsb' 5 5).toNat = s.params.fastBits ∧
      v.getLsbD 10 = s.params.parAvailable ∧ v.extractLsb' 11 5 = 0 ∧ v.extractLsb' 16 8 = 1 ∧
      v.extractLsb' 24 8 = 0) ∧
    (∀ off : BitVec 17, 0x50 ≤ off.toNat → off.toNat < 0x10000 → off.toNat % 4 = 0 → Reads s .word off 0) ∧
    (∀ (off : BitVec 17) (w : Word), off.toNat < 0x10000 → off.toNat % 4 = 0 →
      off.toNat ∉ [0x04, 0x08, 0x0C, 0x10, 0x14, 0x18, 0x1C, 0x20] → hostWrite .word off w s = .next s)

/-- R75, R76, R83: which host accesses are refused, and that every other one completes. Three points are the model's own
reading (log 8): the refusal reaches the reserved offsets 0x100 to 0xFFFF; while BUSY = 1 it reaches window addresses from
LMEM_SIZE up; and a misaligned window access while BUSY = 1 is refused as misaligned. -/
def Obligations.RefusedHostAccesses : Prop :=
  ∀ (s : State) (size : AccessSize) (off : BitVec 17) (w : Word), s.inReset = false →
    (off.toNat < 0x10000 → size ≠ .word ∨ off.toNat % 4 ≠ 0 →
      hostWrite size off w s = .refused .registerAccess ∧ hostRead size off s = .refused .registerAccess) ∧
    (0x10000 ≤ off.toNat → off.toNat % size.bytes ≠ 0 →
      hostWrite size off w s = .refused .misalignedWindow ∧ hostRead size off s = .refused .misalignedWindow) ∧
    (0x10000 ≤ off.toNat → off.toNat % size.bytes = 0 → s.busy = true →
      hostWrite size off w s = .refused .windowWhileBusy ∧ hostRead size off s = .refused .windowWhileBusy) ∧
    ((off.toNat < 0x10000 ∧ size = .word ∧ off.toNat % 4 = 0) ∨
        (0x10000 ≤ off.toNat ∧ off.toNat % size.bytes = 0 ∧ s.busy = false) →
      (∃ t, hostWrite size off w s = .next t) ∧ ∃ t, hostRead size off s = .next t)

/-- R71, R76: the LMEM window. A naturally aligned write stores its bytes little-endian and nothing else, and reads back;
from LMEM_SIZE up a write is ignored and a read gives 0. -/
def Obligations.WindowStoresLittleEndian : Prop :=
  ∀ (s : State) (size : AccessSize) (off : BitVec 17) (w : Word), s.inReset = false → s.busy = false →
    ParamsOk s.params → 0x10000 ≤ off.toNat → off.toNat % size.bytes = 0 →
    let a := off.toNat - 0x10000
    (a < s.params.lmemSize → ∃ t, hostWrite size off w s = .next t ∧
      t = { s with lmem := t.lmem } ∧
      (∀ k, k < size.bytes → t.lmem.read? (a + k) = some (w.extractLsb' (8 * k) 8)) ∧
      (∀ x, x < a ∨ a + size.bytes ≤ x → t.lmem.read? x = s.lmem.read? x) ∧
      Reads t size off (BitVec.ofNat 32 (w.toNat % 2 ^ (8 * size.bytes)))) ∧
    (s.params.lmemSize ≤ a → hostWrite size off w s = .next s ∧ Reads s size off 0)

/-- A host read has no side effect: only the host's log of values and the model's counter of free values move (R79). -/
def Obligations.HostReadsHaveNoSideEffect : Prop :=
  ∀ (s t : State) (size : AccessSize) (off : BitVec 17), hostRead size off s = .next t →
    ∃ v, t = { s with readLog := s.readLog ++ [v], freeCtr := t.freeCtr }

/-! ### Reset and the invariant (10_state, 70_reset_and_hazards) -/

/-- R59, R60, R281: the values the spec gives after reset, for every choice of the implementation parameters. -/
def Obligations.ResetLeavesTheBlockQuiet : Prop :=
  ∀ p : Params, let s := State.resetWith p
    s.params = p ∧ regValue s 0x00 = 0x5A4A4401 ∧ regValue s 0x4C = paramWord p ∧ s.cfg.toWord = 0 ∧ s.status = 0 ∧ s.cmd = 0 ∧
    s.args = { arg0 := 0, arg1 := 0, arg2 := 0, arg3 := 0, arg4 := 0 } ∧
    s.res = { res0 := 0, res1 := 0, res2 := 0 } ∧
    s.br.pos = 0 ∧ s.br.endPos = 0 ∧ s.br.acc = 0 ∧ s.br.nbits = 0 ∧ s.br.npad = 0 ∧ s.br.ended = false ∧
    s.br.mfound = false ∧ s.br.overrun = false ∧ s.br.marker = 0 ∧
    (∀ t, (s.slot t).valid = false) ∧ s.backend = false ∧ (∀ a, s.lmem.read? a = none)

/-- The invariant holds after reset, for parameters in their ranges. -/
def Obligations.InvariantHoldsAtReset : Prop :=
  Inv State.reset ∧ ∀ p : Params, ParamsOk p → Inv (State.resetWith p)

/-- R52 and the rest of the invariant: every step keeps it, the host's and the core's. -/
def Obligations.EveryStepKeepsTheInvariant : Prop :=
  ∀ s t : State, Inv s → step s = .next t → Inv t

/-- While the reset input is asserted host writes have no effect and the core takes no step; releasing it leaves the reset
state, whatever was in flight (R280). That the platform's two reset events stand in the host's program, and that the
block takes its reset state already when the input is asserted, are the model's choices (log 9). -/
def Obligations.ResetInputAbandonsTheCommand : Prop :=
  ∀ (s : State) (rest : List HostOp),
    (s.script = .assertReset :: rest → coreReady s = false →
      step s = .next { State.resetWith s.params with
        script := rest, readLog := s.readLog, freeCtr := s.freeCtr, inReset := true }) ∧
    (s.inReset = true →
      (∀ size off w, s.script = .write size off w :: rest →
        step s = .next { s with script := rest, delay := s.delay - 1 }) ∧
      (∀ size off, s.script = .read size off :: rest → ∃ v, step s = .next { s with
        script := rest, delay := s.delay - 1, readLog := s.readLog ++ [v], freeCtr := s.freeCtr + 1 }) ∧
      (s.script = .releaseReset :: rest → step s = .next { State.resetWith s.params with
        script := rest, readLog := s.readLog, freeCtr := s.freeCtr }))

/-! ### Errors (60_exceptions) -/

/-- R253: the core's step on a command that was accepted (DONE = 0) clears BUSY, and it either sets DONE or is an error
whose only effects are on STATUS, with the opcode byte of the command word as ERROPC. -/
def Obligations.ErrorsArePrecise : Prop :=
  ∀ s t : State, s.done = false → coreStep s = .next t →
    t.busy = false ∧ (t.done = true ∨
      ∃ k, t = failed s (BitVec.ofNat 8 (s.pending.toNat % 256)) k)

/-- R38: a recorded error keeps its code, detail and opcode through every step, but for the three ways of clearing it. -/
def Obligations.FirstErrorIsSticky : Prop :=
  ∀ (s t : State) (e : ErrRecord), s.err = some e → step s = .next t →
    t.err = some e ∨
    (t.err = none ∧
      ((coreReady s = true ∧ decode s.pending = .ok .coreInit) ∨
       (coreReady s = false ∧ ∃ w rest, s.script = .write .word 0x08 w :: rest ∧ w.getLsbD 2 = true) ∨
       (coreReady s = false ∧ ∃ rest, s.script = .assertReset :: rest ∨ s.script = .releaseReset :: rest)))

/-- A command either reaches a next state or meets an unwritten byte of LMEM, and then the fault names the command and
such a byte; no command is ever refused (R60, R250). -/
def Obligations.OnlyAnUnwrittenByteStopsACommand : Prop :=
  ∀ (i : Instr) (s : State),
    (∃ t, exec i s = .next t) ∨
    ∃ a, exec i s = .fault (.unwrittenByte i a) ∧ s.lmem.read? a = none

/-- R72: for every command with LMEM regions that do not depend on what it reads, a region that passes LMEM_SIZE, over
unbounded integers, is ADDRESS_FAULT(0) and changes nothing else. -/
def Obligations.RegionsOutsideLmemAreAddressFaults : Prop :=
  ∀ (s : State) (i : Instr) (regions : List (Nat × Nat)) (r : Nat × Nat),
    let a0 := s.snapArgs.arg0.toNat
    let a1 := s.snapArgs.arg1.toNat
    let a2 := s.snapArgs.arg2.toNat
    let a3 := s.snapArgs.arg3.toNat
    let a4 := s.snapArgs.arg4.toNat
    (i, regions) ∈ [
      (Instr.brInit, [(a0, a1)]),
      (.idct, [(a0, 256), (a1 + 7 * a2, 8)]),
      (.upsNone, [(a0, a4), (a3, a4)]),
      (.upsH, [(a0, a4), (a3, 2 * a4)]),
      (.upsV, [(a0, a4), (a1, a4), (a2, a4), (a3, 2 * a4)]),
      (.upsHv, [(a0, a4), (a1, a4), (a2, a4), (a3, 4 * a4)]),
      (.ccRgb, [(a0, a4), (a1, a4), (a2, a4), (a3, 3 * a4)]),
      (.ccRgba, [(a0, a4), (a1, a4), (a2, a4), (a3, 4 * a4)]),
      (.ccRgbx, [(a0, a4), (a1, a4), (a2, a4), (a3, 4 * a4)]),
      (.ccGray, [(a0, a4), (a3, a4)]),
      (.ccYcbcr, [(a0, a4), (a1, a4), (a2, a4), (a3, 3 * a4)])] →
    r ∈ regions → s.params.lmemSize < r.1 + r.2 →
    exec i s = .next (failed s i.opcode .addressFault) ∧
      (ErrKind.addressFault.code = 0x02 ∧ ErrKind.addressFault.detail = 0)

/-! ### Frames and independence -/

/-- R135: which commands change the bit reader, and what BR_GET changes of it. -/
def Obligations.WhoChangesTheBitReader : Prop :=
  ∀ (i : Instr) (s t : State), exec i s = .next t →
    ((∃ n, i = .brPeek n ∨ i = .brHas n) → t.br = s.br) ∧
    ((∃ n, i = .brGet n) →
      t.br = { s.br with acc := t.br.acc, nbits := t.br.nbits, npad := t.br.npad, overrun := t.br.overrun }) ∧
    (t.br.pos ≠ s.br.pos →
      i ∈ [.brInit, .brRefill, .brSkipMarker, .coreInit] ∨
        ∃ x, i = .htDecode x ∨ i = .htDecodeDc x ∨ i = .htDecodeAc x)

/-- The register frame of every command: nothing but BUSY, DONE, the error record, and what its rule names; no command
writes CMD, CFG, an ARG register, a parameter or the snapshot (R42, R43, R57, R106, R150). -/
def Obligations.CommandsChangeOnlyWhatTheyName : Prop :=
  ∀ (i : Instr) (s t : State), exec i s = .next t →
    t = { s with
      busy := t.busy, done := t.done, err := t.err, backend := t.backend, res := t.res, br := t.br, ht := t.ht,
      lmem := t.lmem } ∧
    (t.backend ≠ s.backend → i = .coreInit) ∧
    (t.res.res0 ≠ s.res.res0 → i ∈ [.coreInit, .brSkipMarker] ∨ (∃ n, i = .brPeek n ∨ i = .brGet n ∨ i = .brHas n) ∨
      ∃ x, i = .htBuild x ∨ i = .htDecode x ∨ i = .htDecodeDc x ∨ i = .htDecodeAc x ∨ i = .htDump x) ∧
    (t.res.res1 ≠ s.res.res1 → i ∈ [.coreInit, .brSkipMarker] ∨
      ∃ x, i = .htBuild x ∨ i = .htDecode x ∨ i = .htDecodeDc x ∨ i = .htDecodeAc x) ∧
    (t.res.res2 ≠ s.res.res2 → i = .coreInit ∨ ∃ x, i = .htDecodeAc x) ∧
    (∀ x, t.slot x ≠ s.slot x → i = .coreInit ∨ i = .htBuild x) ∧
    (t.br ≠ s.br → i ∈ [.coreInit, .brInit, .brRefill, .brSkipMarker] ∨ (∃ n, i = .brGet n) ∨
      ∃ x, i = .htDecode x ∨ i = .htDecodeDc x ∨ i = .htDecodeAc x) ∧
    (t.lmem ≠ s.lmem → i ∈ [.idct, .upsNone, .upsH, .upsV, .upsHv, .ccRgb, .ccRgba, .ccRgbx, .ccGray, .ccYcbcr] ∨
      ∃ x, i = .htDump x)

/-- The LMEM frame of every command: an address outside the bytes it stores to, computed from the operands its rule
reads, reads as before (R77, R81). -/
def Obligations.CommandsStoreOnlyToTheirOutput : Prop :=
  ∀ (i : Instr) (s t : State) (x : Nat), exec i s = .next t → ¬ outputByte i s x →
    t.lmem.read? x = s.lmem.read? x

/-- A command reads CFG and the ARG registers only from the snapshot: writing CFG, ARG or the CMD read-back while it is
in flight changes nothing it does (R34, R42, R56, R285). -/
def Obligations.CommandsReadOnlyTheSnapshot : Prop :=
  ∀ (i : Instr) (s : State) (c : Cfg) (a : Args) (w : Word),
    (∀ t, exec i s = .next t →
      exec i { s with cfg := c, args := a, cmd := w } = .next { t with cfg := c, args := a, cmd := w }) ∧
    (∀ f, exec i s = .fault f → exec i { s with cfg := c, args := a, cmd := w } = .fault f)

/-- R113, and R11 for FAST_BITS: no command's result depends on the backend latch, and none but HT_DUMP's on
FAST_BITS. -/
def Obligations.BackendAndFastBitsAreUnobservable : Prop :=
  ∀ (i : Instr) (s : State),
    (∀ b : Bool, i ≠ .coreInit →
      (∀ t, exec i s = .next t → exec i { s with backend := b } = .next { t with backend := b }) ∧
      (∀ f, exec i s = .fault f → exec i { s with backend := b } = .fault f)) ∧
    (∀ b : Bool, exec .coreInit { s with backend := b } = exec .coreInit s) ∧
    (∀ k : Nat, (∀ x, i ≠ .htDump x) →
      (∀ t, exec i s = .next t →
        exec i { s with params := { s.params with fastBits := k } } =
          .next { t with params := { t.params with fastBits := k } }) ∧
      (∀ f, exec i s = .fault f →
        exec i { s with params := { s.params with fastBits := k } } = .fault f))

/-! ### Control commands (40_control) -/

/-- R110, R111, R112: NOP does nothing but complete, also while an error is recorded; CORE_INIT re-initialises the bit
reader, the validity of the slots, the results and the error record, latches the backend and keeps the rest. -/
def Obligations.ControlCommandsComplete : Prop :=
  ∀ s : State,
    exec .nop s = .next (finished s) ∧
    ∃ t, exec .coreInit s = .next t ∧
      t = { finished s with
        backend := t.backend, br := t.br, ht := t.ht, res := { res0 := 0, res1 := 0, res2 := 0 }, err := none } ∧
      (t.backend = true ↔
        s.snapCfg.backendReq = true ∧ s.snapCfg.forceScalar = false ∧ s.params.parAvailable = true) ∧
      t.br = { pos := 0, endPos := 0, acc := 0, nbits := 0, npad := 0, ended := false, mfound := false, marker := 0,
               overrun := false } ∧
      ∀ x, t.slot x = { s.slot x with valid := false }

/-! ### Bit reader (41_bitreader) -/

/-- R127: BR_INIT opens the segment when it lies in LMEM, an empty one at LMEM_SIZE too, and reads no byte. -/
def Obligations.BrInitOpensTheSegment : Prop :=
  ∀ s : State,
    let a := s.snapArgs.arg0.toNat
    let len := s.snapArgs.arg1.toNat
    (a + len ≤ s.params.lmemSize → exec .brInit s = .next { finished s with
      br := { pos := a, endPos := a + len, acc := 0, nbits := 0, npad := 0, ended := false, mfound := false,
              marker := 0, overrun := false } }) ∧
    (s.params.lmemSize < a + len → exec .brInit s = .next (failed s 0x10 .addressFault))

/-- BR_REFILL completes when the rest of the segment is written, leaves 57 to 64 bits buffered, and loses, adds and
reorders no data bit (R121, R122, R128). -/
def Obligations.RefillKeepsTheStream : Prop :=
  ∀ s : State, Inv s → Written s.lmem s.br.pos (s.br.endPos - s.br.pos) →
    ∃ t, exec .brRefill s = .next t ∧ t = { finished s with br := t.br } ∧
      57 ≤ t.br.nbits ∧ t.br.nbits ≤ 64 ∧ t.br.endPos = s.br.endPos ∧ t.br.overrun = s.br.overrun ∧
      bitsLeft t.lmem t.br = bitsLeft s.lmem s.br

/-- R121 to R125: a refill takes whole data bytes while there is room. With `ds` the data bytes it takes from BR.pos up
to `q`: if room is left at `q`, a marker there stops it before the marker and reports its code, the end of the segment or
a lone 0xFF there stops it without a marker, and both then pad with zero bits; if no room is left it stops at `q` with the
stream not ended. The accumulator has the data bytes below its valid bits, the first byte highest. No byte past the one
that stops the refill need be written. A reader that has already ended only pads: nothing is read, and pos, acc and the
marker stay (R128). -/
def Obligations.RefillStopsAtMarkerAndEnd : Prop :=
  (∀ s : State, s.br.ended = true → s.br.nbits ≤ 64 →
    exec .brRefill s = .next { finished s with
      br := { s.br with nbits := 64, npad := s.br.npad + (64 - s.br.nbits) } }) ∧
  ∀ (s : State) (ds : List Byte) (q : Nat), s.br.ended = false → s.br.nbits + 8 * ds.length ≤ 64 →
    DataAhead s.lmem s.br.endPos q s.br.pos ds →
    let n := s.br.nbits + 8 * ds.length
    let loaded : BitReader := { s.br with
      pos := q, nbits := n, acc := s.br.acc ||| BitVec.ofNat 64 (bytesValue ds * 2 ^ (64 - n)) }
    let stopped : BitReader := { loaded with ended := true, npad := s.br.npad + (64 - n), nbits := 64 }
    (∀ c : Byte, n ≤ 56 → q + 1 < s.br.endPos → s.lmem.read? q = some 0xFF → s.lmem.read? (q + 1) = some c → c ≠ 0 →
      exec .brRefill s = .next { finished s with br := { stopped with mfound := true, marker := c } }) ∧
    (n ≤ 56 → s.br.endPos ≤ q → exec .brRefill s = .next { finished s with br := stopped }) ∧
    (n ≤ 56 → q + 1 = s.br.endPos → s.lmem.read? q = some 0xFF →
      exec .brRefill s = .next { finished s with br := stopped }) ∧
    (56 < n → exec .brRefill s = .next { finished s with br := loaded })

/-- R129, R131, R252: BR_PEEK returns the top bits of the accumulator or raises BIT_UNDERFLOW, code 0x06; BR_HAS reports whether the bits
are buffered, pad bits counted. -/
def Obligations.PeekAndHasLookAtTheBuffer : Prop :=
  ∀ (s : State) (n : BitVec 6), n.toNat ≤ 32 →
    (n.toNat ≤ s.br.nbits → exec (.brPeek n) s = .next { finished s with
      res := { s.res with res0 := BitVec.ofNat 32 (s.br.acc.toNat / 2 ^ (64 - n.toNat)) } }) ∧
    (s.br.nbits < n.toNat → exec (.brPeek n) s = .next (failed s 0x12 .bitUnderflow)) ∧
    (n.toNat ≤ s.br.nbits → exec (.brHas n) s = .next { finished s with res := { s.res with res0 := 1 } }) ∧
    (s.br.nbits < n.toNat → exec (.brHas n) s = .next { finished s with res := { s.res with res0 := 0 } }) ∧
    (ErrKind.bitUnderflow.code = 0x06 ∧ ErrKind.bitUnderflow.detail = 0)

/-- R126, R130: what BR_GET returns and leaves; a pad bit taken sets the overrun flag with STRICT = 0 and is
CORRUPT_ENTROPY_STREAM(1) with STRICT = 1; too few bits are BIT_UNDERFLOW (R252). -/
def Obligations.GetConsumesBits : Prop :=
  ∀ (s : State) (n : BitVec 6), n.toNat ≤ 32 →
    let real := s.br.nbits - s.br.npad
    (s.br.nbits < n.toNat → exec (.brGet n) s = .next (failed s 0x13 .bitUnderflow)) ∧
    (n.toNat ≤ s.br.nbits → real < n.toNat → s.snapCfg.strict = true →
      exec (.brGet n) s = .next (failed s 0x13 .streamTruncated)) ∧
    (n.toNat ≤ s.br.nbits → n.toNat ≤ real ∨ s.snapCfg.strict = false →
      exec (.brGet n) s = .next { finished s with
        res := { s.res with res0 := BitVec.ofNat 32 (s.br.acc.toNat / 2 ^ (64 - n.toNat)) },
        br := { s.br with
          acc := BitVec.ofNat 64 (s.br.acc.toNat * 2 ^ n.toNat), nbits := s.br.nbits - n.toNat,
          npad := s.br.npad - (n.toNat - real), overrun := s.br.overrun || decide (real < n.toNat) } }) ∧
    (ErrKind.bitUnderflow.code = 0x06 ∧ ErrKind.bitUnderflow.detail = 0 ∧ ErrKind.streamTruncated.code = 0x04 ∧
      ErrKind.streamTruncated.detail = 1)

/-- BR_GET returns the next bits of the data stream, most significant first, followed by zero bits without end, and
leaves the rest; the overrun flag is set by the first bit taken past the data (R134). -/
def Obligations.GetDeliversTheStream : Prop :=
  ∀ (s : State) (n : BitVec 6), Inv s → n.toNat ≤ 32 → n.toNat ≤ s.br.nbits →
    s.snapCfg.strict = false ∨ n.toNat ≤ (bitsLeft s.lmem s.br).length →
    ∃ t, exec (.brGet n) s = .next t ∧ t = { finished s with br := t.br, res := t.res } ∧
      t.res = { s.res with res0 := BitVec.ofNat 32 (bitsValue ((paddedBits s).take n.toNat)) } ∧
      bitsLeft t.lmem t.br = (bitsLeft s.lmem s.br).drop n.toNat ∧
      t.br.overrun = (s.br.overrun || decide ((bitsLeft s.lmem s.br).length < n.toNat))

/-- R132, R133: BR_SKIP_MARKER stops after the first byte pair 0xFF, code with a code other than 0x00 and 0xFF, so that
stuffed pairs and fill bytes are passed, and reports the code; where the rest of the segment holds no such pair it ends
at the end of the segment and reports none. -/
def Obligations.SkipMarkerFindsTheFirstMarker : Prop :=
  ∀ s : State, s.br.pos ≤ s.br.endPos → Written s.lmem s.br.pos (s.br.endPos - s.br.pos) →
    let markerAt : Nat → Byte → Prop := fun j c =>
      s.br.pos ≤ j ∧ j + 1 < s.br.endPos ∧ s.lmem.read? j = some 0xFF ∧ s.lmem.read? (j + 1) = some c ∧
        c ≠ 0x00 ∧ c ≠ 0xFF
    (∀ j c, markerAt j c → (∀ j' c', j' < j → ¬ markerAt j' c') →
      exec .brSkipMarker s = .next { finished s with
        br := { s.br with acc := 0, nbits := 0, npad := 0, pos := j + 2, ended := false, mfound := false,
                          marker := c, overrun := false },
        res := { s.res with res0 := BitVec.ofNat 32 c.toNat, res1 := 1 } }) ∧
    ((∀ j c, ¬ markerAt j c) →
      exec .brSkipMarker s = .next { finished s with
        br := { s.br with acc := 0, nbits := 0, npad := 0, pos := s.br.endPos, ended := true, mfound := false },
        res := { s.res with res0 := 0, res1 := 0 } })

/-! ### Huffman (42_huffman) -/

/-- R157: the canonical code of counts that are not over-subscribed is prefix-free: no codeword is a prefix of another,
and a 16-bit window matches at most one. -/
def Obligations.CanonicalCodeIsPrefixFree : Prop :=
  ∀ count : List Byte, count.length = 16 → kraft count ≤ 65536 →
    (∀ (j k : Nat) (v w : Codeword), j ≠ k → (codewords count)[j]? = some v → (codewords count)[k]? = some w →
      ¬ v.bits <+: w.bits) ∧
    (∀ (x : BitVec 16) (j k : Nat) (v w : Codeword), (codewords count)[j]? = some v → (codewords count)[k]? = some w →
      x.toNat / 2 ^ (16 - v.len) = v.code → x.toNat / 2 ^ (16 - w.len) = w.code → j = k)

/-- R156: the canonical assignment. Occurrence k of length l has as value the sum, over the lengths m below l, of
count[m]·2^(l−m), plus its place among the codewords of length l; and every value fits its length. -/
def Obligations.CanonicalCodesIncreaseByOne : Prop :=
  ∀ (count : List Byte) (l p : Nat), count.length = 16 → kraft count ≤ 65536 → 1 ≤ l → l ≤ 16 →
    p < (count.getD (l - 1) 0).toNat →
    let before := ((List.range (l - 1)).map (fun m => (count.getD m 0).toNat)).sum
    let first := ((List.range (l - 1)).map (fun m => (count.getD m 0).toNat * 2 ^ (l - (m + 1)))).sum
    (codewords count)[before + p]? = some { len := l, code := first + p } ∧ first + p < 2 ^ l

/-- R160: the decode function of a built slot gives the symbol and the length of the codeword the window begins with,
and NOMATCH where there is none. -/
def Obligations.DecodeFindsTheUniqueCodeword : Prop :=
  ∀ (h : HtSlot) (x : BitVec 16), SlotOk h →
    (∀ (k : Nat) (w : Codeword) (y : Byte), (codewords h.count)[k]? = some w → h.sym[k]? = some y →
      x.toNat / 2 ^ (16 - w.len) = w.code → h.decode x = some (y, w.len)) ∧
    ((∀ w ∈ codewords h.count, x.toNat / 2 ^ (16 - w.len) ≠ w.code) → h.decode x = none)

/-- R161: the lookup table's entries HIT, LONG and INVALID. -/
def Obligations.LookupEntriesAreHitLongInvalid : Prop :=
  ∀ (h : HtSlot) (k i : Nat), SlotOk h → 1 ≤ k → k ≤ 16 → i < 2 ^ k →
    (∀ (j : Nat) (w : Codeword) (y : Byte), (codewords h.count)[j]? = some w → h.sym[j]? = some y →
      w.len ≤ k → i / 2 ^ (k - w.len) = w.code →
      (h.lutEntry k i).toNat = 2 ^ 14 + w.len * 2 ^ 8 + y.toNat) ∧
    ((∀ w ∈ codewords h.count, w.len ≤ k → i / 2 ^ (k - w.len) ≠ w.code) →
      ((∃ w ∈ codewords h.count, k < w.len ∧ w.code / 2 ^ (w.len - k) = i) → h.lutEntry k i = 0x8000) ∧
      ((∀ w ∈ codewords h.count, k < w.len → w.code / 2 ^ (w.len - k) ≠ i) → h.lutEntry k i = 0x0000))

/-- A lookup in the table, with the search for longer codes on a LONG entry, is the decode function (R162, "the result
equals a lookup in the table of rule R161"). -/
def Obligations.LookupTableRefinesDecode : Prop :=
  ∀ (h : HtSlot) (k : Nat) (x : BitVec 16), SlotOk h → 1 ≤ k → k ≤ 16 →
    let e := h.lutEntry k (x.toNat / 2 ^ (16 - k))
    (e.extractLsb' 14 2 = 1 → h.decode x = some (e.extractLsb' 0 8, (e.extractLsb' 8 5).toNat)) ∧
    (e.extractLsb' 14 2 = 2 → ∀ y l, h.decode x = some (y, l) → k < l) ∧
    (e.extractLsb' 14 2 = 0 → h.decode x = none) ∧
    e.extractLsb' 14 2 ≠ 3

/-- R164: the sign extension and its ranges. -/
def Obligations.ExtendIsTheJpegConvention : Prop :=
  extend 0 0 = 0 ∧
  ∀ v s : Nat, 1 ≤ s → v < 2 ^ s →
    (2 ^ (s - 1) ≤ v → extend v s = v ∧ (2 : Int) ^ (s - 1) ≤ extend v s ∧ extend v s ≤ 2 ^ s - 1) ∧
    (v < 2 ^ (s - 1) → extend v s = (v : Int) - (2 ^ s - 1) ∧
      -((2 : Int) ^ s - 1) ≤ extend v s ∧ extend v s ≤ -(2 ^ (s - 1)))

/-- R153 to R155, R159: HT_BUILD checks the counts' region, more than 256 symbols, no symbol, over-subscription and the
symbols' region, in this order, and otherwise builds the slot. -/
def Obligations.HtBuildChecksThenBuilds : Prop :=
  ∀ (s : State) (t : BitVec 3) (cs : List Byte), cs.length = 16 →
    let a := s.snapArgs.arg0.toNat
    let size := s.params.lmemSize
    let n := (cs.map (fun c => c.toNat)).sum
    let K := ((List.range 16).map (fun j => (cs.getD j 0).toNat * 2 ^ (15 - j))).sum
    (size < a + 16 → exec (.htBuild t) s = .next (failed s 0x20 .addressFault)) ∧
    (a + 16 ≤ size → Holds s.lmem a cs →
      (256 < n → exec (.htBuild t) s = .next (failed s 0x20 .tableTooManySymbols)) ∧
      (n = 0 → exec (.htBuild t) s = .next (failed s 0x20 .tableEmpty)) ∧
      (1 ≤ n → n ≤ 256 → 65536 < K → exec (.htBuild t) s = .next (failed s 0x20 .tableOverSubscribed)) ∧
      (1 ≤ n → n ≤ 256 → K ≤ 65536 → size < a + 16 + n →
        exec (.htBuild t) s = .next (failed s 0x20 .addressFault)) ∧
      (1 ≤ n → n ≤ 256 → K ≤ 65536 → a + 16 + n ≤ size → ∀ syms : List Byte, syms.length = n →
        Holds s.lmem (a + 16) syms →
        ∃ u, exec (.htBuild t) s = .next u ∧ u = { finished s with ht := u.ht, res := u.res } ∧
          u.res = { s.res with res0 := BitVec.ofNat 32 n, res1 := BitVec.ofNat 32 K } ∧
          u.slot t = { valid := true, count := cs, nsyms := n, sym := syms } ∧
          ∀ x, x ≠ t → u.slot x = s.slot x)) ∧
    (ErrKind.tableTooManySymbols.code = 0x03 ∧ ErrKind.tableTooManySymbols.detail = 1 ∧
      ErrKind.tableOverSubscribed.code = 0x03 ∧ ErrKind.tableOverSubscribed.detail = 2 ∧
      ErrKind.tableEmpty.code = 0x03 ∧ ErrKind.tableEmpty.detail = 3)

/-- R162, R163: HT_DECODE returns the symbol whose codeword the stream (then zero bits) begins with, and consumes it. The
reader it leaves is the one BR_REFILL would leave, the codeword's bits taken from it: so pos, the flags and the marker
are those of the refill (R121). -/
def Obligations.HtDecodeConsumesOneCodeword : Prop :=
  ∀ (s : State) (t : BitVec 3) (k : Nat) (w : Codeword) (y : Byte), Inv s → (s.slot t).valid = true →
    Written s.lmem s.br.pos (s.br.endPos - s.br.pos) →
    (codewords (s.slot t).count)[k]? = some w → (s.slot t).sym[k]? = some y → w.bits <+: paddedBits s →
    s.snapCfg.strict = false ∨ w.len ≤ (bitsLeft s.lmem s.br).length →
    ∃ u, exec (.htDecode t) s = .next u ∧ u = { finished s with br := u.br, res := u.res } ∧
      u.res = { s.res with res0 := BitVec.ofNat 32 y.toNat, res1 := BitVec.ofNat 32 w.len } ∧
      bitsLeft u.lmem u.br = (bitsLeft s.lmem s.br).drop w.len ∧
      u.br.overrun = (s.br.overrun || decide ((bitsLeft s.lmem s.br).length < w.len)) ∧
      ∃ v, exec .brRefill s = .next v ∧ u.br = afterBits v.br w.len

/-- R164, R165: HT_DECODE_DC consumes a codeword whose symbol is a category of at most 11 and that many extra bits, and
returns their sign extension and the category. The reader it leaves is the one BR_REFILL would leave, code and extra bits
taken (R162). -/
def Obligations.HtDecodeDcReturnsTheDifference : Prop :=
  ∀ (s : State) (t : BitVec 3) (k : Nat) (w : Codeword) (y : Byte), Inv s → (s.slot t).valid = true →
    Written s.lmem s.br.pos (s.br.endPos - s.br.pos) →
    (codewords (s.slot t).count)[k]? = some w → (s.slot t).sym[k]? = some y → w.bits <+: paddedBits s →
    y.toNat ≤ 11 →
    s.snapCfg.strict = false ∨ w.len + y.toNat ≤ (bitsLeft s.lmem s.br).length →
    let raw := bitsValue (((paddedBits s).drop w.len).take y.toNat)
    ∃ u, exec (.htDecodeDc t) s = .next u ∧ u = { finished s with br := u.br, res := u.res } ∧
      u.res = { s.res with
        res0 := BitVec.ofInt 32 (if y.toNat = 0 then 0 else if 2 ^ (y.toNat - 1) ≤ raw then (raw : Int)
          else (raw : Int) - (2 ^ y.toNat - 1)),
        res1 := BitVec.ofNat 32 y.toNat } ∧
      bitsLeft u.lmem u.br = (bitsLeft s.lmem s.br).drop (w.len + y.toNat) ∧
      u.br.overrun = (s.br.overrun || decide ((bitsLeft s.lmem s.br).length < w.len + y.toNat)) ∧
      ∃ v, exec .brRefill s = .next v ∧ u.br = afterBits v.br (w.len + y.toNat)

/-- R164, R166: HT_DECODE_AC consumes a codeword whose symbol is a run and a size, and that many extra bits, and returns
the coefficient, the symbol and its kind. The reader it leaves is the one BR_REFILL would leave, code and extra bits taken
(R162). -/
def Obligations.HtDecodeAcReturnsRunAndSize : Prop :=
  ∀ (s : State) (t : BitVec 3) (k : Nat) (w : Codeword) (y : Byte), Inv s → (s.slot t).valid = true →
    Written s.lmem s.br.pos (s.br.endPos - s.br.pos) →
    (codewords (s.slot t).count)[k]? = some w → (s.slot t).sym[k]? = some y → w.bits <+: paddedBits s →
    let run := y.toNat / 16
    let size := y.toNat % 16
    s.snapCfg.strict = false ∨ w.len + size ≤ (bitsLeft s.lmem s.br).length →
    let raw := bitsValue (((paddedBits s).drop w.len).take size)
    ∃ u, exec (.htDecodeAc t) s = .next u ∧ u = { finished s with br := u.br, res := u.res } ∧
      u.res = {
        res0 := BitVec.ofInt 32 (if size = 0 then 0 else if 2 ^ (size - 1) ≤ raw then (raw : Int)
          else (raw : Int) - (2 ^ size - 1)),
        res1 := BitVec.ofNat 32 y.toNat,
        res2 := if size ≠ 0 then 0 else if run = 0 then 1 else if run = 15 then 2 else 3 } ∧
      bitsLeft u.lmem u.br = (bitsLeft s.lmem s.br).drop (w.len + size) ∧
      u.br.overrun = (s.br.overrun || decide ((bitsLeft s.lmem s.br).length < w.len + size)) ∧
      ∃ v, exec .brRefill s = .next v ∧ u.br = afterBits v.br (w.len + size)

/-- R61, R162, R163, R165, R166, R258: the errors of the decode commands. An invalid slot is TABLE_UNDEFINED whatever the
stream holds (HT_DUMP too); a stream no codeword begins is CORRUPT_ENTROPY_STREAM(0); a DC category above 11 is (2); bits
taken past the data with STRICT = 1 are (1). -/
def Obligations.DecodeErrors : Prop :=
  (∀ (s : State) (t : BitVec 3), (s.slot t).valid = false →
    exec (.htDecode t) s = .next (failed s 0x21 .tableUndefined) ∧
    exec (.htDecodeDc t) s = .next (failed s 0x22 .tableUndefined) ∧
    exec (.htDecodeAc t) s = .next (failed s 0x23 .tableUndefined) ∧
    exec (.htDump t) s = .next (failed s 0x24 .tableUndefined)) ∧
  (∀ (s : State) (t : BitVec 3), Inv s → (s.slot t).valid = true →
    Written s.lmem s.br.pos (s.br.endPos - s.br.pos) →
    ((∀ w ∈ codewords (s.slot t).count, ¬ w.bits <+: paddedBits s) →
      exec (.htDecode t) s = .next (failed s 0x21 .streamNoMatch) ∧
      exec (.htDecodeDc t) s = .next (failed s 0x22 .streamNoMatch) ∧
      exec (.htDecodeAc t) s = .next (failed s 0x23 .streamNoMatch)) ∧
    (∀ (k : Nat) (w : Codeword) (y : Byte), (codewords (s.slot t).count)[k]? = some w →
      (s.slot t).sym[k]? = some y → w.bits <+: paddedBits s →
      (11 < y.toNat → exec (.htDecodeDc t) s = .next (failed s 0x22 .streamBadCategory)) ∧
      (s.snapCfg.strict = true →
        ((bitsLeft s.lmem s.br).length < w.len →
          exec (.htDecode t) s = .next (failed s 0x21 .streamTruncated)) ∧
        (y.toNat ≤ 11 → (bitsLeft s.lmem s.br).length < w.len + y.toNat →
          exec (.htDecodeDc t) s = .next (failed s 0x22 .streamTruncated)) ∧
        ((bitsLeft s.lmem s.br).length < w.len + y.toNat % 16 →
          exec (.htDecodeAc t) s = .next (failed s 0x23 .streamTruncated))))) ∧
  (ErrKind.tableUndefined.code = 0x05 ∧ ErrKind.tableUndefined.detail = 0 ∧
    ErrKind.streamNoMatch.code = 0x04 ∧ ErrKind.streamNoMatch.detail = 0 ∧
    ErrKind.streamTruncated.code = 0x04 ∧ ErrKind.streamTruncated.detail = 1 ∧
    ErrKind.streamBadCategory.code = 0x04 ∧ ErrKind.streamBadCategory.detail = 2)

/-- R169 over the data bits: from a stream that begins with all codewords of a built slot in order, as many HT_DECODE
commands return every symbol of the list in order with the length of each, and none errs. -/
def Obligations.SymbolsRoundTrip : Prop :=
  ∀ (s : State) (t : BitVec 3), Inv s → (s.slot t).valid = true → s.err = none →
    Written s.lmem s.br.pos (s.br.endPos - s.br.pos) →
    (codewords (s.slot t).count).flatMap Codeword.bits <+: bitsLeft s.lmem s.br →
    decodeRun t (s.slot t).nsyms s =
      some (((s.slot t).sym.zip (codewords (s.slot t).count)).map
        (fun e => (BitVec.ofNat 32 e.1.toNat, BitVec.ofNat 32 e.2.len)))

/-- R167: HT_DUMP writes the 2^FAST_BITS entries of the lookup table, each little-endian, and nothing else of LMEM. -/
def Obligations.HtDumpWritesTheTable : Prop :=
  ∀ (s : State) (t : BitVec 3), (s.slot t).valid = true →
    let a := s.snapArgs.arg0.toNat
    let k := s.params.fastBits
    (s.params.lmemSize < a + 2 * 2 ^ k → exec (.htDump t) s = .next (failed s 0x24 .addressFault)) ∧
    (a + 2 * 2 ^ k ≤ s.params.lmemSize →
      ∃ u, exec (.htDump t) s = .next u ∧ u = { finished s with lmem := u.lmem, res := u.res } ∧
        u.res = { s.res with res0 := BitVec.ofNat 32 (2 ^ k) } ∧
        (∀ i, i < 2 ^ k →
          u.lmem.read? (a + 2 * i) = some (((s.slot t).lutEntry k i).extractLsb' 0 8) ∧
          u.lmem.read? (a + 2 * i + 1) = some (((s.slot t).lutEntry k i).extractLsb' 8 8)) ∧
        ∀ x, x < a ∨ a + 2 * 2 ^ k ≤ x → u.lmem.read? x = s.lmem.read? x)

/-! ### IDCT (43_idct) -/

/-- R190, R191, R202: IDCT reads 64 little-endian coefficients and stores the kernel's 64 samples row by row at the
stride, a later row winning where rows overlap; all other bytes of LMEM stay. -/
def Obligations.IdctStoresTheBlock : Prop :=
  ∀ (s : State) (c : List Word), c.length = 64 →
    let ca := s.snapArgs.arg0.toNat
    let oa := s.snapArgs.arg1.toNat
    let st := s.snapArgs.arg2.toNat
    ca + 256 ≤ s.params.lmemSize → oa + 7 * st + 8 ≤ s.params.lmemSize → HoldsWords s.lmem ca c →
    ∃ u, exec .idct s = .next u ∧ u = { finished s with lmem := u.lmem } ∧
      (∀ r x, r < 8 → x < 8 →
        (∀ r' x', r < r' → r' < 8 → x' < 8 → oa + r' * st + x' ≠ oa + r * st + x) →
        u.lmem.read? (oa + r * st + x) = some ((idctKernel s.params.kernel c).getD (8 * r + x) 0)) ∧
      ∀ a, (∀ r x, r < 8 → x < 8 → a ≠ oa + r * st + x) → u.lmem.read? a = s.lmem.read? a

/-- R194, R195: whatever the kernel, a block with no AC coefficient gives 64 equal samples, with the value of R195 where
that rule fixes it; and under the reference kernel the value is that one for every c[0] from −132100 to 130043. R196 to
R199: on any block, AC coefficients among them, the reference kernel is the two passes as the rules write them, every
operation wrapping to 32 bits. R200: while every coefficient is at most 2328 in size no wrap changes a value, so the
kernel is the same computation over unbounded integers. The clause on any block decides the block I7 of
95_test_vectors (every coefficient 0x80000000) against that file's vector, which does not follow from R197 to R199: that
the rules are followed there is the model's choice (log 13). -/
def Obligations.DcOnlyBlocksAreFlat : Prop :=
  (∀ (k : KernelSel) (d : Word), ∃ v : Byte,
    idctKernel k (d :: List.replicate 63 0) = List.replicate 64 v ∧
    (-2328 ≤ d.toInt → d.toInt ≤ 2328 →
      (v.toNat : Int) = max 0 (min 255 ((d.toInt + 4) / 8 + 128)))) ∧
  (∀ d : Word, -132100 ≤ d.toInt → d.toInt ≤ 130043 →
    ∃ v : Byte, idctKernel .reference (d :: List.replicate 63 0) = List.replicate 64 v ∧
      (v.toNat : Int) = max 0 (min 255 ((d.toInt + 4) / 8 + 128))) ∧
  (∀ c : List Word, (idctKernel .reference c).map (fun b => (b.toNat : Int)) = ruleKernel wrap32 (c.map BitVec.toInt)) ∧
  (∀ c : List Int, (∀ x ∈ c, -2328 ≤ x ∧ x ≤ 2328) → ruleKernel wrap32 c = ruleKernel id c)

/-! ### Upsampler (44_upsampler) -/

/-- R212, R238: UPS_NONE copies the row at ARG0, and CC_GRAY the Y plane at ARG0, to ARG3; ARG1 and ARG2 play no part. -/
def Obligations.UpsNoneAndGrayCopy : Prop :=
  ∀ (s : State) (row : List Byte) (i : Instr), i ∈ [Instr.upsNone, Instr.ccGray] →
    let src := s.snapArgs.arg0.toNat
    let out := s.snapArgs.arg3.toNat
    let w := s.snapArgs.arg4.toNat
    row.length = w → src + w ≤ s.params.lmemSize → out + w ≤ s.params.lmemSize → Holds s.lmem src row →
    ∃ u, exec i s = .next u ∧ u = { finished s with lmem := u.lmem } ∧ Holds u.lmem out row ∧
      ∀ x, x < out ∨ out + w ≤ x → u.lmem.read? x = s.lmem.read? x

/-- R213, R214, R219: UPS_H stores for every sample the exact triangle values toward its left and its right neighbour,
the boundary samples being their own neighbours. -/
def Obligations.UpsHInterpolatesTheRow : Prop :=
  ∀ (s : State) (row : List Byte),
    let src := s.snapArgs.arg0.toNat
    let out := s.snapArgs.arg3.toNat
    let w := s.snapArgs.arg4.toNat
    let at' := fun (i : Nat) => (row.getD i 0).toNat
    row.length = w → src + w ≤ s.params.lmemSize → out + 2 * w ≤ s.params.lmemSize → Holds s.lmem src row →
    ∃ u, exec .upsH s = .next u ∧ u = { finished s with lmem := u.lmem } ∧
      (∀ i, i < w →
        ByteIs u.lmem (out + 2 * i) ((3 * at' i + (if i = 0 then at' 0 else at' (i - 1)) + 2) / 4) ∧
        ByteIs u.lmem (out + 2 * i + 1) ((3 * at' i + (if i + 1 = w then at' i else at' (i + 1)) + 2) / 4)) ∧
      ∀ x, x < out ∨ out + 2 * w ≤ x → u.lmem.read? x = s.lmem.read? x

/-- R215, R219: UPS_V stores the upper row toward near and the lower row toward far, one after the other. -/
def Obligations.UpsVInterpolatesTwoRows : Prop :=
  ∀ (s : State) (cur near far : List Byte),
    let out := s.snapArgs.arg3.toNat
    let w := s.snapArgs.arg4.toNat
    cur.length = w → near.length = w → far.length = w →
    s.snapArgs.arg0.toNat + w ≤ s.params.lmemSize → s.snapArgs.arg1.toNat + w ≤ s.params.lmemSize →
    s.snapArgs.arg2.toNat + w ≤ s.params.lmemSize → out + 2 * w ≤ s.params.lmemSize →
    Holds s.lmem s.snapArgs.arg0.toNat cur → Holds s.lmem s.snapArgs.arg1.toNat near →
    Holds s.lmem s.snapArgs.arg2.toNat far →
    ∃ u, exec .upsV s = .next u ∧ u = { finished s with lmem := u.lmem } ∧
      (∀ i, i < w →
        ByteIs u.lmem (out + i) ((3 * (cur.getD i 0).toNat + (near.getD i 0).toNat + 2) / 4) ∧
        ByteIs u.lmem (out + w + i) ((3 * (cur.getD i 0).toNat + (far.getD i 0).toNat + 2) / 4)) ∧
      ∀ x, x < out ∨ out + 2 * w ≤ x → u.lmem.read? x = s.lmem.read? x

/-- R217, R219: UPS_HV is vertical first, then horizontal on each of the two rows, stored one after the other. -/
def Obligations.UpsHvComposesVerticalThenHorizontal : Prop :=
  ∀ (s : State) (cur near far : List Byte),
    let out := s.snapArgs.arg3.toNat
    let w := s.snapArgs.arg4.toNat
    let up := fun (i : Nat) => (3 * (cur.getD i 0).toNat + (near.getD i 0).toNat + 2) / 4
    let lo := fun (i : Nat) => (3 * (cur.getD i 0).toNat + (far.getD i 0).toNat + 2) / 4
    let left := fun (r : Nat → Nat) (i : Nat) => (3 * r i + (if i = 0 then r 0 else r (i - 1)) + 2) / 4
    let right := fun (r : Nat → Nat) (i : Nat) => (3 * r i + (if i + 1 = w then r i else r (i + 1)) + 2) / 4
    cur.length = w → near.length = w → far.length = w →
    s.snapArgs.arg0.toNat + w ≤ s.params.lmemSize → s.snapArgs.arg1.toNat + w ≤ s.params.lmemSize →
    s.snapArgs.arg2.toNat + w ≤ s.params.lmemSize → out + 4 * w ≤ s.params.lmemSize →
    Holds s.lmem s.snapArgs.arg0.toNat cur → Holds s.lmem s.snapArgs.arg1.toNat near →
    Holds s.lmem s.snapArgs.arg2.toNat far →
    ∃ u, exec .upsHv s = .next u ∧ u = { finished s with lmem := u.lmem } ∧
      (∀ i, i < w →
        ByteIs u.lmem (out + 2 * i) (left up i) ∧ ByteIs u.lmem (out + 2 * i + 1) (right up i) ∧
        ByteIs u.lmem (out + 2 * w + 2 * i) (left lo i) ∧
        ByteIs u.lmem (out + 2 * w + 2 * i + 1) (right lo i)) ∧
      ∀ x, x < out ∨ out + 4 * w ≤ x → u.lmem.read? x = s.lmem.read? x

/-! ### Colour converter (45_color) -/

/-- R230, R232, R233, R235 to R237: CC_RGB, CC_RGBA and CC_RGBX store for every pixel the clamped 14-bit fixed-point red,
green and blue, and 0xFF as the fourth byte of the two 4-byte layouts. -/
def Obligations.ColourPixelsAreTheIntegerFormula : Prop :=
  ∀ (s : State) (ys cbs crs : List Byte) (i : Instr) (bpp : Nat),
    (i, bpp) ∈ [(Instr.ccRgb, 3), (Instr.ccRgba, 4), (Instr.ccRgbx, 4)] →
    let out := s.snapArgs.arg3.toNat
    let N := s.snapArgs.arg4.toNat
    let base := fun (j : Nat) => ((ys.getD j 0).toNat : Int) * 16384 + 8191
    let cb := fun (j : Nat) => ((cbs.getD j 0).toNat : Int) - 128
    let cr := fun (j : Nat) => ((crs.getD j 0).toNat : Int) - 128
    let sample := fun (v : Int) => (max 0 (min 255 (v / 16384))).toNat
    ys.length = N → cbs.length = N → crs.length = N →
    s.snapArgs.arg0.toNat + N ≤ s.params.lmemSize → s.snapArgs.arg1.toNat + N ≤ s.params.lmemSize →
    s.snapArgs.arg2.toNat + N ≤ s.params.lmemSize → out + bpp * N ≤ s.params.lmemSize →
    Holds s.lmem s.snapArgs.arg0.toNat ys → Holds s.lmem s.snapArgs.arg1.toNat cbs →
    Holds s.lmem s.snapArgs.arg2.toNat crs →
    ∃ u, exec i s = .next u ∧ u = { finished s with lmem := u.lmem } ∧
      (∀ j, j < N →
        ByteIs u.lmem (out + bpp * j) (sample (base j + cr j * 22970)) ∧
        ByteIs u.lmem (out + bpp * j + 1) (sample (base j + cr j * -11700 + cb j * -5638)) ∧
        ByteIs u.lmem (out + bpp * j + 2) (sample (base j + cb j * 29032)) ∧
        (bpp = 4 → ByteIs u.lmem (out + bpp * j + 3) 255)) ∧
      ∀ x, x < out ∨ out + bpp * N ≤ x → u.lmem.read? x = s.lmem.read? x

/-- R239: CC_YCBCR interleaves the three planes without arithmetic. -/
def Obligations.YcbcrInterleavesThePlanes : Prop :=
  ∀ (s : State) (ys cbs crs : List Byte),
    let out := s.snapArgs.arg3.toNat
    let N := s.snapArgs.arg4.toNat
    ys.length = N → cbs.length = N → crs.length = N →
    s.snapArgs.arg0.toNat + N ≤ s.params.lmemSize → s.snapArgs.arg1.toNat + N ≤ s.params.lmemSize →
    s.snapArgs.arg2.toNat + N ≤ s.params.lmemSize → out + 3 * N ≤ s.params.lmemSize →
    Holds s.lmem s.snapArgs.arg0.toNat ys → Holds s.lmem s.snapArgs.arg1.toNat cbs →
    Holds s.lmem s.snapArgs.arg2.toNat crs →
    ∃ u, exec .ccYcbcr s = .next u ∧ u = { finished s with lmem := u.lmem } ∧
      (∀ j, j < N → u.lmem.read? (out + 3 * j) = ys[j]? ∧ u.lmem.read? (out + 3 * j + 1) = cbs[j]? ∧
        u.lmem.read? (out + 3 * j + 2) = crs[j]?) ∧
      ∀ x, x < out ∨ out + 3 * N ≤ x → u.lmem.read? x = s.lmem.read? x
end

