-- ==== Sys2Proof/Laws/Memory.lean ====
section
/-! SUPPORT. LMEM: what a read gives after a write, that writes keep the canonical form and the size, that equal reads
make equal memories, and little-endian values. -/

namespace Sys2Proof.Machine

/-! ### One byte -/

@[simp] theorem Memory.read?_nil (a : Nat) : Memory.read? [] a = none := rfl

/-- A read after a write gives the value written there, and what was there anywhere else. -/
@[simp] theorem Memory.read?_write (m : Memory) (a b : Nat) (v : Byte) :
    (m.write a v).read? b = if b = a then some v else m.read? b := by
  induction m with
  | nil => simp only [Memory.write, Memory.read?, eq_comm]
  | cons c m ih =>
    obtain ⟨k, w⟩ := c
    simp only [Memory.write]
    split
    · simp only [Memory.read?, eq_comm (a := a)]
    · split
      · subst a
        simp only [Memory.read?, eq_comm (a := b)]
        split <;> rfl
      · simp only [Memory.read?, ih]
        split
        · subst b
          rw [if_neg]
          omega
        · rfl

theorem Memory.mem_write {m : Memory} {a : Nat} {v : Byte} {c : Host.Cell} (h : c ∈ m.write a v) :
    c = (a, v) ∨ c ∈ m := by
  induction m with
  | nil => simpa [Memory.write] using h
  | cons d m ih =>
    obtain ⟨k, w⟩ := d
    simp only [Memory.write] at h
    split at h
    · simpa using h
    · split at h
      · rcases List.mem_cons.1 h with h | h
        · exact .inl h
        · exact .inr (List.mem_cons_of_mem _ h)
      · rcases List.mem_cons.1 h with h | h
        · exact .inr (h ▸ List.mem_cons_self)
        · exact (ih h).imp_right (List.mem_cons_of_mem _)

theorem Memory.wf_write {m : Memory} (h : m.wf) (a : Nat) (v : Byte) : (m.write a v).wf := by
  induction m with
  | nil => simp [Memory.write, Memory.wf]
  | cons d m ih =>
    obtain ⟨k, w⟩ := d
    obtain ⟨hd, hm⟩ := List.pairwise_cons.1 h
    simp only [Memory.write]
    split
    · rename_i hlt
      refine List.pairwise_cons.2 ⟨?_, h⟩
      intro c hc
      rcases List.mem_cons.1 hc with rfl | hc
      · exact hlt
      · exact lt_trans hlt (hd c hc)
    · split
      · rename_i heq
        subst heq
        exact List.pairwise_cons.2 ⟨hd, hm⟩
      · refine List.pairwise_cons.2 ⟨?_, ih hm⟩
        intro c hc
        rcases Memory.mem_write hc with rfl | hc
        · simp only; omega
        · exact hd c hc

theorem Memory.below_write {m : Memory} {n : Nat} (h : m.below n) {a : Nat} (ha : a < n) (v : Byte) :
    (m.write a v).below n := by
  intro c hc
  rcases Memory.mem_write hc with rfl | hc
  · exact ha
  · exact h c hc

theorem Memory.read?_none_of_lt {m : Memory} {a : Nat} (h : ∀ c ∈ m, a < c.1) : m.read? a = none := by
  induction m with
  | nil => rfl
  | cons d m ih =>
    obtain ⟨k, w⟩ := d
    have := h (k, w) List.mem_cons_self
    simp only at this
    rw [Memory.read?, if_neg (by omega)]
    exact ih fun c hc => h c (List.mem_cons_of_mem _ hc)

/-- In canonical form, equal reads make equal memories. -/
theorem Memory.ext_of_wf {m m' : Memory} (h : m.wf) (h' : m'.wf) (hr : ∀ a, m.read? a = m'.read? a) : m = m' := by
  induction m generalizing m' with
  | nil =>
    cases m' with
    | nil => rfl
    | cons d m' =>
      have := hr d.1
      simp [Memory.read?] at this
  | cons d m ih =>
    obtain ⟨k, w⟩ := d
    obtain ⟨hd, hm⟩ := List.pairwise_cons.1 h
    cases m' with
    | nil =>
      have := hr k
      simp [Memory.read?] at this
    | cons d' m' =>
      obtain ⟨k', w'⟩ := d'
      obtain ⟨hd', hm'⟩ := List.pairwise_cons.1 h'
      have hkk : k = k' := by
        rcases lt_trichotomy k k' with hlt | heq | hgt
        · have := hr k
          rw [Memory.read?, if_pos rfl, Memory.read?, if_neg (by omega),
            Memory.read?_none_of_lt fun c hc => lt_trans hlt (hd' c hc)] at this
          cases this
        · exact heq
        · have := hr k'
          rw [Memory.read?, if_neg (by omega), Memory.read?_none_of_lt fun c hc => lt_trans hgt (hd c hc),
            Memory.read?, if_pos rfl] at this
          cases this
      subst hkk
      have hw : w = w' := by
        have := hr k
        simpa [Memory.read?] using this
      subst hw
      congr 1
      refine ih hm hm' fun a => ?_
      by_cases ha : k = a
      · subst ha
        rw [Memory.read?_none_of_lt hd, Memory.read?_none_of_lt hd']
      · have := hr a
        rwa [Memory.read?, if_neg ha, Memory.read?, if_neg ha] at this

/-! ### Several bytes -/

@[simp] theorem Memory.writeCells_nil (m : Memory) : m.writeCells [] = m := rfl

@[simp] theorem Memory.writeCells_cons (m : Memory) (c : Host.Cell) (cs : List Host.Cell) :
    m.writeCells (c :: cs) = (m.write c.1 c.2).writeCells cs := rfl

theorem Memory.wf_writeCells {m : Memory} (h : m.wf) (cs : List Host.Cell) : (m.writeCells cs).wf := by
  induction cs generalizing m with
  | nil => exact h
  | cons c cs ih => exact ih (Memory.wf_write h _ _)

theorem Memory.below_writeCells {m : Memory} {n : Nat} (h : m.below n) {cs : List Host.Cell}
    (hc : ∀ c ∈ cs, c.1 < n) : (m.writeCells cs).below n := by
  induction cs generalizing m with
  | nil => exact h
  | cons c cs ih =>
    exact ih (Memory.below_write h (hc c List.mem_cons_self) _) fun d hd => hc d (List.mem_cons_of_mem _ hd)

/-- An address no cell names reads as before. -/
theorem Memory.read?_writeCells_of_notMem {cs : List Host.Cell} {a : Nat} (h : ∀ c ∈ cs, c.1 ≠ a) (m : Memory) :
    (m.writeCells cs).read? a = m.read? a := by
  induction cs generalizing m with
  | nil => rfl
  | cons c cs ih =>
    rw [Memory.writeCells_cons, ih fun d hd => h d (List.mem_cons_of_mem _ hd), Memory.read?_write,
      if_neg (h c List.mem_cons_self).symm]

/-- The last cell naming an address is what is read there. -/
theorem Memory.read?_writeCells_last {cs ds : List Host.Cell} {a : Nat} {v : Byte} (h : ∀ c ∈ ds, c.1 ≠ a)
    (m : Memory) : (m.writeCells (cs ++ (a, v) :: ds)).read? a = some v := by
  induction cs generalizing m with
  | nil => rw [List.nil_append, Memory.writeCells_cons, Memory.read?_writeCells_of_notMem h]; simp
  | cons c cs ih => exact ih _

theorem mem_cellsAt {a : Nat} {bs : List Byte} {c : Host.Cell} (h : c ∈ cellsAt a bs) :
    a ≤ c.1 ∧ c.1 < a + bs.length := by
  induction bs generalizing a with
  | nil => simp [cellsAt] at h
  | cons b bs ih =>
    rcases List.mem_cons.1 h with rfl | h
    · simp
    · have := ih h
      simp only [List.length_cons]
      omega

/-- What a read gives after consecutive bytes were stored. -/
theorem Memory.read?_writeBytes (m : Memory) (a : Nat) (bs : List Byte) (x : Nat) :
    (m.writeBytes a bs).read? x = if a ≤ x ∧ x < a + bs.length then bs[x - a]? else m.read? x := by
  unfold Memory.writeBytes
  induction bs generalizing m a with
  | nil =>
    rw [cellsAt, Memory.writeCells_nil, if_neg (by simp only [List.length_nil]; omega)]
  | cons b bs ih =>
    rw [cellsAt, Memory.writeCells_cons, ih, Memory.read?_write]
    simp only [List.length_cons]
    by_cases hx : x = a
    · subst hx
      rw [if_neg (by omega), if_pos rfl, if_pos (by omega)]
      simp
    · by_cases hin : a + 1 ≤ x ∧ x < a + 1 + bs.length
      · rw [if_pos hin, if_pos (by omega), show x - a = (x - (a + 1)) + 1 by omega, List.getElem?_cons_succ]
      · rw [if_neg hin, if_neg hx, if_neg (by omega)]

theorem Memory.read?_writeBytes_outside (m : Memory) {a : Nat} {bs : List Byte} {x : Nat}
    (h : x < a ∨ a + bs.length ≤ x) : (m.writeBytes a bs).read? x = m.read? x := by
  rw [Memory.read?_writeBytes, if_neg (by omega)]

theorem Memory.read?_writeBytes_inside (m : Memory) {a : Nat} {bs : List Byte} {j : Nat} (h : j < bs.length) :
    (m.writeBytes a bs).read? (a + j) = bs[j]? := by
  rw [Memory.read?_writeBytes, if_pos (by omega), Nat.add_sub_cancel_left]

theorem Memory.wf_writeBytes {m : Memory} (h : m.wf) (a : Nat) (bs : List Byte) : (m.writeBytes a bs).wf :=
  Memory.wf_writeCells h _

theorem Memory.below_writeBytes {m : Memory} {n : Nat} (h : m.below n) {a : Nat} {bs : List Byte}
    (hb : a + bs.length ≤ n) : (m.writeBytes a bs).below n :=
  Memory.below_writeCells h fun _ hc => lt_of_lt_of_le (mem_cellsAt hc).2 hb

/-! ### Reading in a command -/

/-- The two ways a byte read ends. -/
theorem readByte_cases (i : Instr) (m : Memory) (a : Nat) :
    (∃ b, m.read? a = some b ∧ readByte i m a = .ok b) ∨
    (m.read? a = none ∧ readByte i m a = .error (.fault (.unwrittenByte i a))) := by
  unfold readByte
  cases h : m.read? a with
  | some b => exact .inl ⟨b, rfl, rfl⟩
  | none => exact .inr ⟨rfl, rfl⟩

theorem readByte_of_some {i : Instr} {m : Memory} {a : Nat} {b : Byte} (h : m.read? a = some b) :
    readByte i m a = .ok b := by
  simp [readByte, h]

@[simp] theorem readBytes_zero (i : Instr) (m : Memory) (a : Nat) : readBytes i m a 0 = .ok [] := rfl

/-- A read of consecutive bytes succeeds with exactly the bytes there. -/
theorem readBytes_ok_iff {i : Instr} {m : Memory} {a n : Nat} {bs : List Byte} :
    readBytes i m a n = .ok bs ↔ bs.length = n ∧ ∀ j, j < bs.length → m.read? (a + j) = bs[j]? := by
  induction n generalizing a bs with
  | zero =>
    simp only [readBytes, Except.ok.injEq]
    constructor
    · rintro rfl
      simp
    · rintro ⟨h, -⟩
      exact (List.length_eq_zero_iff.1 h).symm
  | succ n ih =>
    rw [readBytes]
    rcases readByte_cases i m a with ⟨b, hb, hr⟩ | ⟨hb, hr⟩
    · simp only [hr, bind, Except.bind]
      constructor
      · intro h
        cases hrest : readBytes i m (a + 1) n with
        | error e => simp [hrest] at h
        | ok cs =>
          simp only [hrest, pure, Except.pure, Except.ok.injEq] at h
          subst h
          obtain ⟨hl, hc⟩ := ih.1 hrest
          refine ⟨by simp [hl], ?_⟩
          rintro (_ | j) hj
          · simpa using hb
          · have := hc j (by simpa using hj)
            rw [show a + (j + 1) = a + 1 + j by omega, this]
            simp
      · rintro ⟨hl, hc⟩
        cases bs with
        | nil => simp at hl
        | cons c cs =>
          have h0 := hc 0 (by simp)
          simp only [Nat.add_zero, hb, List.getElem?_cons_zero, Option.some.injEq] at h0
          subst h0
          have : readBytes i m (a + 1) n = .ok cs := by
            refine ih.2 ⟨by simpa using hl, fun j hj => ?_⟩
            have := hc (j + 1) (by simpa using hj)
            rwa [show a + (j + 1) = a + 1 + j by omega, List.getElem?_cons_succ] at this
          simp [this, pure, Except.pure]
    · simp only [hr, bind, Except.bind]
      constructor
      · intro h
        cases h
      · rintro ⟨hl, hc⟩
        have := hc 0 (by omega)
        simp only [Nat.add_zero, hb] at this
        rw [eq_comm, List.getElem?_eq_none_iff] at this
        omega

/-- A read of consecutive bytes that ends early is the fault naming the command and an unwritten byte among them. -/
theorem readBytes_error {i : Instr} {m : Memory} {a n : Nat} {e : CmdStop} (h : readBytes i m a n = .error e) :
    ∃ j, j < n ∧ m.read? (a + j) = none ∧ e = .fault (.unwrittenByte i (a + j)) := by
  induction n generalizing a e with
  | zero => cases h
  | succ n ih =>
    rw [readBytes] at h
    rcases readByte_cases i m a with ⟨b, hb, hr⟩ | ⟨hb, hr⟩
    · simp only [hr, bind, Except.bind] at h
      cases hrest : readBytes i m (a + 1) n with
      | error e' =>
        simp only [hrest, Except.error.injEq] at h
        obtain ⟨j, hj, hn, he⟩ := ih hrest
        refine ⟨j + 1, by omega, ?_, ?_⟩
        · rwa [show a + (j + 1) = a + 1 + j by omega]
        · rw [← h, he, show a + (j + 1) = a + 1 + j by omega]
      | ok cs => simp [hrest, pure, Except.pure] at h
    · simp only [hr, bind, Except.bind, Except.error.injEq] at h
      exact ⟨0, by omega, by simpa using hb, by simpa using h.symm⟩

/-- Bytes all written can be read. -/
theorem readBytes_of_written {i : Instr} {m : Memory} {a n : Nat}
    (h : ∀ j, j < n → (m.read? (a + j)).isSome = true) : ∃ bs, readBytes i m a n = .ok bs := by
  cases hr : readBytes i m a n with
  | ok bs => exact ⟨bs, rfl⟩
  | error e =>
    obtain ⟨j, hj, hn, -⟩ := readBytes_error hr
    have := h j hj
    simp [hn] at this

/-- Reading does not depend on which command reads, but for the name in the fault. -/
theorem readBytes_ok_of {i : Instr} {m : Memory} {a : Nat} {bs : List Byte}
    (h : ∀ j, j < bs.length → m.read? (a + j) = bs[j]?) : readBytes i m a bs.length = .ok bs :=
  readBytes_ok_iff.2 ⟨rfl, h⟩

theorem readBytes_length {i : Instr} {m : Memory} {a n : Nat} {bs : List Byte} (h : readBytes i m a n = .ok bs) :
    bs.length = n := (readBytes_ok_iff.1 h).1

theorem readWords_length {i : Instr} {m : Memory} {a n : Nat} {ws : List Word} (h : readWords i m a n = .ok ws) :
    ws.length = n := by
  induction n generalizing a ws with
  | zero => simp only [readWords, Except.ok.injEq] at h; subst h; rfl
  | succ n ih =>
    rw [readWords] at h
    cases h1 : readBytes i m a 4 with
    | error e => simp [h1, bind, Except.bind] at h
    | ok bs =>
      cases h2 : readWords i m (a + 4) n with
      | error e => simp [h1, h2, bind, Except.bind] at h
      | ok vs =>
        simp only [h1, h2, bind, Except.bind, pure, Except.pure, Except.ok.injEq] at h
        subst h
        simp [ih h2]

theorem readWords_error {i : Instr} {m : Memory} {a n : Nat} {e : CmdStop} (h : readWords i m a n = .error e) :
    ∃ j, j < 4 * n ∧ m.read? (a + j) = none ∧ e = .fault (.unwrittenByte i (a + j)) := by
  induction n generalizing a e with
  | zero => cases h
  | succ n ih =>
    rw [readWords] at h
    cases h1 : readBytes i m a 4 with
    | error e' =>
      simp only [h1, bind, Except.bind, Except.error.injEq] at h
      obtain ⟨j, hj, hn, he⟩ := readBytes_error h1
      exact ⟨j, by omega, hn, h ▸ he⟩
    | ok bs =>
      cases h2 : readWords i m (a + 4) n with
      | error e' =>
        simp only [h1, h2, bind, Except.bind, Except.error.injEq] at h
        obtain ⟨j, hj, hn, he⟩ := ih h2
        refine ⟨j + 4, by omega, ?_, ?_⟩
        · rwa [show a + (j + 4) = a + 4 + j by omega]
        · rw [← h, he, show a + (j + 4) = a + 4 + j by omega]
      | ok vs => simp [h1, h2, bind, Except.bind, pure, Except.pure] at h

/-- Words are read where their little-endian bytes stand. -/
theorem readWords_ok_of {i : Instr} {m : Memory} {a : Nat} {ws : List Word}
    (h : ∀ j, j < ws.length → ∀ k, k < 4 →
      m.read? (a + 4 * j + k) = (leBytes 4 (ws.getD j 0).toNat)[k]?) :
    readWords i m a ws.length = .ok ws := by
  induction ws generalizing a with
  | nil => rfl
  | cons w ws ih =>
    have h0 : readBytes i m a 4 = .ok (leBytes 4 w.toNat) := by
      refine readBytes_ok_iff.2 ⟨rfl, fun k hk => ?_⟩
      have := h 0 (by simp) k hk
      simpa using this
    have h1 : readWords i m (a + 4) ws.length = .ok ws := by
      refine ih fun j hj k hk => ?_
      have := h (j + 1) (by simpa using hj) k hk
      rw [show a + 4 * (j + 1) + k = a + 4 + 4 * j + k by omega] at this
      simpa using this
    have hv : BitVec.ofNat 32 (leValue (leBytes 4 w.toNat)) = w := by
      apply BitVec.eq_of_toNat_eq
      have := w.isLt
      simp only [leBytes, leValue, BitVec.toNat_ofNat]
      omega
    rw [List.length_cons, readWords]
    simp [h0, h1, hv, bind, Except.bind, pure, Except.pure]

/-! ### Little-endian values -/

@[simp] theorem leBytes_length (n v : Nat) : (leBytes n v).length = n := by
  induction n generalizing v with
  | zero => rfl
  | succ n ih => simp [leBytes, ih]

theorem leValue_leBytes (n v : Nat) : leValue (leBytes n v) = v % 256 ^ n := by
  induction n generalizing v with
  | zero => simp [leBytes, leValue, Nat.mod_one]
  | succ n ih =>
    rw [leBytes, leValue, ih, BitVec.toNat_ofNat, show 256 ^ (n + 1) = 256 * 256 ^ n by ring]
    exact Nat.mod_mul.symm

theorem leValue_lt (bs : List Byte) : leValue bs < 256 ^ bs.length := by
  induction bs with
  | nil => simp [leValue]
  | cons b bs ih =>
    have := b.isLt
    rw [leValue, List.length_cons, Nat.pow_succ]
    omega

end Sys2Proof.Machine
end

