-- ==== Sys2Proof/Laws/State.lean ====
section
/-! SUPPORT. One lemma per field of State and per named update, each true by unfolding the update once. -/

namespace Sys2Proof.Machine

/-! ### complete -/

@[simp] theorem complete_params (s : State) : (complete s).params = s.params := rfl
@[simp] theorem complete_cfg (s : State) : (complete s).cfg = s.cfg := rfl
@[simp] theorem complete_cmd (s : State) : (complete s).cmd = s.cmd := rfl
@[simp] theorem complete_args (s : State) : (complete s).args = s.args := rfl
@[simp] theorem complete_res (s : State) : (complete s).res = s.res := rfl
@[simp] theorem complete_busy (s : State) : (complete s).busy = false := rfl
@[simp] theorem complete_done (s : State) : (complete s).done = true := rfl
@[simp] theorem complete_err (s : State) : (complete s).err = s.err := rfl
@[simp] theorem complete_backend (s : State) : (complete s).backend = s.backend := rfl
@[simp] theorem complete_br (s : State) : (complete s).br = s.br := rfl
@[simp] theorem complete_ht (s : State) : (complete s).ht = s.ht := rfl
@[simp] theorem complete_lmem (s : State) : (complete s).lmem = s.lmem := rfl
@[simp] theorem complete_pending (s : State) : (complete s).pending = s.pending := rfl
@[simp] theorem complete_snapArgs (s : State) : (complete s).snapArgs = s.snapArgs := rfl
@[simp] theorem complete_snapCfg (s : State) : (complete s).snapCfg = s.snapCfg := rfl
@[simp] theorem complete_inReset (s : State) : (complete s).inReset = s.inReset := rfl
@[simp] theorem complete_script (s : State) : (complete s).script = s.script := rfl
@[simp] theorem complete_readLog (s : State) : (complete s).readLog = s.readLog := rfl
@[simp] theorem complete_delay (s : State) : (complete s).delay = s.delay := rfl
@[simp] theorem complete_freeCtr (s : State) : (complete s).freeCtr = s.freeCtr := rfl

/-! ### recordError -/

@[simp] theorem recordError_params (opc : BitVec 8) (k : ErrKind) (s : State) : (recordError opc k s).params = s.params := rfl
@[simp] theorem recordError_cfg (opc : BitVec 8) (k : ErrKind) (s : State) : (recordError opc k s).cfg = s.cfg := rfl
@[simp] theorem recordError_cmd (opc : BitVec 8) (k : ErrKind) (s : State) : (recordError opc k s).cmd = s.cmd := rfl
@[simp] theorem recordError_args (opc : BitVec 8) (k : ErrKind) (s : State) : (recordError opc k s).args = s.args := rfl
@[simp] theorem recordError_res (opc : BitVec 8) (k : ErrKind) (s : State) : (recordError opc k s).res = s.res := rfl
@[simp] theorem recordError_busy (opc : BitVec 8) (k : ErrKind) (s : State) : (recordError opc k s).busy = s.busy := rfl
@[simp] theorem recordError_done (opc : BitVec 8) (k : ErrKind) (s : State) : (recordError opc k s).done = s.done := rfl
@[simp] theorem recordError_err (opc : BitVec 8) (k : ErrKind) (s : State) :
    (recordError opc k s).err = (match s.err with | some e => some e | none => some { kind := k, opc := opc }) := rfl
@[simp] theorem recordError_backend (opc : BitVec 8) (k : ErrKind) (s : State) : (recordError opc k s).backend = s.backend := rfl
@[simp] theorem recordError_br (opc : BitVec 8) (k : ErrKind) (s : State) : (recordError opc k s).br = s.br := rfl
@[simp] theorem recordError_ht (opc : BitVec 8) (k : ErrKind) (s : State) : (recordError opc k s).ht = s.ht := rfl
@[simp] theorem recordError_lmem (opc : BitVec 8) (k : ErrKind) (s : State) : (recordError opc k s).lmem = s.lmem := rfl
@[simp] theorem recordError_pending (opc : BitVec 8) (k : ErrKind) (s : State) : (recordError opc k s).pending = s.pending := rfl
@[simp] theorem recordError_snapArgs (opc : BitVec 8) (k : ErrKind) (s : State) : (recordError opc k s).snapArgs = s.snapArgs := rfl
@[simp] theorem recordError_snapCfg (opc : BitVec 8) (k : ErrKind) (s : State) : (recordError opc k s).snapCfg = s.snapCfg := rfl
@[simp] theorem recordError_inReset (opc : BitVec 8) (k : ErrKind) (s : State) : (recordError opc k s).inReset = s.inReset := rfl
@[simp] theorem recordError_script (opc : BitVec 8) (k : ErrKind) (s : State) : (recordError opc k s).script = s.script := rfl
@[simp] theorem recordError_readLog (opc : BitVec 8) (k : ErrKind) (s : State) : (recordError opc k s).readLog = s.readLog := rfl
@[simp] theorem recordError_delay (opc : BitVec 8) (k : ErrKind) (s : State) : (recordError opc k s).delay = s.delay := rfl
@[simp] theorem recordError_freeCtr (opc : BitVec 8) (k : ErrKind) (s : State) : (recordError opc k s).freeCtr = s.freeCtr := rfl

/-! ### raiseError -/

@[simp] theorem raiseError_params (opc : BitVec 8) (k : ErrKind) (s : State) : (raiseError opc k s).params = s.params := rfl
@[simp] theorem raiseError_cfg (opc : BitVec 8) (k : ErrKind) (s : State) : (raiseError opc k s).cfg = s.cfg := rfl
@[simp] theorem raiseError_cmd (opc : BitVec 8) (k : ErrKind) (s : State) : (raiseError opc k s).cmd = s.cmd := rfl
@[simp] theorem raiseError_args (opc : BitVec 8) (k : ErrKind) (s : State) : (raiseError opc k s).args = s.args := rfl
@[simp] theorem raiseError_res (opc : BitVec 8) (k : ErrKind) (s : State) : (raiseError opc k s).res = s.res := rfl
@[simp] theorem raiseError_busy (opc : BitVec 8) (k : ErrKind) (s : State) : (raiseError opc k s).busy = false := rfl
@[simp] theorem raiseError_done (opc : BitVec 8) (k : ErrKind) (s : State) : (raiseError opc k s).done = s.done := rfl
@[simp] theorem raiseError_err (opc : BitVec 8) (k : ErrKind) (s : State) :
    (raiseError opc k s).err = (match s.err with | some e => some e | none => some { kind := k, opc := opc }) := rfl
@[simp] theorem raiseError_backend (opc : BitVec 8) (k : ErrKind) (s : State) : (raiseError opc k s).backend = s.backend := rfl
@[simp] theorem raiseError_br (opc : BitVec 8) (k : ErrKind) (s : State) : (raiseError opc k s).br = s.br := rfl
@[simp] theorem raiseError_ht (opc : BitVec 8) (k : ErrKind) (s : State) : (raiseError opc k s).ht = s.ht := rfl
@[simp] theorem raiseError_lmem (opc : BitVec 8) (k : ErrKind) (s : State) : (raiseError opc k s).lmem = s.lmem := rfl
@[simp] theorem raiseError_pending (opc : BitVec 8) (k : ErrKind) (s : State) : (raiseError opc k s).pending = s.pending := rfl
@[simp] theorem raiseError_snapArgs (opc : BitVec 8) (k : ErrKind) (s : State) : (raiseError opc k s).snapArgs = s.snapArgs := rfl
@[simp] theorem raiseError_snapCfg (opc : BitVec 8) (k : ErrKind) (s : State) : (raiseError opc k s).snapCfg = s.snapCfg := rfl
@[simp] theorem raiseError_inReset (opc : BitVec 8) (k : ErrKind) (s : State) : (raiseError opc k s).inReset = s.inReset := rfl
@[simp] theorem raiseError_script (opc : BitVec 8) (k : ErrKind) (s : State) : (raiseError opc k s).script = s.script := rfl
@[simp] theorem raiseError_readLog (opc : BitVec 8) (k : ErrKind) (s : State) : (raiseError opc k s).readLog = s.readLog := rfl
@[simp] theorem raiseError_delay (opc : BitVec 8) (k : ErrKind) (s : State) : (raiseError opc k s).delay = s.delay := rfl
@[simp] theorem raiseError_freeCtr (opc : BitVec 8) (k : ErrKind) (s : State) : (raiseError opc k s).freeCtr = s.freeCtr := rfl

/-! ### clearError -/

@[simp] theorem clearError_params (s : State) : (clearError s).params = s.params := rfl
@[simp] theorem clearError_cfg (s : State) : (clearError s).cfg = s.cfg := rfl
@[simp] theorem clearError_cmd (s : State) : (clearError s).cmd = s.cmd := rfl
@[simp] theorem clearError_args (s : State) : (clearError s).args = s.args := rfl
@[simp] theorem clearError_res (s : State) : (clearError s).res = s.res := rfl
@[simp] theorem clearError_busy (s : State) : (clearError s).busy = s.busy := rfl
@[simp] theorem clearError_done (s : State) : (clearError s).done = s.done := rfl
@[simp] theorem clearError_err (s : State) : (clearError s).err = none := rfl
@[simp] theorem clearError_backend (s : State) : (clearError s).backend = s.backend := rfl
@[simp] theorem clearError_br (s : State) : (clearError s).br = s.br := rfl
@[simp] theorem clearError_ht (s : State) : (clearError s).ht = s.ht := rfl
@[simp] theorem clearError_lmem (s : State) : (clearError s).lmem = s.lmem := rfl
@[simp] theorem clearError_pending (s : State) : (clearError s).pending = s.pending := rfl
@[simp] theorem clearError_snapArgs (s : State) : (clearError s).snapArgs = s.snapArgs := rfl
@[simp] theorem clearError_snapCfg (s : State) : (clearError s).snapCfg = s.snapCfg := rfl
@[simp] theorem clearError_inReset (s : State) : (clearError s).inReset = s.inReset := rfl
@[simp] theorem clearError_script (s : State) : (clearError s).script = s.script := rfl
@[simp] theorem clearError_readLog (s : State) : (clearError s).readLog = s.readLog := rfl
@[simp] theorem clearError_delay (s : State) : (clearError s).delay = s.delay := rfl
@[simp] theorem clearError_freeCtr (s : State) : (clearError s).freeCtr = s.freeCtr := rfl

/-! ### setRes0 -/

@[simp] theorem setRes0_params (s : State) (a : Word) : (s.setRes0 a).params = s.params := rfl
@[simp] theorem setRes0_cfg (s : State) (a : Word) : (s.setRes0 a).cfg = s.cfg := rfl
@[simp] theorem setRes0_cmd (s : State) (a : Word) : (s.setRes0 a).cmd = s.cmd := rfl
@[simp] theorem setRes0_args (s : State) (a : Word) : (s.setRes0 a).args = s.args := rfl
@[simp] theorem setRes0_res (s : State) (a : Word) : (s.setRes0 a).res = { s.res with res0 := a } := rfl
@[simp] theorem setRes0_busy (s : State) (a : Word) : (s.setRes0 a).busy = s.busy := rfl
@[simp] theorem setRes0_done (s : State) (a : Word) : (s.setRes0 a).done = s.done := rfl
@[simp] theorem setRes0_err (s : State) (a : Word) : (s.setRes0 a).err = s.err := rfl
@[simp] theorem setRes0_backend (s : State) (a : Word) : (s.setRes0 a).backend = s.backend := rfl
@[simp] theorem setRes0_br (s : State) (a : Word) : (s.setRes0 a).br = s.br := rfl
@[simp] theorem setRes0_ht (s : State) (a : Word) : (s.setRes0 a).ht = s.ht := rfl
@[simp] theorem setRes0_lmem (s : State) (a : Word) : (s.setRes0 a).lmem = s.lmem := rfl
@[simp] theorem setRes0_pending (s : State) (a : Word) : (s.setRes0 a).pending = s.pending := rfl
@[simp] theorem setRes0_snapArgs (s : State) (a : Word) : (s.setRes0 a).snapArgs = s.snapArgs := rfl
@[simp] theorem setRes0_snapCfg (s : State) (a : Word) : (s.setRes0 a).snapCfg = s.snapCfg := rfl
@[simp] theorem setRes0_inReset (s : State) (a : Word) : (s.setRes0 a).inReset = s.inReset := rfl
@[simp] theorem setRes0_script (s : State) (a : Word) : (s.setRes0 a).script = s.script := rfl
@[simp] theorem setRes0_readLog (s : State) (a : Word) : (s.setRes0 a).readLog = s.readLog := rfl
@[simp] theorem setRes0_delay (s : State) (a : Word) : (s.setRes0 a).delay = s.delay := rfl
@[simp] theorem setRes0_freeCtr (s : State) (a : Word) : (s.setRes0 a).freeCtr = s.freeCtr := rfl

/-! ### setRes01 -/

@[simp] theorem setRes01_params (s : State) (a b : Word) : (s.setRes01 a b).params = s.params := rfl
@[simp] theorem setRes01_cfg (s : State) (a b : Word) : (s.setRes01 a b).cfg = s.cfg := rfl
@[simp] theorem setRes01_cmd (s : State) (a b : Word) : (s.setRes01 a b).cmd = s.cmd := rfl
@[simp] theorem setRes01_args (s : State) (a b : Word) : (s.setRes01 a b).args = s.args := rfl
@[simp] theorem setRes01_res (s : State) (a b : Word) : (s.setRes01 a b).res = { s.res with res0 := a, res1 := b } := rfl
@[simp] theorem setRes01_busy (s : State) (a b : Word) : (s.setRes01 a b).busy = s.busy := rfl
@[simp] theorem setRes01_done (s : State) (a b : Word) : (s.setRes01 a b).done = s.done := rfl
@[simp] theorem setRes01_err (s : State) (a b : Word) : (s.setRes01 a b).err = s.err := rfl
@[simp] theorem setRes01_backend (s : State) (a b : Word) : (s.setRes01 a b).backend = s.backend := rfl
@[simp] theorem setRes01_br (s : State) (a b : Word) : (s.setRes01 a b).br = s.br := rfl
@[simp] theorem setRes01_ht (s : State) (a b : Word) : (s.setRes01 a b).ht = s.ht := rfl
@[simp] theorem setRes01_lmem (s : State) (a b : Word) : (s.setRes01 a b).lmem = s.lmem := rfl
@[simp] theorem setRes01_pending (s : State) (a b : Word) : (s.setRes01 a b).pending = s.pending := rfl
@[simp] theorem setRes01_snapArgs (s : State) (a b : Word) : (s.setRes01 a b).snapArgs = s.snapArgs := rfl
@[simp] theorem setRes01_snapCfg (s : State) (a b : Word) : (s.setRes01 a b).snapCfg = s.snapCfg := rfl
@[simp] theorem setRes01_inReset (s : State) (a b : Word) : (s.setRes01 a b).inReset = s.inReset := rfl
@[simp] theorem setRes01_script (s : State) (a b : Word) : (s.setRes01 a b).script = s.script := rfl
@[simp] theorem setRes01_readLog (s : State) (a b : Word) : (s.setRes01 a b).readLog = s.readLog := rfl
@[simp] theorem setRes01_delay (s : State) (a b : Word) : (s.setRes01 a b).delay = s.delay := rfl
@[simp] theorem setRes01_freeCtr (s : State) (a b : Word) : (s.setRes01 a b).freeCtr = s.freeCtr := rfl

/-! ### setRes012 -/

@[simp] theorem setRes012_params (s : State) (a b c : Word) : (s.setRes012 a b c).params = s.params := rfl
@[simp] theorem setRes012_cfg (s : State) (a b c : Word) : (s.setRes012 a b c).cfg = s.cfg := rfl
@[simp] theorem setRes012_cmd (s : State) (a b c : Word) : (s.setRes012 a b c).cmd = s.cmd := rfl
@[simp] theorem setRes012_args (s : State) (a b c : Word) : (s.setRes012 a b c).args = s.args := rfl
@[simp] theorem setRes012_res (s : State) (a b c : Word) : (s.setRes012 a b c).res = { res0 := a, res1 := b, res2 := c } := rfl
@[simp] theorem setRes012_busy (s : State) (a b c : Word) : (s.setRes012 a b c).busy = s.busy := rfl
@[simp] theorem setRes012_done (s : State) (a b c : Word) : (s.setRes012 a b c).done = s.done := rfl
@[simp] theorem setRes012_err (s : State) (a b c : Word) : (s.setRes012 a b c).err = s.err := rfl
@[simp] theorem setRes012_backend (s : State) (a b c : Word) : (s.setRes012 a b c).backend = s.backend := rfl
@[simp] theorem setRes012_br (s : State) (a b c : Word) : (s.setRes012 a b c).br = s.br := rfl
@[simp] theorem setRes012_ht (s : State) (a b c : Word) : (s.setRes012 a b c).ht = s.ht := rfl
@[simp] theorem setRes012_lmem (s : State) (a b c : Word) : (s.setRes012 a b c).lmem = s.lmem := rfl
@[simp] theorem setRes012_pending (s : State) (a b c : Word) : (s.setRes012 a b c).pending = s.pending := rfl
@[simp] theorem setRes012_snapArgs (s : State) (a b c : Word) : (s.setRes012 a b c).snapArgs = s.snapArgs := rfl
@[simp] theorem setRes012_snapCfg (s : State) (a b c : Word) : (s.setRes012 a b c).snapCfg = s.snapCfg := rfl
@[simp] theorem setRes012_inReset (s : State) (a b c : Word) : (s.setRes012 a b c).inReset = s.inReset := rfl
@[simp] theorem setRes012_script (s : State) (a b c : Word) : (s.setRes012 a b c).script = s.script := rfl
@[simp] theorem setRes012_readLog (s : State) (a b c : Word) : (s.setRes012 a b c).readLog = s.readLog := rfl
@[simp] theorem setRes012_delay (s : State) (a b c : Word) : (s.setRes012 a b c).delay = s.delay := rfl
@[simp] theorem setRes012_freeCtr (s : State) (a b c : Word) : (s.setRes012 a b c).freeCtr = s.freeCtr := rfl

/-! ### setSlot -/

@[simp] theorem setSlot_params (s : State) (t : BitVec 3) (x : HtSlot) : (s.setSlot t x).params = s.params := rfl
@[simp] theorem setSlot_cfg (s : State) (t : BitVec 3) (x : HtSlot) : (s.setSlot t x).cfg = s.cfg := rfl
@[simp] theorem setSlot_cmd (s : State) (t : BitVec 3) (x : HtSlot) : (s.setSlot t x).cmd = s.cmd := rfl
@[simp] theorem setSlot_args (s : State) (t : BitVec 3) (x : HtSlot) : (s.setSlot t x).args = s.args := rfl
@[simp] theorem setSlot_res (s : State) (t : BitVec 3) (x : HtSlot) : (s.setSlot t x).res = s.res := rfl
@[simp] theorem setSlot_busy (s : State) (t : BitVec 3) (x : HtSlot) : (s.setSlot t x).busy = s.busy := rfl
@[simp] theorem setSlot_done (s : State) (t : BitVec 3) (x : HtSlot) : (s.setSlot t x).done = s.done := rfl
@[simp] theorem setSlot_err (s : State) (t : BitVec 3) (x : HtSlot) : (s.setSlot t x).err = s.err := rfl
@[simp] theorem setSlot_backend (s : State) (t : BitVec 3) (x : HtSlot) : (s.setSlot t x).backend = s.backend := rfl
@[simp] theorem setSlot_br (s : State) (t : BitVec 3) (x : HtSlot) : (s.setSlot t x).br = s.br := rfl
@[simp] theorem setSlot_ht (s : State) (t : BitVec 3) (x : HtSlot) : (s.setSlot t x).ht = s.ht.set t.toNat x t.isLt := rfl
@[simp] theorem setSlot_lmem (s : State) (t : BitVec 3) (x : HtSlot) : (s.setSlot t x).lmem = s.lmem := rfl
@[simp] theorem setSlot_pending (s : State) (t : BitVec 3) (x : HtSlot) : (s.setSlot t x).pending = s.pending := rfl
@[simp] theorem setSlot_snapArgs (s : State) (t : BitVec 3) (x : HtSlot) : (s.setSlot t x).snapArgs = s.snapArgs := rfl
@[simp] theorem setSlot_snapCfg (s : State) (t : BitVec 3) (x : HtSlot) : (s.setSlot t x).snapCfg = s.snapCfg := rfl
@[simp] theorem setSlot_inReset (s : State) (t : BitVec 3) (x : HtSlot) : (s.setSlot t x).inReset = s.inReset := rfl
@[simp] theorem setSlot_script (s : State) (t : BitVec 3) (x : HtSlot) : (s.setSlot t x).script = s.script := rfl
@[simp] theorem setSlot_readLog (s : State) (t : BitVec 3) (x : HtSlot) : (s.setSlot t x).readLog = s.readLog := rfl
@[simp] theorem setSlot_delay (s : State) (t : BitVec 3) (x : HtSlot) : (s.setSlot t x).delay = s.delay := rfl
@[simp] theorem setSlot_freeCtr (s : State) (t : BitVec 3) (x : HtSlot) : (s.setSlot t x).freeCtr = s.freeCtr := rfl

/-! ### initCore -/

@[simp] theorem initCore_params (s : State) : (initCore s).params = s.params := rfl
@[simp] theorem initCore_cfg (s : State) : (initCore s).cfg = s.cfg := rfl
@[simp] theorem initCore_cmd (s : State) : (initCore s).cmd = s.cmd := rfl
@[simp] theorem initCore_args (s : State) : (initCore s).args = s.args := rfl
@[simp] theorem initCore_res (s : State) : (initCore s).res = .zero := rfl
@[simp] theorem initCore_busy (s : State) : (initCore s).busy = s.busy := rfl
@[simp] theorem initCore_done (s : State) : (initCore s).done = s.done := rfl
@[simp] theorem initCore_err (s : State) : (initCore s).err = none := rfl
@[simp] theorem initCore_backend (s : State) : (initCore s).backend = selectBackend s.params s.snapCfg := rfl
@[simp] theorem initCore_br (s : State) : (initCore s).br = .zero := rfl
@[simp] theorem initCore_ht (s : State) : (initCore s).ht = invalidateAll s.ht := rfl
@[simp] theorem initCore_lmem (s : State) : (initCore s).lmem = s.lmem := rfl
@[simp] theorem initCore_pending (s : State) : (initCore s).pending = s.pending := rfl
@[simp] theorem initCore_snapArgs (s : State) : (initCore s).snapArgs = s.snapArgs := rfl
@[simp] theorem initCore_snapCfg (s : State) : (initCore s).snapCfg = s.snapCfg := rfl
@[simp] theorem initCore_inReset (s : State) : (initCore s).inReset = s.inReset := rfl
@[simp] theorem initCore_script (s : State) : (initCore s).script = s.script := rfl
@[simp] theorem initCore_readLog (s : State) : (initCore s).readLog = s.readLog := rfl
@[simp] theorem initCore_delay (s : State) : (initCore s).delay = s.delay := rfl
@[simp] theorem initCore_freeCtr (s : State) : (initCore s).freeCtr = s.freeCtr := rfl

/-! ### latchCommand -/

@[simp] theorem latchCommand_params (w : Word) (s : State) : (latchCommand w s).params = s.params := rfl
@[simp] theorem latchCommand_cfg (w : Word) (s : State) : (latchCommand w s).cfg = s.cfg := rfl
@[simp] theorem latchCommand_cmd (w : Word) (s : State) : (latchCommand w s).cmd = s.cmd := rfl
@[simp] theorem latchCommand_args (w : Word) (s : State) : (latchCommand w s).args = s.args := rfl
@[simp] theorem latchCommand_res (w : Word) (s : State) : (latchCommand w s).res = s.res := rfl
@[simp] theorem latchCommand_busy (w : Word) (s : State) : (latchCommand w s).busy = true := rfl
@[simp] theorem latchCommand_done (w : Word) (s : State) : (latchCommand w s).done = false := rfl
@[simp] theorem latchCommand_err (w : Word) (s : State) : (latchCommand w s).err = s.err := rfl
@[simp] theorem latchCommand_backend (w : Word) (s : State) : (latchCommand w s).backend = s.backend := rfl
@[simp] theorem latchCommand_br (w : Word) (s : State) : (latchCommand w s).br = s.br := rfl
@[simp] theorem latchCommand_ht (w : Word) (s : State) : (latchCommand w s).ht = s.ht := rfl
@[simp] theorem latchCommand_lmem (w : Word) (s : State) : (latchCommand w s).lmem = s.lmem := rfl
@[simp] theorem latchCommand_pending (w : Word) (s : State) : (latchCommand w s).pending = w := rfl
@[simp] theorem latchCommand_snapArgs (w : Word) (s : State) : (latchCommand w s).snapArgs = s.args := rfl
@[simp] theorem latchCommand_snapCfg (w : Word) (s : State) : (latchCommand w s).snapCfg = s.cfg := rfl
@[simp] theorem latchCommand_inReset (w : Word) (s : State) : (latchCommand w s).inReset = s.inReset := rfl
@[simp] theorem latchCommand_script (w : Word) (s : State) : (latchCommand w s).script = s.script := rfl
@[simp] theorem latchCommand_readLog (w : Word) (s : State) : (latchCommand w s).readLog = s.readLog := rfl
@[simp] theorem latchCommand_delay (w : Word) (s : State) : (latchCommand w s).delay = s.delay := rfl
@[simp] theorem latchCommand_freeCtr (w : Word) (s : State) : (latchCommand w s).freeCtr = s.freeCtr := rfl

/-! ### acceptCommand -/

@[simp] theorem acceptCommand_params (w : Word) (s : State) : (acceptCommand w s).params = s.params := rfl
@[simp] theorem acceptCommand_cfg (w : Word) (s : State) : (acceptCommand w s).cfg = s.cfg := rfl
@[simp] theorem acceptCommand_cmd (w : Word) (s : State) : (acceptCommand w s).cmd = s.cmd := rfl
@[simp] theorem acceptCommand_args (w : Word) (s : State) : (acceptCommand w s).args = s.args := rfl
@[simp] theorem acceptCommand_res (w : Word) (s : State) : (acceptCommand w s).res = s.res := rfl
@[simp] theorem acceptCommand_busy (w : Word) (s : State) : (acceptCommand w s).busy = true := rfl
@[simp] theorem acceptCommand_done (w : Word) (s : State) : (acceptCommand w s).done = false := rfl
@[simp] theorem acceptCommand_err (w : Word) (s : State) : (acceptCommand w s).err = s.err := rfl
@[simp] theorem acceptCommand_backend (w : Word) (s : State) : (acceptCommand w s).backend = s.backend := rfl
@[simp] theorem acceptCommand_br (w : Word) (s : State) : (acceptCommand w s).br = s.br := rfl
@[simp] theorem acceptCommand_ht (w : Word) (s : State) : (acceptCommand w s).ht = s.ht := rfl
@[simp] theorem acceptCommand_lmem (w : Word) (s : State) : (acceptCommand w s).lmem = s.lmem := rfl
@[simp] theorem acceptCommand_pending (w : Word) (s : State) : (acceptCommand w s).pending = w := rfl
@[simp] theorem acceptCommand_snapArgs (w : Word) (s : State) : (acceptCommand w s).snapArgs = s.args := rfl
@[simp] theorem acceptCommand_snapCfg (w : Word) (s : State) : (acceptCommand w s).snapCfg = s.cfg := rfl
@[simp] theorem acceptCommand_inReset (w : Word) (s : State) : (acceptCommand w s).inReset = s.inReset := rfl
@[simp] theorem acceptCommand_script (w : Word) (s : State) : (acceptCommand w s).script = s.script := rfl
@[simp] theorem acceptCommand_readLog (w : Word) (s : State) : (acceptCommand w s).readLog = s.readLog := rfl
@[simp] theorem acceptCommand_delay (w : Word) (s : State) : (acceptCommand w s).delay = Config.freeDelay s.freeCtr := rfl
@[simp] theorem acceptCommand_freeCtr (w : Word) (s : State) : (acceptCommand w s).freeCtr = s.freeCtr + 1 := rfl

/-! ### tick -/

@[simp] theorem tick_params (s : State) : (tick s).params = s.params := rfl
@[simp] theorem tick_cfg (s : State) : (tick s).cfg = s.cfg := rfl
@[simp] theorem tick_cmd (s : State) : (tick s).cmd = s.cmd := rfl
@[simp] theorem tick_args (s : State) : (tick s).args = s.args := rfl
@[simp] theorem tick_res (s : State) : (tick s).res = s.res := rfl
@[simp] theorem tick_busy (s : State) : (tick s).busy = s.busy := rfl
@[simp] theorem tick_done (s : State) : (tick s).done = s.done := rfl
@[simp] theorem tick_err (s : State) : (tick s).err = s.err := rfl
@[simp] theorem tick_backend (s : State) : (tick s).backend = s.backend := rfl
@[simp] theorem tick_br (s : State) : (tick s).br = s.br := rfl
@[simp] theorem tick_ht (s : State) : (tick s).ht = s.ht := rfl
@[simp] theorem tick_lmem (s : State) : (tick s).lmem = s.lmem := rfl
@[simp] theorem tick_pending (s : State) : (tick s).pending = s.pending := rfl
@[simp] theorem tick_snapArgs (s : State) : (tick s).snapArgs = s.snapArgs := rfl
@[simp] theorem tick_snapCfg (s : State) : (tick s).snapCfg = s.snapCfg := rfl
@[simp] theorem tick_inReset (s : State) : (tick s).inReset = s.inReset := rfl
@[simp] theorem tick_script (s : State) : (tick s).script = s.script := rfl
@[simp] theorem tick_readLog (s : State) : (tick s).readLog = s.readLog := rfl
@[simp] theorem tick_delay (s : State) : (tick s).delay = s.delay - 1 := rfl
@[simp] theorem tick_freeCtr (s : State) : (tick s).freeCtr = s.freeCtr := rfl

/-! ### drawn -/

@[simp] theorem drawn_params (s : State) : (drawn s).params = s.params := rfl
@[simp] theorem drawn_cfg (s : State) : (drawn s).cfg = s.cfg := rfl
@[simp] theorem drawn_cmd (s : State) : (drawn s).cmd = s.cmd := rfl
@[simp] theorem drawn_args (s : State) : (drawn s).args = s.args := rfl
@[simp] theorem drawn_res (s : State) : (drawn s).res = s.res := rfl
@[simp] theorem drawn_busy (s : State) : (drawn s).busy = s.busy := rfl
@[simp] theorem drawn_done (s : State) : (drawn s).done = s.done := rfl
@[simp] theorem drawn_err (s : State) : (drawn s).err = s.err := rfl
@[simp] theorem drawn_backend (s : State) : (drawn s).backend = s.backend := rfl
@[simp] theorem drawn_br (s : State) : (drawn s).br = s.br := rfl
@[simp] theorem drawn_ht (s : State) : (drawn s).ht = s.ht := rfl
@[simp] theorem drawn_lmem (s : State) : (drawn s).lmem = s.lmem := rfl
@[simp] theorem drawn_pending (s : State) : (drawn s).pending = s.pending := rfl
@[simp] theorem drawn_snapArgs (s : State) : (drawn s).snapArgs = s.snapArgs := rfl
@[simp] theorem drawn_snapCfg (s : State) : (drawn s).snapCfg = s.snapCfg := rfl
@[simp] theorem drawn_inReset (s : State) : (drawn s).inReset = s.inReset := rfl
@[simp] theorem drawn_script (s : State) : (drawn s).script = s.script := rfl
@[simp] theorem drawn_readLog (s : State) : (drawn s).readLog = s.readLog := rfl
@[simp] theorem drawn_delay (s : State) : (drawn s).delay = s.delay := rfl
@[simp] theorem drawn_freeCtr (s : State) : (drawn s).freeCtr = s.freeCtr + 1 := rfl

/-! ### withProgram -/

@[simp] theorem withProgram_params (s : State) (p : List HostStmt) : (s.withProgram p).params = s.params := rfl
@[simp] theorem withProgram_cfg (s : State) (p : List HostStmt) : (s.withProgram p).cfg = s.cfg := rfl
@[simp] theorem withProgram_cmd (s : State) (p : List HostStmt) : (s.withProgram p).cmd = s.cmd := rfl
@[simp] theorem withProgram_args (s : State) (p : List HostStmt) : (s.withProgram p).args = s.args := rfl
@[simp] theorem withProgram_res (s : State) (p : List HostStmt) : (s.withProgram p).res = s.res := rfl
@[simp] theorem withProgram_busy (s : State) (p : List HostStmt) : (s.withProgram p).busy = s.busy := rfl
@[simp] theorem withProgram_done (s : State) (p : List HostStmt) : (s.withProgram p).done = s.done := rfl
@[simp] theorem withProgram_err (s : State) (p : List HostStmt) : (s.withProgram p).err = s.err := rfl
@[simp] theorem withProgram_backend (s : State) (p : List HostStmt) : (s.withProgram p).backend = s.backend := rfl
@[simp] theorem withProgram_br (s : State) (p : List HostStmt) : (s.withProgram p).br = s.br := rfl
@[simp] theorem withProgram_ht (s : State) (p : List HostStmt) : (s.withProgram p).ht = s.ht := rfl
@[simp] theorem withProgram_lmem (s : State) (p : List HostStmt) : (s.withProgram p).lmem = s.lmem := rfl
@[simp] theorem withProgram_pending (s : State) (p : List HostStmt) : (s.withProgram p).pending = s.pending := rfl
@[simp] theorem withProgram_snapArgs (s : State) (p : List HostStmt) : (s.withProgram p).snapArgs = s.snapArgs := rfl
@[simp] theorem withProgram_snapCfg (s : State) (p : List HostStmt) : (s.withProgram p).snapCfg = s.snapCfg := rfl
@[simp] theorem withProgram_inReset (s : State) (p : List HostStmt) : (s.withProgram p).inReset = s.inReset := rfl
@[simp] theorem withProgram_script (s : State) (p : List HostStmt) : (s.withProgram p).script = p.flatMap HostStmt.ops := rfl
@[simp] theorem withProgram_readLog (s : State) (p : List HostStmt) : (s.withProgram p).readLog = s.readLog := rfl
@[simp] theorem withProgram_delay (s : State) (p : List HostStmt) : (s.withProgram p).delay = s.delay := rfl
@[simp] theorem withProgram_freeCtr (s : State) (p : List HostStmt) : (s.withProgram p).freeCtr = s.freeCtr := rfl

/-! ### withFetchWord -/

@[simp] theorem withFetchWord_params (s : State) (nbits w : Nat) : (s.withFetchWord nbits w).params = s.params := rfl
@[simp] theorem withFetchWord_cfg (s : State) (nbits w : Nat) : (s.withFetchWord nbits w).cfg = s.cfg := rfl
@[simp] theorem withFetchWord_cmd (s : State) (nbits w : Nat) : (s.withFetchWord nbits w).cmd = BitVec.ofNat 32 (w % 2 ^ nbits) := rfl
@[simp] theorem withFetchWord_args (s : State) (nbits w : Nat) : (s.withFetchWord nbits w).args = s.args := rfl
@[simp] theorem withFetchWord_res (s : State) (nbits w : Nat) : (s.withFetchWord nbits w).res = s.res := rfl
@[simp] theorem withFetchWord_busy (s : State) (nbits w : Nat) : (s.withFetchWord nbits w).busy = true := rfl
@[simp] theorem withFetchWord_done (s : State) (nbits w : Nat) : (s.withFetchWord nbits w).done = false := rfl
@[simp] theorem withFetchWord_err (s : State) (nbits w : Nat) : (s.withFetchWord nbits w).err = s.err := rfl
@[simp] theorem withFetchWord_backend (s : State) (nbits w : Nat) : (s.withFetchWord nbits w).backend = s.backend := rfl
@[simp] theorem withFetchWord_br (s : State) (nbits w : Nat) : (s.withFetchWord nbits w).br = s.br := rfl
@[simp] theorem withFetchWord_ht (s : State) (nbits w : Nat) : (s.withFetchWord nbits w).ht = s.ht := rfl
@[simp] theorem withFetchWord_lmem (s : State) (nbits w : Nat) : (s.withFetchWord nbits w).lmem = s.lmem := rfl
@[simp] theorem withFetchWord_pending (s : State) (nbits w : Nat) : (s.withFetchWord nbits w).pending = BitVec.ofNat 32 (w % 2 ^ nbits) := rfl
@[simp] theorem withFetchWord_snapArgs (s : State) (nbits w : Nat) : (s.withFetchWord nbits w).snapArgs = s.args := rfl
@[simp] theorem withFetchWord_snapCfg (s : State) (nbits w : Nat) : (s.withFetchWord nbits w).snapCfg = s.cfg := rfl
@[simp] theorem withFetchWord_inReset (s : State) (nbits w : Nat) : (s.withFetchWord nbits w).inReset = false := rfl
@[simp] theorem withFetchWord_script (s : State) (nbits w : Nat) : (s.withFetchWord nbits w).script = s.script := rfl
@[simp] theorem withFetchWord_readLog (s : State) (nbits w : Nat) : (s.withFetchWord nbits w).readLog = s.readLog := rfl
@[simp] theorem withFetchWord_delay (s : State) (nbits w : Nat) : (s.withFetchWord nbits w).delay = 0 := rfl
@[simp] theorem withFetchWord_freeCtr (s : State) (nbits w : Nat) : (s.withFetchWord nbits w).freeCtr = s.freeCtr := rfl

/-! ### logRead -/

@[simp] theorem logRead_params (r : Word × State) : (logRead r).params = r.2.params := rfl
@[simp] theorem logRead_cfg (r : Word × State) : (logRead r).cfg = r.2.cfg := rfl
@[simp] theorem logRead_cmd (r : Word × State) : (logRead r).cmd = r.2.cmd := rfl
@[simp] theorem logRead_args (r : Word × State) : (logRead r).args = r.2.args := rfl
@[simp] theorem logRead_res (r : Word × State) : (logRead r).res = r.2.res := rfl
@[simp] theorem logRead_busy (r : Word × State) : (logRead r).busy = r.2.busy := rfl
@[simp] theorem logRead_done (r : Word × State) : (logRead r).done = r.2.done := rfl
@[simp] theorem logRead_err (r : Word × State) : (logRead r).err = r.2.err := rfl
@[simp] theorem logRead_backend (r : Word × State) : (logRead r).backend = r.2.backend := rfl
@[simp] theorem logRead_br (r : Word × State) : (logRead r).br = r.2.br := rfl
@[simp] theorem logRead_ht (r : Word × State) : (logRead r).ht = r.2.ht := rfl
@[simp] theorem logRead_lmem (r : Word × State) : (logRead r).lmem = r.2.lmem := rfl
@[simp] theorem logRead_pending (r : Word × State) : (logRead r).pending = r.2.pending := rfl
@[simp] theorem logRead_snapArgs (r : Word × State) : (logRead r).snapArgs = r.2.snapArgs := rfl
@[simp] theorem logRead_snapCfg (r : Word × State) : (logRead r).snapCfg = r.2.snapCfg := rfl
@[simp] theorem logRead_inReset (r : Word × State) : (logRead r).inReset = r.2.inReset := rfl
@[simp] theorem logRead_script (r : Word × State) : (logRead r).script = r.2.script := rfl
@[simp] theorem logRead_readLog (r : Word × State) : (logRead r).readLog = r.2.readLog ++ [r.1] := rfl
@[simp] theorem logRead_delay (r : Word × State) : (logRead r).delay = r.2.delay := rfl
@[simp] theorem logRead_freeCtr (r : Word × State) : (logRead r).freeCtr = r.2.freeCtr := rfl

/-! ### resetBlock -/

@[simp] theorem resetBlock_params (s : State) : (resetBlock s).params = s.params := rfl
@[simp] theorem resetBlock_cfg (s : State) : (resetBlock s).cfg = .zero := rfl
@[simp] theorem resetBlock_cmd (s : State) : (resetBlock s).cmd = 0 := rfl
@[simp] theorem resetBlock_args (s : State) : (resetBlock s).args = .zero := rfl
@[simp] theorem resetBlock_res (s : State) : (resetBlock s).res = .zero := rfl
@[simp] theorem resetBlock_busy (s : State) : (resetBlock s).busy = false := rfl
@[simp] theorem resetBlock_done (s : State) : (resetBlock s).done = false := rfl
@[simp] theorem resetBlock_err (s : State) : (resetBlock s).err = none := rfl
@[simp] theorem resetBlock_backend (s : State) : (resetBlock s).backend = false := rfl
@[simp] theorem resetBlock_br (s : State) : (resetBlock s).br = .zero := rfl
@[simp] theorem resetBlock_ht (s : State) : (resetBlock s).ht = Vector.replicate 8 .invalid := rfl
@[simp] theorem resetBlock_lmem (s : State) : (resetBlock s).lmem = [] := rfl
@[simp] theorem resetBlock_pending (s : State) : (resetBlock s).pending = 0 := rfl
@[simp] theorem resetBlock_snapArgs (s : State) : (resetBlock s).snapArgs = .zero := rfl
@[simp] theorem resetBlock_snapCfg (s : State) : (resetBlock s).snapCfg = .zero := rfl
@[simp] theorem resetBlock_inReset (s : State) : (resetBlock s).inReset = false := rfl
@[simp] theorem resetBlock_script (s : State) : (resetBlock s).script = s.script := rfl
@[simp] theorem resetBlock_readLog (s : State) : (resetBlock s).readLog = s.readLog := rfl
@[simp] theorem resetBlock_delay (s : State) : (resetBlock s).delay = 0 := rfl
@[simp] theorem resetBlock_freeCtr (s : State) : (resetBlock s).freeCtr = s.freeCtr := rfl

end Sys2Proof.Machine
end

