-- ==== Sys2Proof/Laws/Command.lean ====
section
/-! SUPPORT. How a command ends: the working copy, the checks, and the one shape every meaning has. -/

namespace Sys2Proof.Machine

/-! ### The working copy -/

@[simp] theorem ok_bind {α β : Type} (a : α) (f : α → CmdM β) : ((Except.ok a : CmdM α) >>= f) = f a := rfl

@[simp] theorem error_bind {α β : Type} (e : CmdStop) (f : α → CmdM β) :
    ((Except.error e : CmdM α) >>= f) = .error e := rfl

@[simp] theorem raise_bind {α β : Type} (k : ErrKind) (f : α → CmdM β) : ((raise k : CmdM α) >>= f) = raise k := rfl

@[simp] theorem pure_eq_ok {α : Type} (a : α) : (pure a : CmdM α) = .ok a := rfl

@[simp] theorem require_true (k : ErrKind) : require true k = .ok () := rfl

@[simp] theorem require_false (k : ErrKind) : require false k = raise k := rfl

/-- A bind that succeeds has a first part that succeeds. -/
theorem bind_eq_ok {α β : Type} {x : CmdM α} {f : α → CmdM β} {b : β} (h : (x >>= f) = .ok b) :
    ∃ a, x = .ok a ∧ f a = .ok b := by
  cases x with
  | ok a => exact ⟨a, rfl, h⟩
  | error e => cases h

/-- A bind that stops has a part that stops. -/
theorem bind_eq_error {α β : Type} {x : CmdM α} {f : α → CmdM β} {e : CmdStop} (h : (x >>= f) = .error e) :
    x = .error e ∨ ∃ a, x = .ok a ∧ f a = .error e := by
  cases x with
  | ok a => exact .inr ⟨a, rfl, h⟩
  | error e' => exact .inl (by simpa using h)

theorem require_eq_ok {c : Bool} {k : ErrKind} {u : Unit} (h : require c k = .ok u) : c = true := by
  cases c
  · cases h
  · rfl

theorem require_eq_error {c : Bool} {k : ErrKind} {e : CmdStop} (h : require c k = .error e) :
    c = false ∧ e = .raise k := by
  cases c
  · cases h
    exact ⟨rfl, rfl⟩
  · cases h

/-! ### The end of a command -/

@[simp] theorem commit_ok (i : Instr) (s t : State) : commit i s (.ok t) = .next (complete t) := rfl

@[simp] theorem commit_raise (i : Instr) (s : State) (k : ErrKind) :
    commit i s (raise k) = .next (raiseError i.opcode k s) := rfl

@[simp] theorem commit_error_raise (i : Instr) (s : State) (k : ErrKind) :
    commit i s (.error (.raise k)) = .next (raiseError i.opcode k s) := rfl

@[simp] theorem commit_fault (i : Instr) (s : State) (f : Fault) : commit i s (.error (.fault f)) = .fault f := rfl

/-- The two ways a command reaches a next state. -/
theorem commit_next {i : Instr} {s t : State} {x : CmdM State} (h : commit i s x = .next t) :
    (∃ u, x = .ok u ∧ t = complete u) ∨ ∃ k, x = .error (.raise k) ∧ t = raiseError i.opcode k s := by
  match x, h with
  | .ok u, h => exact .inl ⟨u, rfl, by cases h; rfl⟩
  | .error (.raise k), h => exact .inr ⟨k, rfl, by cases h; rfl⟩

theorem commit_fault_iff {i : Instr} {s : State} {x : CmdM State} {f : Fault} :
    commit i s x = .fault f ↔ x = .error (.fault f) := by
  match x with
  | .ok u => simp
  | .error (.raise k) => simp
  | .error (.fault g) => simp

theorem commit_ne_refused (i : Instr) (s : State) (x : CmdM State) (r : Refusal) : commit i s x ≠ .refused r := by
  match x with
  | .ok u => simp
  | .error (.raise k) => simp
  | .error (.fault g) => simp

/-- Every meaning is a rule on a working copy, committed (R22). -/
theorem exec_eq_commit (i : Instr) (s : State) : ∃ x, exec i s = commit i s x := by
  cases i with
  | nop => exact ⟨.ok s, rfl⟩
  | coreInit => exact ⟨.ok (initCore s), rfl⟩
  | brHas n => exact ⟨.ok (s.setRes0 (zres (if n.toNat ≤ s.br.nbits then 1 else 0))), rfl⟩
  | _ => exact ⟨_, rfl⟩

/-! ### Region checks -/

theorem inRange_iff {s : State} {a n : Nat} : s.inRange a n = true ↔ a + n ≤ s.params.lmemSize := by
  simp [State.inRange]

theorem checkRegions_eq_ok {s : State} {rs : List (Nat × Nat)} :
    checkRegions s rs = .ok () ↔ ∀ r ∈ rs, r.1 + r.2 ≤ s.params.lmemSize := by
  induction rs with
  | nil => simp [checkRegions]
  | cons r rs ih =>
    obtain ⟨a, n⟩ := r
    rw [checkRegions]
    cases h : s.inRange a n with
    | true =>
      rw [require_true, ok_bind, ih]
      simp [inRange_iff.1 h]
    | false =>
      rw [require_false, raise_bind]
      have : ¬ a + n ≤ s.params.lmemSize := by
        rw [← inRange_iff, h]
        exact Bool.false_ne_true
      simp [raise, this]

theorem checkRegions_cases (s : State) (rs : List (Nat × Nat)) :
    ((∀ r ∈ rs, r.1 + r.2 ≤ s.params.lmemSize) ∧ checkRegions s rs = .ok ()) ∨
    ((∃ r ∈ rs, s.params.lmemSize < r.1 + r.2) ∧ checkRegions s rs = raise .addressFault) := by
  induction rs with
  | nil => exact .inl ⟨by simp, rfl⟩
  | cons r rs ih =>
    obtain ⟨a, n⟩ := r
    rw [checkRegions]
    cases h : s.inRange a n with
    | true =>
      rw [require_true, ok_bind]
      have := inRange_iff.1 h
      rcases ih with ⟨h1, h2⟩ | ⟨⟨r, hr, hlt⟩, h2⟩
      · exact .inl ⟨by simpa using ⟨this, by simpa using h1⟩, h2⟩
      · exact .inr ⟨⟨r, List.mem_cons_of_mem _ hr, hlt⟩, h2⟩
    | false =>
      rw [require_false, raise_bind]
      have : ¬ a + n ≤ s.params.lmemSize := by
        rw [← inRange_iff, h]
        exact Bool.false_ne_true
      exact .inr ⟨⟨(a, n), List.mem_cons_self, by simpa using this⟩, rfl⟩

/-- A region out of range, wherever it stands in the list, is ADDRESS_FAULT. -/
theorem checkRegions_of_out {s : State} {rs : List (Nat × Nat)} {r : Nat × Nat} (hr : r ∈ rs)
    (h : s.params.lmemSize < r.1 + r.2) : checkRegions s rs = raise .addressFault := by
  rcases checkRegions_cases s rs with ⟨h1, -⟩ | ⟨-, h2⟩
  · exact absurd (h1 r hr) (by omega)
  · exact h2

/-! ### Slots -/

@[simp] theorem slot_setSlot_self (s : State) (t : BitVec 3) (x : HtSlot) : (s.setSlot t x).slot t = x := by
  simp [State.slot, State.setSlot]

theorem slot_setSlot_ne (s : State) {t u : BitVec 3} (x : HtSlot) (h : u ≠ t) :
    (s.setSlot t x).slot u = s.slot u := by
  have : t.toNat ≠ u.toNat := fun e => h (BitVec.eq_of_toNat_eq e.symm)
  simp [State.slot, State.setSlot, this]

theorem getElem_invalidateAll (h : Vector HtSlot 8) (k : Nat) (hk : k < 8) :
    (invalidateAll h)[k] = { h[k] with valid := false } := by
  simp [invalidateAll, Vector.getElem_mk, Array.getElem_toList]

@[simp] theorem slot_initCore (s : State) (t : BitVec 3) :
    (initCore s).slot t = { s.slot t with valid := false } := by
  simp only [State.slot, initCore_ht]
  exact getElem_invalidateAll _ _ _

end Sys2Proof.Machine
end

