-- ==== Sys2Proof/Laws/BitReader.lean ====
section
/-! SUPPORT. The bit reader: what one turn of refill, a refill and a consumption can do, and that they keep R52. -/

namespace Sys2Proof.Machine

/-! ### Low bits -/

/-- A number is a multiple of 2^k when its k low bits are zero. -/
theorem mod_two_pow_eq_zero_iff {x k : Nat} : x % 2 ^ k = 0 ↔ ∀ j, j < k → x.testBit j = false := by
  constructor
  · intro h j hj
    have := Nat.testBit_mod_two_pow x k j
    rw [h] at this
    simpa [hj] using this.symm
  · intro h
    apply Nat.eq_of_testBit_eq
    intro j
    rw [Nat.testBit_mod_two_pow, Nat.zero_testBit]
    by_cases hj : j < k
    · simp [h j hj]
    · simp [hj]

/-- The bits below the real ones are zero, bit by bit. -/
theorem BrOk.low_bits {b : BitReader} {size : Nat} (h : BrOk b size) {j : Nat} (hj : j < 64 - (b.nbits - b.npad)) :
    b.acc.getLsbD j = false :=
  mod_two_pow_eq_zero_iff.1 h.low_zero j hj

/-! ### One turn of refill -/

/-- The five ways a turn of refill's loop ends (R121 to R124). -/
theorem refillStep_eq_ok {i : Instr} {m : Memory} {b b' : BitReader} (h : refillStep i m b = .ok b') :
    (b.endPos ≤ b.pos ∧ b' = { b with ended := true }) ∨
    (∃ v, b.pos < b.endPos ∧ m.read? b.pos = some v ∧ v ≠ 0xFF ∧ b' = loadByte b v 1) ∨
    (b.pos + 1 = b.endPos ∧ m.read? b.pos = some 0xFF ∧ b' = { b with ended := true }) ∨
    (b.pos + 1 < b.endPos ∧ m.read? b.pos = some 0xFF ∧ m.read? (b.pos + 1) = some 0x00 ∧ b' = loadByte b 0xFF 2) ∨
    (∃ c, b.pos + 1 < b.endPos ∧ m.read? b.pos = some 0xFF ∧ m.read? (b.pos + 1) = some c ∧ c ≠ 0x00 ∧
      b' = { b with mfound := true, marker := c, ended := true }) := by
  unfold refillStep at h
  by_cases h0 : b.endPos ≤ b.pos
  · rw [if_pos h0] at h
    exact .inl ⟨h0, (Except.ok.inj h).symm⟩
  · rw [if_neg h0] at h
    rcases readByte_cases i m b.pos with ⟨v, hv, hr⟩ | ⟨hv, hr⟩
    · rw [hr, ok_bind] at h
      by_cases hff : v = 0xFF
      · subst hff
        rw [if_neg (by simp)] at h
        by_cases h1 : b.endPos ≤ b.pos + 1
        · rw [if_pos h1] at h
          exact .inr (.inr (.inl ⟨by omega, hv, (Except.ok.inj h).symm⟩))
        · rw [if_neg h1] at h
          rcases readByte_cases i m (b.pos + 1) with ⟨c, hc, hr'⟩ | ⟨hc, hr'⟩
          · rw [hr', ok_bind] at h
            by_cases hz : c = 0x00
            · rw [if_pos hz] at h
              subst hz
              exact .inr (.inr (.inr (.inl ⟨by omega, hv, hc, (Except.ok.inj h).symm⟩)))
            · rw [if_neg hz] at h
              exact .inr (.inr (.inr (.inr ⟨c, by omega, hv, hc, hz, (Except.ok.inj h).symm⟩)))
          · rw [hr'] at h
            cases h
      · rw [if_pos hff] at h
        exact .inr (.inl ⟨v, by omega, hv, hff, (Except.ok.inj h).symm⟩)
    · rw [hr] at h
      cases h

/-- A turn of refill's loop stops only at an unwritten byte of the rest of the segment. -/
theorem refillStep_error {i : Instr} {m : Memory} {b : BitReader} {e : CmdStop} (h : refillStep i m b = .error e) :
    ∃ a, b.pos ≤ a ∧ a < b.endPos ∧ m.read? a = none ∧ e = .fault (.unwrittenByte i a) := by
  unfold refillStep at h
  by_cases h0 : b.endPos ≤ b.pos
  · rw [if_pos h0] at h
    cases h
  · rw [if_neg h0] at h
    rcases readByte_cases i m b.pos with ⟨v, hv, hr⟩ | ⟨hv, hr⟩
    · rw [hr, ok_bind] at h
      by_cases hff : v = 0xFF
      · subst hff
        rw [if_neg (by simp)] at h
        by_cases h1 : b.endPos ≤ b.pos + 1
        · rw [if_pos h1] at h
          cases h
        · rw [if_neg h1] at h
          rcases readByte_cases i m (b.pos + 1) with ⟨c, hc, hr'⟩ | ⟨hc, hr'⟩
          · rw [hr', ok_bind] at h
            split at h <;> cases h
          · rw [hr', error_bind] at h
            exact ⟨b.pos + 1, by omega, by omega, hc, (Except.error.inj h).symm⟩
      · rw [if_pos hff] at h
        cases h
    · rw [hr, error_bind] at h
      exact ⟨b.pos, le_refl _, by omega, hv, (Except.error.inj h).symm⟩

/-- A turn moves only the position, the accumulator, the counts and the end flags, forward and not past the end. -/
theorem refillStep_frame {i : Instr} {m : Memory} {b b' : BitReader} (h : refillStep i m b = .ok b')
    (hp : b.pos ≤ b.endPos) :
    b'.endPos = b.endPos ∧ b'.npad = b.npad ∧ b'.overrun = b.overrun ∧ b.pos ≤ b'.pos ∧ b'.pos ≤ b.endPos ∧
      (b'.ended = true ∨ b'.nbits = b.nbits + 8 ∧ b'.ended = b.ended) ∧
      (b'.ended = true → b.ended = false → b'.nbits = b.nbits ∧ b'.acc = b.acc ∧ b'.pos = b.pos) := by
  rcases refillStep_eq_ok h with ⟨h1, rfl⟩ | ⟨v, h1, h2, h3, rfl⟩ | ⟨h1, h2, rfl⟩ | ⟨h1, h2, h3, rfl⟩ |
    ⟨c, h1, h2, h3, h4, rfl⟩
  · exact ⟨rfl, rfl, rfl, le_refl _, hp, .inl rfl, fun _ _ => ⟨rfl, rfl, rfl⟩⟩
  · refine ⟨rfl, rfl, rfl, ?_, ?_, .inr ⟨rfl, rfl⟩, fun h h' => ?_⟩
    · simp only [loadByte]; omega
    · simp only [loadByte]; omega
    · simp only [loadByte] at h
      rw [h'] at h
      cases h
  · exact ⟨rfl, rfl, rfl, le_refl _, hp, .inl rfl, fun _ _ => ⟨rfl, rfl, rfl⟩⟩
  · refine ⟨rfl, rfl, rfl, ?_, ?_, .inr ⟨rfl, rfl⟩, fun h h' => ?_⟩
    · simp only [loadByte]; omega
    · simp only [loadByte]; omega
    · simp only [loadByte] at h
      rw [h'] at h
      cases h
  · exact ⟨rfl, rfl, rfl, le_refl _, hp, .inl rfl, fun _ _ => ⟨rfl, rfl, rfl⟩⟩

/-! ### Loading a byte -/

/-- The accumulator after a byte is loaded, as a number: the byte stands right below the valid bits. -/
theorem loadByte_acc_toNat {b : BitReader} {v : Byte} {w : Nat} (hn : b.nbits ≤ 56)
    (hz : b.acc.toNat % 2 ^ (64 - b.nbits) = 0) :
    (loadByte b v w).acc.toNat = b.acc.toNat + v.toNat * 2 ^ (56 - b.nbits) := by
  have hv := v.isLt
  have hlt : v.toNat * 2 ^ (56 - b.nbits) < 2 ^ (64 - b.nbits) := by
    rw [show 64 - b.nbits = 8 + (56 - b.nbits) by omega, Nat.pow_add]
    exact Nat.mul_lt_mul_of_pos_right hv (Nat.two_pow_pos _)
  have h64 : v.toNat * 2 ^ (56 - b.nbits) < 2 ^ 64 :=
    lt_of_lt_of_le hlt (Nat.pow_le_pow_right (by decide) (by omega))
  have hsh : ((v.setWidth 64) <<< (56 - b.nbits)).toNat = v.toNat * 2 ^ (56 - b.nbits) := by
    rw [BitVec.toNat_shiftLeft, BitVec.toNat_setWidth, Nat.mod_eq_of_lt (by omega : v.toNat < 2 ^ 64),
      Nat.shiftLeft_eq, Nat.mod_eq_of_lt h64]
  have hd := Nat.div_add_mod b.acc.toNat (2 ^ (64 - b.nbits))
  rw [hz, Nat.add_zero] at hd
  simp only [loadByte, BitVec.toNat_or, hsh]
  rw [← hd, ← Nat.two_pow_add_eq_or_of_lt hlt]

/-- A loaded byte leaves the bits below it zero. -/
theorem loadByte_low_zero {b : BitReader} {v : Byte} {w : Nat} (hn : b.nbits ≤ 56)
    (hz : b.acc.toNat % 2 ^ (64 - b.nbits) = 0) :
    (loadByte b v w).acc.toNat % 2 ^ (64 - (b.nbits + 8)) = 0 := by
  rw [loadByte_acc_toNat hn hz]
  have hd := Nat.div_add_mod b.acc.toNat (2 ^ (64 - b.nbits))
  rw [hz, Nat.add_zero] at hd
  rw [← hd, show 64 - b.nbits = 8 + (56 - b.nbits) by omega, show 64 - (b.nbits + 8) = 56 - b.nbits by omega,
    Nat.pow_add, show 2 ^ 8 * 2 ^ (56 - b.nbits) * (b.acc.toNat / (2 ^ 8 * 2 ^ (56 - b.nbits))) +
      v.toNat * 2 ^ (56 - b.nbits) =
      (2 ^ 8 * (b.acc.toNat / (2 ^ 8 * 2 ^ (56 - b.nbits))) + v.toNat) * 2 ^ (56 - b.nbits) by ring]
  exact Nat.mul_mod_left _ _

/-- A turn of refill's loop keeps R52. -/
theorem refillStep_brOk {i : Instr} {m : Memory} {b b' : BitReader} {size : Nat} (h : refillStep i m b = .ok b')
    (hb : BrOk b size) (hn : b.nbits ≤ 56) (he : b.ended = false) : BrOk b' size := by
  have hpad : b.npad = 0 := by
    by_contra hne
    have := hb.pad_ended (by omega)
    rw [he] at this
    cases this
  have hz : b.acc.toNat % 2 ^ (64 - b.nbits) = 0 := by
    have := hb.low_zero
    rwa [hpad, Nat.sub_zero] at this
  have hload : ∀ (v : Byte) (w : Nat), b.pos + w ≤ b.endPos → BrOk (loadByte b v w) size := by
    intro v w hw
    refine ⟨?_, ?_, ?_, hw, hb.end_le, hb.mfound_ended, hb.pad_ended⟩
    · simp only [loadByte]; omega
    · simp only [loadByte]; omega
    · have := loadByte_low_zero (v := v) (w := w) hn hz
      simp only [loadByte] at this ⊢
      rwa [hpad, Nat.sub_zero]
  have hend : ∀ (mf : Bool) (mk : Byte), BrOk { b with mfound := mf, marker := mk, ended := true } size := by
    intro mf mk
    exact ⟨hb.npad_le, hb.nbits_le, hb.low_zero, hb.pos_le, hb.end_le, fun _ => rfl, fun _ => rfl⟩
  rcases refillStep_eq_ok h with ⟨h1, rfl⟩ | ⟨v, h1, h2, h3, rfl⟩ | ⟨h1, h2, rfl⟩ | ⟨h1, h2, h3, rfl⟩ |
    ⟨c, h1, h2, h3, h4, rfl⟩
  · exact hend _ _
  · exact hload v 1 h1
  · exact hend _ _
  · exact hload 0xFF 2 h1
  · exact hend _ _

/-! ### The loop -/

/-- One more turn of the loop. -/
theorem refillLoop_succ {i : Instr} {m : Memory} {k : Nat} {b : BitReader} (hn : b.nbits ≤ 56) (he : b.ended = false) :
    refillLoop i m (k + 1) b = (refillStep i m b >>= refillLoop i m k) := by
  rw [refillLoop, if_pos ⟨hn, he⟩]

/-- The loop stops when the accumulator is full or the stream has ended. -/
theorem refillLoop_of_stop {i : Instr} {m : Memory} {k : Nat} {b : BitReader} (h : 56 < b.nbits ∨ b.ended = true) :
    refillLoop i m k b = .ok b := by
  cases k with
  | zero => rfl
  | succ k =>
    rw [refillLoop, if_neg]
    rintro ⟨h1, h2⟩
    rcases h with h | h
    · omega
    · rw [h] at h2; cases h2

/-- What is kept by every turn is kept by the loop. -/
theorem refillLoop_induct {i : Instr} {m : Memory} {P : BitReader → Prop}
    (hstep : ∀ b b', P b → b.nbits ≤ 56 → b.ended = false → refillStep i m b = .ok b' → P b')
    {k : Nat} {b b' : BitReader} (hb : P b) (h : refillLoop i m k b = .ok b') : P b' := by
  induction k generalizing b with
  | zero =>
    cases h
    exact hb
  | succ k ih =>
    by_cases hc : b.nbits ≤ 56 ∧ b.ended = false
    · rw [refillLoop_succ hc.1 hc.2] at h
      obtain ⟨c, h1, h2⟩ := bind_eq_ok h
      exact ih (hstep b c hb hc.1 hc.2 h1) h2
    · rw [refillLoop, if_neg hc] at h
      cases h
      exact hb

/-- The loop ends full or at the end of the stream, when it has turns enough. -/
theorem refillLoop_stops {i : Instr} {m : Memory} {k : Nat} {b b' : BitReader} (h : refillLoop i m k b = .ok b')
    (hp : b.pos ≤ b.endPos) (hk : 64 ≤ 8 * k + b.nbits) : 56 < b'.nbits ∨ b'.ended = true := by
  induction k generalizing b with
  | zero =>
    left
    rw [← Except.ok.inj h]
    omega
  | succ k ih =>
    by_cases hc : b.nbits ≤ 56 ∧ b.ended = false
    · rw [refillLoop_succ hc.1 hc.2] at h
      obtain ⟨c, h1, h2⟩ := bind_eq_ok h
      obtain ⟨f1, -, -, -, f5, f6, -⟩ := refillStep_frame h1 hp
      rcases f6 with f6 | ⟨f6, -⟩
      · rw [refillLoop_of_stop (.inr f6)] at h2
        cases h2
        exact .inr f6
      · exact ih h2 (by omega) (by omega)
    · rw [refillLoop, if_neg hc] at h
      rw [← Except.ok.inj h]
      by_cases h1 : b.nbits ≤ 56
      · right
        by_contra h2
        exact hc ⟨h1, by simpa using h2⟩
      · left
        omega

/-- The loop stops only at an unwritten byte of the rest of the segment. -/
theorem refillLoop_error {i : Instr} {m : Memory} {k : Nat} {b : BitReader} {e : CmdStop}
    (h : refillLoop i m k b = .error e) (hp : b.pos ≤ b.endPos) :
    ∃ a, b.pos ≤ a ∧ a < b.endPos ∧ m.read? a = none ∧ e = .fault (.unwrittenByte i a) := by
  induction k generalizing b with
  | zero => cases h
  | succ k ih =>
    by_cases hc : b.nbits ≤ 56 ∧ b.ended = false
    · rw [refillLoop_succ hc.1 hc.2] at h
      rcases bind_eq_error h with h1 | ⟨c, h1, h2⟩
      · exact refillStep_error h1
      · obtain ⟨f1, -, -, f4, f5, -, -⟩ := refillStep_frame h1 hp
        obtain ⟨a, g1, g2, g3, g4⟩ := ih h2 (by omega)
        exact ⟨a, by omega, by omega, g3, g4⟩
    · rw [refillLoop, if_neg hc] at h
      cases h

/-! ### Refill -/

theorem refill_eq_ok {i : Instr} {m : Memory} {b b' : BitReader} (h : refill i m b = .ok b') :
    ∃ c, refillLoop i m 8 b = .ok c ∧ b' = padBits c := by
  unfold refill at h
  obtain ⟨c, h1, h2⟩ := bind_eq_ok h
  exact ⟨c, h1, (Except.ok.inj h2).symm⟩

/-- A refill stops only at an unwritten byte of the rest of the segment. -/
theorem refill_error {i : Instr} {m : Memory} {b : BitReader} {e : CmdStop} (h : refill i m b = .error e)
    (hp : b.pos ≤ b.endPos) :
    ∃ a, b.pos ≤ a ∧ a < b.endPos ∧ m.read? a = none ∧ e = .fault (.unwrittenByte i a) := by
  unfold refill at h
  rcases bind_eq_error h with h1 | ⟨c, h1, h2⟩
  · exact refillLoop_error h1 hp
  · cases h2

/-- A refill whose bytes are all written succeeds. -/
theorem refill_of_written {i : Instr} {m : Memory} {b : BitReader} (hp : b.pos ≤ b.endPos)
    (hw : Written m b.pos (b.endPos - b.pos)) : ∃ b', refill i m b = .ok b' := by
  cases h : refill i m b with
  | ok b' => exact ⟨b', rfl⟩
  | error e =>
    obtain ⟨a, h1, h2, h3, -⟩ := refill_error h hp
    have := hw (a - b.pos) (by omega)
    rw [show b.pos + (a - b.pos) = a by omega, h3] at this
    cases this

/-- Padding keeps R52. -/
theorem padBits_brOk {b : BitReader} {size : Nat} (hb : BrOk b size) : BrOk (padBits b) size := by
  unfold padBits
  split
  · rename_i h
    have hn := hb.nbits_le
    have hle := hb.npad_le
    refine ⟨?_, ?_, ?_, hb.pos_le, hb.end_le, hb.mfound_ended, fun _ => h.1⟩
    · simp only; omega
    · simp only; omega
    · have := hb.low_zero
      simp only
      rwa [show 64 - (b.npad + (64 - b.nbits)) = b.nbits - b.npad by omega]
  · exact hb

/-- Padding changes only the two counts, and the real bits stay. -/
theorem padBits_frame (b : BitReader) :
    padBits b = { b with nbits := (padBits b).nbits, npad := (padBits b).npad } := by
  unfold padBits
  split <;> rfl

theorem padBits_real {b : BitReader} (h : b.npad ≤ b.nbits) (hn : b.nbits ≤ 64) :
    (padBits b).nbits - (padBits b).npad = b.nbits - b.npad := by
  unfold padBits
  split
  · simp only; omega
  · rfl

/-- A refill keeps R52. -/
theorem refill_brOk {i : Instr} {m : Memory} {b b' : BitReader} {size : Nat} (h : refill i m b = .ok b')
    (hb : BrOk b size) : BrOk b' size := by
  obtain ⟨c, h1, rfl⟩ := refill_eq_ok h
  refine padBits_brOk (refillLoop_induct (P := fun b => BrOk b size) ?_ hb h1)
  intro x y hx hn he hxy
  exact refillStep_brOk hxy hx hn he

/-- A refill leaves the segment's end and the overrun flag. -/
theorem refill_frame {i : Instr} {m : Memory} {b b' : BitReader} (h : refill i m b = .ok b')
    (hp : b.pos ≤ b.endPos) :
    b'.endPos = b.endPos ∧ b'.overrun = b.overrun ∧ b.pos ≤ b'.pos ∧ b'.pos ≤ b.endPos := by
  obtain ⟨c, h1, rfl⟩ := refill_eq_ok h
  have key : c.endPos = b.endPos ∧ c.overrun = b.overrun ∧ b.pos ≤ c.pos ∧ c.pos ≤ b.endPos := by
    refine refillLoop_induct (P := fun x => x.endPos = b.endPos ∧ x.overrun = b.overrun ∧ b.pos ≤ x.pos ∧
      x.pos ≤ b.endPos) ?_ ⟨rfl, rfl, le_refl _, hp⟩ h1
    rintro x y ⟨h1, h2, h3, h4⟩ - - hxy
    obtain ⟨f1, -, f3, f4, f5, -, -⟩ := refillStep_frame hxy (by omega)
    exact ⟨by omega, f3.trans h2, by omega, by omega⟩
  rw [padBits_frame]
  exact key

/-- After a refill 57 to 64 bits are buffered (R121). -/
theorem refill_nbits {i : Instr} {m : Memory} {b b' : BitReader} {size : Nat} (h : refill i m b = .ok b')
    (hb : BrOk b size) : 57 ≤ b'.nbits ∧ b'.nbits ≤ 64 := by
  refine ⟨?_, (refill_brOk h hb).nbits_le⟩
  obtain ⟨c, h1, rfl⟩ := refill_eq_ok h
  have hs := refillLoop_stops h1 hb.pos_le (by omega)
  unfold padBits
  split
  · simp
  · rename_i hc
    rcases hs with hs | hs
    · exact hs
    · have : ¬ c.nbits < 64 := fun hlt => hc ⟨hs, hlt⟩
      omega

/-- What a refill leaves does not depend on the command that makes it; only its fault names the command. -/
theorem refill_instr {i : Instr} (j : Instr) {m : Memory} {b b' : BitReader} (h : refill i m b = .ok b') :
    refill j m b = .ok b' := by
  have byte : ∀ (a : Nat) (v : Byte), readByte i m a = .ok v → readByte j m a = .ok v := by
    intro a v hv
    unfold readByte at hv ⊢
    split at hv
    · exact hv
    · cases hv
  have turn : ∀ b b', refillStep i m b = .ok b' → refillStep j m b = .ok b' := by
    intro b b' hs
    unfold refillStep at hs ⊢
    split at hs
    · rwa [if_pos ‹_›]
    · obtain ⟨v, hv, hs⟩ := bind_eq_ok hs
      rw [if_neg ‹_›, byte _ _ hv, ok_bind]
      split at hs
      · rwa [if_pos ‹_›]
      · rw [if_neg ‹_›]
        split at hs
        · rwa [if_pos ‹_›]
        · obtain ⟨v2, hv2, hs⟩ := bind_eq_ok hs
          rwa [if_neg ‹_›, byte _ _ hv2, ok_bind]
  have loop : ∀ k b b', refillLoop i m k b = .ok b' → refillLoop j m k b = .ok b' := by
    intro k
    induction k with
    | zero => exact fun _ _ h => h
    | succ k ih =>
      intro b b' hl
      unfold refillLoop at hl ⊢
      split at hl
      · obtain ⟨c, hs, hl⟩ := bind_eq_ok hl
        rw [if_pos ‹_›, turn _ _ hs, ok_bind]
        exact ih _ _ hl
      · rwa [if_neg ‹_›]
  obtain ⟨c, hl, hp⟩ := bind_eq_ok h
  rw [refill, loop _ _ _ hl, ok_bind]
  exact hp

/-! ### A run of data bytes -/

/-- A further byte at the front counts by its place. -/
theorem bytesValue_cons (d : Byte) (ds : List Byte) :
    bytesValue (d :: ds) = d.toNat * 2 ^ (8 * ds.length) + bytesValue ds := by
  have gen : ∀ (ds : List Byte) (v : Nat), ds.foldl (fun v d => 256 * v + d.toNat) v =
      v * 2 ^ (8 * ds.length) + ds.foldl (fun v d => 256 * v + d.toNat) 0 := by
    intro ds
    induction ds with
    | nil => intro v; simp
    | cons d ds ih =>
      intro v
      rw [List.foldl_cons, List.foldl_cons, ih (256 * v + d.toNat), ih (256 * 0 + d.toNat), List.length_cons,
        show 8 * (ds.length + 1) = 8 + 8 * ds.length by omega, Nat.pow_add]
      ring
  rw [bytesValue, List.foldl_cons, gen, Nat.mul_zero, Nat.zero_add]
  rfl

theorem bytesValue_lt (ds : List Byte) : bytesValue ds < 2 ^ (8 * ds.length) := by
  induction ds with
  | nil => simp [bytesValue]
  | cons d ds ih =>
    rw [bytesValue_cons, List.length_cons, show 8 * (ds.length + 1) = 8 + 8 * ds.length by omega, Nat.pow_add]
    have h := Nat.mul_le_mul_right (2 ^ (8 * ds.length)) (show d.toNat + 1 ≤ 2 ^ 8 from d.isLt)
    rw [Nat.add_mul, Nat.one_mul] at h
    omega

/-- `b` with the data bytes `ds` loaded, the stream standing at `q`. -/
def loadedTo (b : BitReader) (ds : List Byte) (q : Nat) : BitReader :=
  { b with pos := q, nbits := b.nbits + 8 * ds.length,
           acc := b.acc ||| BitVec.ofNat 64 (bytesValue ds * 2 ^ (64 - (b.nbits + 8 * ds.length))) }

/-- Loading the first byte and then the rest loads them all. -/
theorem loadedTo_cons {b : BitReader} {d : Byte} {ds : List Byte} {q w : Nat} (h : b.nbits + 8 * (ds.length + 1) ≤ 64) :
    loadedTo (loadByte b d w) ds q = loadedTo b (d :: ds) q := by
  have key : (BitVec.setWidth 64 d <<< (56 - b.nbits)) |||
      BitVec.ofNat 64 (bytesValue ds * 2 ^ (64 - (b.nbits + 8 * (ds.length + 1)))) =
      BitVec.ofNat 64 (bytesValue (d :: ds) * 2 ^ (64 - (b.nbits + 8 * (ds.length + 1)))) := by
    have hd := d.isLt
    have low : bytesValue ds * 2 ^ (64 - (b.nbits + 8 * (ds.length + 1))) < 2 ^ (56 - b.nbits) := by
      have := Nat.mul_lt_mul_of_pos_right (bytesValue_lt ds) (Nat.two_pow_pos (64 - (b.nbits + 8 * (ds.length + 1))))
      rwa [← Nat.pow_add, show 8 * ds.length + (64 - (b.nbits + 8 * (ds.length + 1))) = 56 - b.nbits by omega] at this
    have top : d.toNat * 2 ^ (56 - b.nbits) + 2 ^ (56 - b.nbits) ≤ 2 ^ 64 := by
      rw [← Nat.succ_mul]
      calc d.toNat.succ * 2 ^ (56 - b.nbits) ≤ 2 ^ 8 * 2 ^ (56 - b.nbits) := Nat.mul_le_mul_right _ hd
        _ = 2 ^ (64 - b.nbits) := by rw [← Nat.pow_add, show 8 + (56 - b.nbits) = 64 - b.nbits by omega]
        _ ≤ 2 ^ 64 := Nat.pow_le_pow_right (by decide) (by omega)
    have place : bytesValue (d :: ds) * 2 ^ (64 - (b.nbits + 8 * (ds.length + 1))) =
        d.toNat * 2 ^ (56 - b.nbits) + bytesValue ds * 2 ^ (64 - (b.nbits + 8 * (ds.length + 1))) := by
      rw [bytesValue_cons, Nat.add_mul, Nat.mul_assoc, ← Nat.pow_add,
        show 8 * ds.length + (64 - (b.nbits + 8 * (ds.length + 1))) = 56 - b.nbits by omega]
    apply BitVec.eq_of_toNat_eq
    rw [place, BitVec.toNat_or, BitVec.toNat_shiftLeft, BitVec.toNat_setWidth, BitVec.toNat_ofNat, BitVec.toNat_ofNat,
      Nat.shiftLeft_eq, Nat.mod_eq_of_lt (show d.toNat < 2 ^ 64 by omega), Nat.mod_eq_of_lt (by omega),
      Nat.mod_eq_of_lt (by omega), Nat.mod_eq_of_lt (by omega), Nat.mul_comm, ← Nat.two_pow_add_eq_or_of_lt low]
  simp only [loadedTo, loadByte, List.length_cons, show b.nbits + 8 + 8 * ds.length = b.nbits + 8 * (ds.length + 1) by omega,
    BitVec.or_assoc, key]

/-- Over data bytes, refill's loop loads them and goes on behind them. -/
theorem refillLoop_ahead {i : Instr} {m : Memory} {ds : List Byte} {b : BitReader} {q k : Nat} (he : b.ended = false)
    (hn : b.nbits + 8 * ds.length ≤ 64) (h : DataAhead m b.endPos q b.pos ds) :
    refillLoop i m (ds.length + k) b = refillLoop i m k (loadedTo b ds q) := by
  induction ds generalizing b with
  | nil =>
    have hq : b.pos = q := h
    simp [loadedTo, bytesValue, ← hq]
  | cons d ds ih =>
    simp only [List.length_cons] at hn
    rw [List.length_cons, show ds.length + 1 + k = ds.length + k + 1 by omega, refillLoop_succ (by omega) he]
    unfold DataAhead at h
    have hstep : ∃ w, refillStep i m b = .ok (loadByte b d w) ∧ DataAhead m b.endPos q (b.pos + w) ds := by
      unfold refillStep
      by_cases hd : d ≠ 0xFF
      · rw [if_pos hd] at h
        exact ⟨1, by rw [if_neg (by omega), readByte_of_some h.2.1, ok_bind, if_pos hd], h.2.2⟩
      · rw [if_neg hd] at h
        rw [ne_eq, Decidable.not_not] at hd
        subst hd
        exact ⟨2, by rw [if_neg (by omega), readByte_of_some h.2.1, ok_bind, if_neg (by simp), if_neg (by omega),
          readByte_of_some h.2.2.1, ok_bind, if_pos rfl], h.2.2.2⟩
    obtain ⟨w, hs, ha⟩ := hstep
    rw [hs, ok_bind, ih (b := loadByte b d w) he (by simp only [loadByte]; omega) ha, loadedTo_cons hn]

/-! ### Consuming -/

/-- The two ways a consumption ends (R126). -/
theorem consume_cases (b : BitReader) (n : Nat) (strict : Bool) :
    (0 < padTaken b n ∧ strict = true ∧ consume b n strict = raise .streamTruncated) ∨
    ((padTaken b n = 0 ∨ strict = false) ∧ consume b n strict = .ok (peekBits b n, dropBits b n)) := by
  unfold consume
  split
  · rename_i h
    exact .inl ⟨h.1, h.2, rfl⟩
  · rename_i h
    refine .inr ⟨?_, rfl⟩
    rw [not_and_or] at h
    rcases h with h | h
    · exact .inl (by omega)
    · exact .inr (by simpa using h)

theorem consume_eq_ok {b b' : BitReader} {n v : Nat} {strict : Bool} (h : consume b n strict = .ok (v, b')) :
    (padTaken b n = 0 ∨ strict = false) ∧ v = peekBits b n ∧ b' = dropBits b n := by
  rcases consume_cases b n strict with ⟨-, -, h1⟩ | ⟨h0, h1⟩
  · rw [h1] at h
    cases h
  · rw [h1] at h
    cases h
    exact ⟨h0, rfl, rfl⟩

/-- `dropBits` in numbers (R126). -/
theorem dropBits_eq_afterBits (b : BitReader) (n : Nat) : dropBits b n = afterBits b n := by
  have hacc : b.acc <<< n = BitVec.ofNat 64 (b.acc.toNat * 2 ^ n) := by
    apply BitVec.eq_of_toNat_eq
    rw [BitVec.toNat_shiftLeft, BitVec.toNat_ofNat, Nat.shiftLeft_eq]
  simp only [dropBits, afterBits, padTaken, hacc, BitReader.mk.injEq, true_and]
  congr 1
  exact decide_eq_decide.2 (by omega)

/-- The pad bits of two runs of bits, one after the other, are those of both together. -/
theorem padTaken_dropBits {b : BitReader} {n k : Nat} (hp : b.npad ≤ b.nbits) (h : n + k ≤ b.nbits) :
    padTaken b n + padTaken (dropBits b n) k = padTaken b (n + k) := by
  have e : padTaken (dropBits b n) k = k - (b.nbits - n - (b.npad - (n - (b.nbits - b.npad)))) := rfl
  rw [e, padTaken, padTaken]
  omega

/-- Bits taken one run after another are taken together. -/
theorem dropBits_dropBits {b : BitReader} {n k : Nat} (hp : b.npad ≤ b.nbits) (h : n + k ≤ b.nbits) :
    dropBits (dropBits b n) k = dropBits b (n + k) := by
  have hpad := padTaken_dropBits hp h
  have hover : (b.overrun || decide (0 < padTaken b n) || decide (0 < padTaken (dropBits b n) k)) =
      (b.overrun || decide (0 < padTaken b (n + k))) := by
    rw [← hpad, Bool.or_assoc, ← Bool.decide_or]
    congr 1
    exact decide_eq_decide.2 (by omega)
  have hn : b.npad - padTaken b n - padTaken (dropBits b n) k = b.npad - padTaken b (n + k) := by omega
  have hb : b.nbits - n - k = b.nbits - (n + k) := by omega
  calc dropBits (dropBits b n) k
      = { b with acc := b.acc <<< n <<< k, nbits := b.nbits - n - k,
                 npad := b.npad - padTaken b n - padTaken (dropBits b n) k,
                 overrun := b.overrun || decide (0 < padTaken b n) || decide (0 < padTaken (dropBits b n) k) } := rfl
    _ = dropBits b (n + k) := by rw [hover, hn, hb, ← BitVec.shiftLeft_add]; rfl

/-- Dropping bits keeps R52. -/
theorem dropBits_brOk {b : BitReader} {n size : Nat} (hb : BrOk b size) (hn : n ≤ b.nbits) :
    BrOk (dropBits b n) size := by
  have h1 := hb.npad_le
  have h2 := hb.nbits_le
  refine ⟨?_, ?_, ?_, hb.pos_le, hb.end_le, hb.mfound_ended, ?_⟩
  · simp only [dropBits, padTaken]; omega
  · simp only [dropBits]; omega
  · refine mod_two_pow_eq_zero_iff.2 fun j hj => ?_
    simp only [dropBits, padTaken] at hj
    show (b.acc <<< n).getLsbD j = false
    rw [BitVec.getLsbD_shiftLeft]
    by_cases hjn : j < n
    · simp [hjn]
    · rw [hb.low_bits (by omega), Bool.and_false]
  · intro hp
    refine hb.pad_ended ?_
    simp only [dropBits] at hp
    omega

/-! ### Opening a segment -/

theorem segmentAt_brOk {a len size : Nat} (h : a + len ≤ size) : BrOk (segmentAt a len) size := by
  refine ⟨?_, ?_, ?_, ?_, ?_, ?_, ?_⟩ <;> simp [segmentAt, BitReader.zero]
  exact h

theorem zero_brOk (size : Nat) : BrOk BitReader.zero size := by
  refine ⟨?_, ?_, ?_, ?_, ?_, ?_, ?_⟩ <;> simp [BitReader.zero]

/-! ### BR_SKIP_MARKER's scan -/

/-- The run of fill bytes that is skipped lies in the segment. -/
theorem skipFill_bounds {i : Instr} {m : Memory} {e k q r : Nat} (h : skipFill i m e k q = .ok r) (hq : q ≤ e) :
    q ≤ r ∧ r ≤ e := by
  induction k generalizing q with
  | zero =>
    rw [← Except.ok.inj h]
    omega
  | succ k ih =>
    rw [skipFill] at h
    split at h
    · obtain ⟨v, -, h2⟩ := bind_eq_ok h
      split at h2
      · have := ih h2 (by omega)
        omega
      · rw [← Except.ok.inj h2]
        omega
    · rw [← Except.ok.inj h]
      omega

/-- A marker found lies in the segment. -/
theorem scanMarker_bounds {i : Instr} {m : Memory} {e k p q : Nat} {c : Byte}
    (h : scanMarker i m e k p = .ok (some (c, q))) : p ≤ q ∧ q ≤ e := by
  induction k generalizing p with
  | zero => cases h
  | succ k ih =>
    rw [scanMarker] at h
    split at h
    · obtain ⟨v, -, h2⟩ := bind_eq_ok h
      split at h2
      · have := ih h2
        omega
      · obtain ⟨r, h3, h4⟩ := bind_eq_ok h2
        have := skipFill_bounds h3 (by omega)
        split at h4
        · cases h4
        · obtain ⟨c', -, h6⟩ := bind_eq_ok h4
          split at h6
          · have := ih h6
            omega
          · have h7 := Except.ok.inj h6
            rw [Option.some.injEq, Prod.mk.injEq] at h7
            omega
    · cases h

/-- Skipping fill bytes stops only at an unwritten byte. -/
theorem skipFill_error {i : Instr} {m : Memory} {e k q : Nat} {x : CmdStop} (h : skipFill i m e k q = .error x) :
    ∃ a, q ≤ a ∧ a < e ∧ m.read? a = none ∧ x = .fault (.unwrittenByte i a) := by
  induction k generalizing q with
  | zero => cases h
  | succ k ih =>
    rw [skipFill] at h
    split at h
    · rename_i hq
      rcases readByte_cases i m q with ⟨v, hv, hr⟩ | ⟨hv, hr⟩
      · rw [hr, ok_bind] at h
        split at h
        · obtain ⟨a, h1, h2, h3⟩ := ih h
          exact ⟨a, by omega, h2, h3⟩
        · cases h
      · rw [hr, error_bind] at h
        exact ⟨q, le_refl _, hq, hv, (Except.error.inj h).symm⟩
    · cases h

/-- The scan stops only at an unwritten byte of the segment. -/
theorem scanMarker_error {i : Instr} {m : Memory} {e k p : Nat} {x : CmdStop} (h : scanMarker i m e k p = .error x) :
    ∃ a, p ≤ a ∧ a < e ∧ m.read? a = none ∧ x = .fault (.unwrittenByte i a) := by
  induction k generalizing p with
  | zero => cases h
  | succ k ih =>
    rw [scanMarker] at h
    split at h
    · rename_i hp
      rcases readByte_cases i m p with ⟨v, hv, hr⟩ | ⟨hv, hr⟩
      · rw [hr, ok_bind] at h
        split at h
        · obtain ⟨a, h1, h2, h3⟩ := ih h
          exact ⟨a, by omega, h2, h3⟩
        · rcases bind_eq_error h with h1 | ⟨q, h1, h2⟩
          · obtain ⟨a, g1, g2, g3⟩ := skipFill_error h1
            exact ⟨a, by omega, g2, g3⟩
          · have hb := skipFill_bounds h1 (by omega)
            split at h2
            · cases h2
            · rcases readByte_cases i m q with ⟨c, hc, hr'⟩ | ⟨hc, hr'⟩
              · rw [hr', ok_bind] at h2
                split at h2
                · obtain ⟨a, g1, g2, g3⟩ := ih h2
                  exact ⟨a, by omega, g2, g3⟩
                · cases h2
              · rw [hr', error_bind] at h2
                exact ⟨q, by omega, by omega, hc, (Except.error.inj h2).symm⟩
      · rw [hr, error_bind] at h
        exact ⟨p, le_refl _, hp, hv, (Except.error.inj h).symm⟩
    · cases h

end Sys2Proof.Machine
end

