-- ==== Sys2Proof/Laws/Decode.lean ====
section
/-! SUPPORT. Decoding: the opcode map as membership, the rest of the decode per format, and the fields of an encoded
word. -/

namespace Sys2Proof

/-- An opcode found in the map stands in one of its rows. -/
theorem mem_opcodeMap_of_lookup {b : BitVec 8} {x : OpShape} (h : opcodeMap.lookup b = some x) :
    (b, x) ∈ opcodeMap := by
  have key : ∀ l : List (BitVec 8 × OpShape), l.lookup b = some x → (b, x) ∈ l := by
    intro l
    induction l with
    | nil => intro h; cases h
    | cons e l ih =>
      obtain ⟨c, y⟩ := e
      intro h
      rw [List.lookup_cons] at h
      cases hc : b == c with
      | true =>
        simp only [hc, Option.some.injEq] at h
        subst h
        rw [beq_iff_eq] at hc
        subst hc
        exact List.mem_cons_self
      | false =>
        simp only [hc] at h
        exact List.mem_cons_of_mem _ (ih h)
  exact key _ h

/-- An opcode the map does not list stands in none of its rows. -/
theorem lookup_opcodeMap_eq_none {b : BitVec 8} : opcodeMap.lookup b = none ↔
    b ∉ [(0x00 : BitVec 8), 0x01, 0x10, 0x11, 0x12, 0x13, 0x14, 0x15, 0x20, 0x21, 0x22, 0x23, 0x24, 0x30, 0x40, 0x41,
      0x42, 0x43, 0x50, 0x51, 0x52, 0x53, 0x54] := by
  rw [List.lookup_eq_none_iff]
  simp [opcodeMap]

/-- A word that decodes has its opcode's row in the map, and the row's format accepts it. -/
theorem decode_ok {w : Word} {i : Instr} (h : decode w = .ok i) :
    ∃ x, (opcodeByte w, x) ∈ opcodeMap ∧ decodeShape w x = .ok i := by
  unfold decode at h
  cases hl : opcodeMap.lookup (opcodeByte w) with
  | none => simp [hl] at h
  | some x => exact ⟨x, mem_opcodeMap_of_lookup hl, by simpa [hl] using h⟩

theorem decodeShape_n {w : Word} {j i : Instr} (h : decodeShape w (.n j) = .ok i) :
    i = j ∧ w.extractLsb' 8 24 = 0 := by
  simp only [decodeShape] at h
  split at h
  · exact ⟨(Except.ok.inj h).symm, ‹_›⟩
  · cases h

theorem decodeShape_t {w : Word} {make : BitVec 3 → Instr} {i : Instr} (h : decodeShape w (.t make) = .ok i) :
    i = make (w.extractLsb' 8 3) ∧ w.extractLsb' 11 21 = 0 := by
  simp only [decodeShape] at h
  split at h
  · exact ⟨(Except.ok.inj h).symm, ‹_›⟩
  · cases h

theorem decodeShape_b {w : Word} {make : BitVec 6 → Instr} {i : Instr} (h : decodeShape w (.b make) = .ok i) :
    i = make (w.extractLsb' 8 6) ∧ w.extractLsb' 14 18 = 0 ∧ (w.extractLsb' 8 6).toNat ≤ 32 := by
  simp only [decodeShape] at h
  split at h
  · cases h
  · split at h
    · cases h
    · exact ⟨(Except.ok.inj h).symm, by simpa using ‹¬ w.extractLsb' 14 18 ≠ 0›, by omega⟩

/-! ### The rows of the map -/

/-- What a row says of its command: the opcode, the field byte and the legal fields. -/
def OpShape.Row (b : BitVec 8) : OpShape → Prop
  | .n i => i.opcode = b ∧ i.fieldByte = 0 ∧ i.wellFormed = true
  | .t make => ∀ t, (make t).opcode = b ∧ (make t).fieldByte = t.setWidth 8 ∧ (make t).wellFormed = true
  | .b make => ∀ n, (make n).opcode = b ∧ (make n).fieldByte = n.setWidth 8 ∧
      ((make n).wellFormed = true ↔ n.toNat ≤ 32)

/-- Every row of the map is right about its command. -/
theorem row_of_mem_opcodeMap {b : BitVec 8} {x : OpShape} (h : (b, x) ∈ opcodeMap) : x.Row b := by
  have key : ∀ e ∈ opcodeMap, e.2.Row e.1 := by
    simp only [opcodeMap, List.mem_append, List.mem_cons, List.not_mem_nil, or_false, or_imp, forall_and,
      forall_eq]
    simp [OpShape.Row, Instr.opcode, Instr.fieldByte, Instr.wellFormed]
  exact key _ h

/-- A decoded command has the opcode of its word (R91). -/
theorem decode_opcode {w : Word} {i : Instr} (h : decode w = .ok i) : i.opcode = opcodeByte w := by
  obtain ⟨x, hm, hs⟩ := decode_ok h
  have hrow := row_of_mem_opcodeMap hm
  cases x with
  | n j =>
    obtain ⟨rfl, -⟩ := decodeShape_n hs
    exact hrow.1
  | t make =>
    obtain ⟨rfl, -⟩ := decodeShape_t hs
    exact (hrow _).1
  | b make =>
    obtain ⟨rfl, -, -⟩ := decodeShape_b hs
    exact (hrow _).1

/-! ### A word from its fields -/

/-- A word whose bits from 16 up are zero, from its two low bytes. -/
theorem word_of_bytes {w : Word} {f : BitVec 8} (h : w.toNat / 2 ^ 8 = f.toNat) :
    w = 0#16 ++ (f ++ opcodeByte w) := by
  apply BitVec.eq_of_toNat_eq
  have hf := f.isLt
  have hw : (opcodeByte w).toNat = w.toNat % 2 ^ 8 := by simp [opcodeByte, BitVec.extractLsb']
  simp only [BitVec.toNat_append, BitVec.toNat_ofNat, Nat.zero_mod, Nat.zero_shiftLeft, Nat.zero_or, hw]
  rw [Nat.shiftLeft_eq, Nat.mul_comm, ← Nat.two_pow_add_eq_or_of_lt (Nat.mod_lt _ (by decide))]
  omega

/-- A word of format N. -/
theorem word_of_fields_n {w : Word} (h : w.extractLsb' 8 24 = 0) : w = 0#16 ++ (0#8 ++ opcodeByte w) := by
  apply word_of_bytes
  have h1 := congrArg BitVec.toNat h
  have := w.isLt
  simp [BitVec.extractLsb', Nat.shiftRight_eq_div_pow] at h1 ⊢
  omega

/-- A word of format T. -/
theorem word_of_fields_t {w : Word} (h : w.extractLsb' 11 21 = 0) :
    w = 0#16 ++ ((w.extractLsb' 8 3).setWidth 8 ++ opcodeByte w) := by
  apply word_of_bytes
  have h1 := congrArg BitVec.toNat h
  have := w.isLt
  simp [BitVec.extractLsb', Nat.shiftRight_eq_div_pow] at h1 ⊢
  omega

/-- A word of format B. -/
theorem word_of_fields_b {w : Word} (h : w.extractLsb' 14 18 = 0) :
    w = 0#16 ++ ((w.extractLsb' 8 6).setWidth 8 ++ opcodeByte w) := by
  apply word_of_bytes
  have h1 := congrArg BitVec.toNat h
  have := w.isLt
  simp [BitVec.extractLsb', Nat.shiftRight_eq_div_pow] at h1 ⊢
  omega

end Sys2Proof
end

