-- ==== Sys2Proof/Laws/Image.lean ====
section
/-! SUPPORT. The bytes the storing commands write: how many there are, and which value stands where. -/

namespace Sys2Proof.Machine

/-! ### Lists of equal pieces -/

/-- Pieces of one length, one after another: how many elements. -/
theorem length_flatMap_range {α : Type} {f : Nat → List α} {c : Nat} (n : Nat) (h : ∀ i, i < n → (f i).length = c) :
    ((List.range n).flatMap f).length = c * n := by
  induction n with
  | zero => simp
  | succ n ih =>
    rw [List.range_succ, List.flatMap_append, List.length_append, ih fun i hi => h i (by omega)]
    simp [h n (by omega), Nat.mul_succ]

/-- Pieces of one length, one after another: which element stands where. -/
theorem getElem?_flatMap_range {α : Type} {f : Nat → List α} {c n i j : Nat} (h : ∀ i, i < n → (f i).length = c)
    (hi : i < n) (hj : j < c) : ((List.range n).flatMap f)[c * i + j]? = (f i)[j]? := by
  induction n with
  | zero => omega
  | succ n ih =>
    have hl := length_flatMap_range n fun i hi => h i (by omega)
    rw [List.range_succ, List.flatMap_append]
    by_cases hin : i < n
    · rw [List.getElem?_append_left, ih (fun i hi => h i (by omega)) hin]
      rw [hl]
      calc c * i + j < c * i + c := by omega
        _ = c * (i + 1) := by ring
        _ ≤ c * n := Nat.mul_le_mul_left c hin
    · obtain rfl : i = n := by omega
      rw [List.getElem?_append_right (by rw [hl]; omega), hl, Nat.add_sub_cancel_left]
      simp

/-! ### The upsampler's rows -/

@[simp] theorem hpair_length (s : List Byte) (i : Nat) : (hpair s i).length = 2 := rfl

@[simp] theorem hrow_length (s : List Byte) : (hrow s).length = 2 * s.length :=
  length_flatMap_range _ fun _ _ => rfl

@[simp] theorem vrow_length (c n : List Byte) : (vrow c n).length = min c.length n.length :=
  List.length_zipWith

/-- Both outputs of sample `i` of a row (R214). -/
theorem hrow_getElem? {s : List Byte} {i j : Nat} (hi : i < s.length) (hj : j < 2) :
    (hrow s)[2 * i + j]? = (hpair s i)[j]? :=
  getElem?_flatMap_range (fun _ _ => rfl) hi hj

theorem vrow_getElem? (c n : List Byte) {i : Nat} (hc : i < c.length) (hn : i < n.length) :
    (vrow c n)[i]? = some (tri (at8 c i) (at8 n i)) := by
  simp [vrow, at8, List.getElem?_zipWith, List.getElem?_eq_getElem hc, List.getElem?_eq_getElem hn]

/-- The triangle value fits a byte (R219). -/
theorem tri_toNat (c n : Byte) : (tri c n).toNat = (3 * c.toNat + n.toNat + 2) / 4 := by
  have := c.isLt
  have := n.isLt
  simp only [tri, BitVec.toNat_ofNat]
  omega

/-- A sample is its own neighbour at the boundary: `tri(c, c) = c` (R214). -/
@[simp] theorem tri_self (c : Byte) : tri c c = c := by
  apply BitVec.eq_of_toNat_eq
  rw [tri_toNat]
  omega

/-! ### The colour converter's pixels -/

/-- Three planes of one length: how many bytes. -/
theorem interleave_length {pixel : Byte → Byte → Byte → List Byte} {bpp : Nat}
    (hp : ∀ a b c, (pixel a b c).length = bpp) {ys cbs crs : List Byte} (h1 : cbs.length = ys.length)
    (h2 : crs.length = ys.length) : (interleave pixel ys cbs crs).length = bpp * ys.length := by
  induction ys generalizing cbs crs with
  | nil => simp [interleave]
  | cons y ys ih =>
    cases cbs with
    | nil => simp at h1
    | cons cb cbs =>
      cases crs with
      | nil => simp at h2
      | cons cr crs =>
        simp only [List.length_cons, Nat.add_right_cancel_iff] at h1 h2
        rw [interleave, List.length_append, hp, ih h1 h2, List.length_cons, Nat.mul_succ, Nat.add_comm]

/-- Three planes of one length: byte `k` of pixel `j`. -/
theorem interleave_getElem? {pixel : Byte → Byte → Byte → List Byte} {bpp : Nat}
    (hp : ∀ a b c, (pixel a b c).length = bpp) {ys cbs crs : List Byte} (h1 : cbs.length = ys.length)
    (h2 : crs.length = ys.length) {j k : Nat} (hj : j < ys.length) (hk : k < bpp) :
    (interleave pixel ys cbs crs)[bpp * j + k]? = (pixel (at8 ys j) (at8 cbs j) (at8 crs j))[k]? := by
  induction ys generalizing cbs crs j with
  | nil => simp at hj
  | cons y ys ih =>
    cases cbs with
    | nil => simp at h1
    | cons cb cbs =>
      cases crs with
      | nil => simp at h2
      | cons cr crs =>
        simp only [List.length_cons, Nat.add_right_cancel_iff] at h1 h2
        rw [interleave]
        cases j with
        | zero =>
          rw [Nat.mul_zero, Nat.zero_add, List.getElem?_append_left (by rw [hp]; exact hk)]
          rfl
        | succ j =>
          rw [List.getElem?_append_right (by rw [hp, Nat.mul_succ]; omega), hp,
            show bpp * (j + 1) + k - bpp = bpp * j + k by rw [Nat.mul_succ]; omega,
            ih h1 h2 (by simpa using hj)]
          rfl

/-- clamp255 as a number. -/
theorem clamp255_toNat (v : Int) : ((clamp255 v).toNat : Int) = max 0 (min 255 v) := by
  unfold clamp255
  split
  · simp
    omega
  · split
    · simp
      omega
    · rw [BitVec.toNat_ofInt]
      omega

/-! ### The lookup table's image -/

@[simp] theorem lutBytes_length (h : HtSlot) (k : Nat) : (h.lutBytes k).length = 2 * 2 ^ k :=
  length_flatMap_range _ fun _ _ => leBytes_length _ _

/-- Byte `j` of entry `i`. -/
theorem lutBytes_getElem? (h : HtSlot) {k i j : Nat} (hi : i < 2 ^ k) (hj : j < 2) :
    (h.lutBytes k)[2 * i + j]? = (leBytes 2 (h.lutEntry k i).toNat)[j]? :=
  getElem?_flatMap_range (f := fun i => leBytes 2 (h.lutEntry k i).toNat) (fun _ _ => leBytes_length _ _) hi hj

/-! ### The block's cells -/

theorem mem_blockCells {oa st : Nat} {o : List Byte} {c : Host.Cell} (h : c ∈ blockCells oa st o) :
    ∃ k, k < 64 ∧ c = (oa + k / 8 * st + k % 8, o.getD k 0) := by
  obtain ⟨k, hk, rfl⟩ := List.mem_map.1 h
  exact ⟨k, List.mem_range.1 hk, rfl⟩

/-- The cells before and after cell `k`. -/
theorem blockCells_split {oa st k : Nat} (o : List Byte) (hk : k < 64) :
    blockCells oa st o =
      (List.range k).map (fun k => (oa + k / 8 * st + k % 8, o.getD k 0)) ++
      (oa + k / 8 * st + k % 8, o.getD k 0) ::
      ((List.range (63 - k)).map (k + 1 + ·)).map (fun k => (oa + k / 8 * st + k % 8, o.getD k 0)) := by
  unfold blockCells
  rw [show 64 = k + 1 + (63 - k) by omega, List.range_add, List.range_succ]
  simp

end Sys2Proof.Machine
end

