-- ==== Sys2Proof/Laws/Effect.lean ====
section
/-! SUPPORT. What each command can do, said once: the working copy it commits when it ends without error. -/

namespace Sys2Proof.Machine

/-- All regions of a command lie in LMEM (R72). -/
abbrev InLmem (s : State) (rs : List (Nat × Nat)) : Prop := ∀ r ∈ rs, r.1 + r.2 ≤ s.params.lmemSize

/-- What a conversion reads and commits (R235 to R237, R239). -/
def Converted (i : Instr) (bpp : Nat) (pixel : Byte → Byte → Byte → List Byte) (s u : State) : Prop :=
  ∃ ys cbs crs,
    InLmem s [(s.opnd0, s.opnd4), (s.opnd1, s.opnd4), (s.opnd2, s.opnd4), (s.opnd3, bpp * s.opnd4)] ∧
    readBytes i s.lmem s.opnd0 s.opnd4 = .ok ys ∧ readBytes i s.lmem s.opnd1 s.opnd4 = .ok cbs ∧
    readBytes i s.lmem s.opnd2 s.opnd4 = .ok crs ∧
    u = { s with lmem := s.lmem.writeBytes s.opnd3 (interleave pixel ys cbs crs) }

/-- The working copy `u` that command `i` commits in `s`. -/
def Effect (i : Instr) (s u : State) : Prop :=
  match i with
  | .nop => u = s
  | .coreInit => u = initCore s
  | .brInit => s.opnd0 + s.opnd1 ≤ s.params.lmemSize ∧ u = { s with br := segmentAt s.opnd0 s.opnd1 }
  | .brRefill => ∃ b, refill .brRefill s.lmem s.br = .ok b ∧ u = { s with br := b }
  | .brPeek n => n.toNat ≤ s.br.nbits ∧ u = s.setRes0 (zres (peekBits s.br n.toNat))
  | .brGet n => n.toNat ≤ s.br.nbits ∧
      ∃ v b, consume s.br n.toNat s.strict = .ok (v, b) ∧ u = { s with br := b }.setRes0 (zres v)
  | .brHas n => u = s.setRes0 (zres (if n.toNat ≤ s.br.nbits then 1 else 0))
  | .brSkipMarker => ∃ r, findMarker .brSkipMarker s.lmem s.br = .ok r ∧ u = skipTo s r
  | .htBuild t => ∃ count sym,
      s.opnd0 + 16 ≤ s.params.lmemSize ∧ readBytes (.htBuild t) s.lmem s.opnd0 16 = .ok count ∧
      countSum count ≤ 256 ∧ countSum count ≠ 0 ∧ kraft count ≤ 65536 ∧
      s.opnd0 + 16 + countSum count ≤ s.params.lmemSize ∧
      readBytes (.htBuild t) s.lmem (s.opnd0 + 16) (countSum count) = .ok sym ∧
      u = (s.setSlot t (builtSlot count sym)).setRes01 (zres (countSum count)) (zres (kraft count))
  | .htDecode t => ∃ sym l b v c, decodeSym (.htDecode t) t s = .ok (sym, l, b) ∧
      consume b l s.strict = .ok (v, c) ∧ u = { s with br := c }.setRes01 (zres sym.toNat) (zres l)
  | .htDecodeDc t => ∃ sym l b v c x d, decodeSym (.htDecodeDc t) t s = .ok (sym, l, b) ∧ sym.toNat ≤ 11 ∧
      consume b l s.strict = .ok (v, c) ∧ consume c sym.toNat s.strict = .ok (x, d) ∧
      u = { s with br := d }.setRes01 (sres (extend x sym.toNat)) (zres sym.toNat)
  | .htDecodeAc t => ∃ sym l b v c x d, decodeSym (.htDecodeAc t) t s = .ok (sym, l, b) ∧
      consume b l s.strict = .ok (v, c) ∧ consume c (sym.toNat % 16) s.strict = .ok (x, d) ∧
      u = { s with br := d }.setRes012 (sres (extend x (sym.toNat % 16))) (zres sym.toNat)
        (zres (acKind (sym.toNat / 16) (sym.toNat % 16)))
  | .htDump t => (s.slot t).valid = true ∧ s.opnd0 + 2 * 2 ^ s.params.fastBits ≤ s.params.lmemSize ∧
      u = { s with lmem := s.lmem.writeBytes s.opnd0 ((s.slot t).lutBytes s.params.fastBits) }.setRes0
        (zres (2 ^ s.params.fastBits))
  | .idct => ∃ c, InLmem s [(s.opnd0, 256), (s.opnd1 + 7 * s.opnd2, 8)] ∧
      readWords .idct s.lmem s.opnd0 64 = .ok c ∧
      u = { s with lmem := s.lmem.writeCells (blockCells s.opnd1 s.opnd2 (idctKernel s.params.kernel c)) }
  | .upsNone => ∃ row, InLmem s [(s.opnd0, s.opnd4), (s.opnd3, s.opnd4)] ∧
      readBytes .upsNone s.lmem s.opnd0 s.opnd4 = .ok row ∧ u = { s with lmem := s.lmem.writeBytes s.opnd3 row }
  | .upsH => ∃ row, InLmem s [(s.opnd0, s.opnd4), (s.opnd3, 2 * s.opnd4)] ∧
      readBytes .upsH s.lmem s.opnd0 s.opnd4 = .ok row ∧
      u = { s with lmem := s.lmem.writeBytes s.opnd3 (hrow row) }
  | .upsV => ∃ c n f,
      InLmem s [(s.opnd0, s.opnd4), (s.opnd1, s.opnd4), (s.opnd2, s.opnd4), (s.opnd3, 2 * s.opnd4)] ∧
      readRows .upsV s = .ok (c, n, f) ∧ u = { s with lmem := s.lmem.writeBytes s.opnd3 (vrow c n ++ vrow c f) }
  | .upsHv => ∃ c n f,
      InLmem s [(s.opnd0, s.opnd4), (s.opnd1, s.opnd4), (s.opnd2, s.opnd4), (s.opnd3, 4 * s.opnd4)] ∧
      readRows .upsHv s = .ok (c, n, f) ∧
      u = { s with lmem := s.lmem.writeBytes s.opnd3 (hrow (vrow c n) ++ hrow (vrow c f)) }
  | .ccRgb => Converted .ccRgb 3 pixelRgb s u
  | .ccRgba => Converted .ccRgba 4 pixelRgba s u
  | .ccRgbx => Converted .ccRgbx 4 pixelRgbx s u
  | .ccGray => ∃ ys, InLmem s [(s.opnd0, s.opnd4), (s.opnd3, s.opnd4)] ∧
      readBytes .ccGray s.lmem s.opnd0 s.opnd4 = .ok ys ∧ u = { s with lmem := s.lmem.writeBytes s.opnd3 ys }
  | .ccYcbcr => Converted .ccYcbcr 3 pixelYcbcr s u

/-! ### The shared parts -/

theorem require_decide_eq_ok {p : Prop} [Decidable p] {k : ErrKind} {u : Unit} (h : require (decide p) k = .ok u) : p :=
  of_decide_eq_true (require_eq_ok h)

/-- `decode_sym` succeeds on a valid slot, from a refilled reader, with a matching codeword. -/
theorem decodeSym_eq_ok {i : Instr} {t : BitVec 3} {s : State} {sym : Byte} {l : Nat} {b : BitReader}
    (h : decodeSym i t s = .ok (sym, l, b)) :
    (s.slot t).valid = true ∧ refill i s.lmem s.br = .ok b ∧
      (s.slot t).decode (b.acc.extractLsb' 48 16) = some (sym, l) := by
  unfold decodeSym at h
  obtain ⟨_, h1, h⟩ := bind_eq_ok h
  obtain ⟨b', h2, h⟩ := bind_eq_ok h
  cases hd : (s.slot t).decode (b'.acc.extractLsb' 48 16) with
  | none => simp [hd, raise] at h
  | some r =>
    obtain ⟨y, m⟩ := r
    simp only [hd, pure_eq_ok, Except.ok.injEq, Prod.mk.injEq] at h
    obtain ⟨rfl, rfl, rfl⟩ := h
    exact ⟨require_eq_ok h1, h2, hd⟩

theorem convert_eq_ok {i : Instr} {bpp : Nat} {pixel : Byte → Byte → Byte → List Byte} {s u : State}
    (h : convert i bpp pixel s = .ok u) : Converted i bpp pixel s u := by
  unfold convert at h
  obtain ⟨_, h1, h⟩ := bind_eq_ok h
  obtain ⟨ys, h2, h⟩ := bind_eq_ok h
  obtain ⟨cbs, h3, h⟩ := bind_eq_ok h
  obtain ⟨crs, h4, h⟩ := bind_eq_ok h
  exact ⟨ys, cbs, crs, checkRegions_eq_ok.1 h1, h2, h3, h4, (Except.ok.inj h).symm⟩

/-- A conversion stores `bpp` bytes a pixel, all in LMEM. -/
theorem Converted.output {i : Instr} {bpp : Nat} {pixel : Byte → Byte → Byte → List Byte} {s u : State}
    (hp : ∀ a b c, (pixel a b c).length = bpp) (h : Converted i bpp pixel s u) :
    ∃ bs : List Byte, bs.length = bpp * s.opnd4 ∧ s.opnd3 + bpp * s.opnd4 ≤ s.params.lmemSize ∧
      u = { s with lmem := s.lmem.writeBytes s.opnd3 bs } := by
  obtain ⟨ys, cbs, crs, h1, h2, h3, h4, h5⟩ := h
  refine ⟨interleave pixel ys cbs crs, ?_, h1 (s.opnd3, bpp * s.opnd4) (by simp), h5⟩
  rw [interleave_length hp (by rw [readBytes_length h2, readBytes_length h3])
    (by rw [readBytes_length h2, readBytes_length h4]), readBytes_length h2]

/-! ### The inversion -/

/-- A command that reaches a next state has either raised an error, or committed the working copy of its rule. -/
theorem exec_next_cases {i : Instr} {s t : State} (h : exec i s = .next t) :
    (∃ k, t = raiseError i.opcode k s) ∨ ∃ u, Effect i s u ∧ t = complete u := by
  have key : ∀ x : CmdM State, exec i s = commit i s x → (∀ u, x = .ok u → Effect i s u) →
      (∃ k, t = raiseError i.opcode k s) ∨ ∃ u, Effect i s u ∧ t = complete u := by
    intro x hx hu
    rw [hx] at h
    rcases commit_next h with ⟨u, h1, h2⟩ | ⟨k, -, h2⟩
    · exact .inr ⟨u, hu u h1, h2⟩
    · exact .inl ⟨k, h2⟩
  cases i with
  | nop => exact key (.ok s) rfl fun u hu => (Except.ok.inj hu).symm
  | coreInit => exact key (.ok (initCore s)) rfl fun u hu => (Except.ok.inj hu).symm
  | brHas n =>
    exact key (.ok (s.setRes0 (zres (if n.toNat ≤ s.br.nbits then 1 else 0)))) rfl fun u hu => (Except.ok.inj hu).symm
  | brInit =>
    refine key _ rfl fun u hu => ?_
    obtain ⟨_, h1, hu⟩ := bind_eq_ok hu
    exact ⟨inRange_iff.1 (require_eq_ok h1), (Except.ok.inj hu).symm⟩
  | brRefill =>
    refine key _ rfl fun u hu => ?_
    obtain ⟨b, h1, hu⟩ := bind_eq_ok hu
    exact ⟨b, h1, (Except.ok.inj hu).symm⟩
  | brPeek n =>
    refine key _ rfl fun u hu => ?_
    obtain ⟨_, h1, hu⟩ := bind_eq_ok hu
    exact ⟨require_decide_eq_ok h1, (Except.ok.inj hu).symm⟩
  | brGet n =>
    refine key _ rfl fun u hu => ?_
    obtain ⟨_, h1, hu⟩ := bind_eq_ok hu
    obtain ⟨⟨v, b⟩, h2, hu⟩ := bind_eq_ok hu
    exact ⟨require_decide_eq_ok h1, v, b, h2, (Except.ok.inj hu).symm⟩
  | brSkipMarker =>
    refine key _ rfl fun u hu => ?_
    obtain ⟨r, h1, hu⟩ := bind_eq_ok hu
    exact ⟨r, h1, (Except.ok.inj hu).symm⟩
  | htBuild t =>
    refine key _ rfl fun u hu => ?_
    obtain ⟨_, h1, hu⟩ := bind_eq_ok hu
    obtain ⟨count, h2, hu⟩ := bind_eq_ok hu
    obtain ⟨_, h3, hu⟩ := bind_eq_ok hu
    obtain ⟨_, h4, hu⟩ := bind_eq_ok hu
    obtain ⟨_, h5, hu⟩ := bind_eq_ok hu
    obtain ⟨_, h6, hu⟩ := bind_eq_ok hu
    obtain ⟨sym, h7, hu⟩ := bind_eq_ok hu
    exact ⟨count, sym, inRange_iff.1 (require_eq_ok h1), h2, require_decide_eq_ok h3, require_decide_eq_ok h4,
      require_decide_eq_ok h5, inRange_iff.1 (require_eq_ok h6), h7, (Except.ok.inj hu).symm⟩
  | htDecode t =>
    refine key _ rfl fun u hu => ?_
    obtain ⟨⟨sym, l, b⟩, h1, hu⟩ := bind_eq_ok hu
    obtain ⟨⟨v, c⟩, h2, hu⟩ := bind_eq_ok hu
    exact ⟨sym, l, b, v, c, h1, h2, (Except.ok.inj hu).symm⟩
  | htDecodeDc t =>
    refine key _ rfl fun u hu => ?_
    obtain ⟨⟨sym, l, b⟩, h1, hu⟩ := bind_eq_ok hu
    obtain ⟨_, h2, hu⟩ := bind_eq_ok hu
    obtain ⟨⟨v, c⟩, h3, hu⟩ := bind_eq_ok hu
    obtain ⟨⟨x, d⟩, h4, hu⟩ := bind_eq_ok hu
    exact ⟨sym, l, b, v, c, x, d, h1, require_decide_eq_ok h2, h3, h4, (Except.ok.inj hu).symm⟩
  | htDecodeAc t =>
    refine key _ rfl fun u hu => ?_
    obtain ⟨⟨sym, l, b⟩, h1, hu⟩ := bind_eq_ok hu
    obtain ⟨⟨v, c⟩, h2, hu⟩ := bind_eq_ok hu
    obtain ⟨⟨x, d⟩, h3, hu⟩ := bind_eq_ok hu
    exact ⟨sym, l, b, v, c, x, d, h1, h2, h3, (Except.ok.inj hu).symm⟩
  | htDump t =>
    refine key _ rfl fun u hu => ?_
    obtain ⟨_, h1, hu⟩ := bind_eq_ok hu
    obtain ⟨_, h2, hu⟩ := bind_eq_ok hu
    exact ⟨require_eq_ok h1, inRange_iff.1 (require_eq_ok h2), (Except.ok.inj hu).symm⟩
  | idct =>
    refine key _ rfl fun u hu => ?_
    obtain ⟨_, h1, hu⟩ := bind_eq_ok hu
    obtain ⟨c, h2, hu⟩ := bind_eq_ok hu
    exact ⟨c, checkRegions_eq_ok.1 h1, h2, (Except.ok.inj hu).symm⟩
  | upsNone =>
    refine key _ rfl fun u hu => ?_
    obtain ⟨_, h1, hu⟩ := bind_eq_ok hu
    obtain ⟨row, h2, hu⟩ := bind_eq_ok hu
    exact ⟨row, checkRegions_eq_ok.1 h1, h2, (Except.ok.inj hu).symm⟩
  | upsH =>
    refine key _ rfl fun u hu => ?_
    obtain ⟨_, h1, hu⟩ := bind_eq_ok hu
    obtain ⟨row, h2, hu⟩ := bind_eq_ok hu
    exact ⟨row, checkRegions_eq_ok.1 h1, h2, (Except.ok.inj hu).symm⟩
  | upsV =>
    refine key _ rfl fun u hu => ?_
    obtain ⟨_, h1, hu⟩ := bind_eq_ok hu
    obtain ⟨⟨c, n, f⟩, h2, hu⟩ := bind_eq_ok hu
    exact ⟨c, n, f, checkRegions_eq_ok.1 h1, h2, (Except.ok.inj hu).symm⟩
  | upsHv =>
    refine key _ rfl fun u hu => ?_
    obtain ⟨_, h1, hu⟩ := bind_eq_ok hu
    obtain ⟨⟨c, n, f⟩, h2, hu⟩ := bind_eq_ok hu
    exact ⟨c, n, f, checkRegions_eq_ok.1 h1, h2, (Except.ok.inj hu).symm⟩
  | ccRgb => exact key _ rfl fun _ hu => convert_eq_ok hu
  | ccRgba => exact key _ rfl fun _ hu => convert_eq_ok hu
  | ccRgbx => exact key _ rfl fun _ hu => convert_eq_ok hu
  | ccGray =>
    refine key _ rfl fun u hu => ?_
    obtain ⟨_, h1, hu⟩ := bind_eq_ok hu
    obtain ⟨ys, h2, hu⟩ := bind_eq_ok hu
    exact ⟨ys, checkRegions_eq_ok.1 h1, h2, (Except.ok.inj hu).symm⟩
  | ccYcbcr => exact key _ rfl fun _ hu => convert_eq_ok hu

/-- The three rows UPS_V and UPS_HV read. -/
theorem readRows_eq_ok {i : Instr} {s : State} {c n f : List Byte} (h : readRows i s = .ok (c, n, f)) :
    readBytes i s.lmem s.opnd0 s.opnd4 = .ok c ∧ readBytes i s.lmem s.opnd1 s.opnd4 = .ok n ∧
      readBytes i s.lmem s.opnd2 s.opnd4 = .ok f := by
  unfold readRows at h
  obtain ⟨c', h1, h⟩ := bind_eq_ok h
  obtain ⟨n', h2, h⟩ := bind_eq_ok h
  obtain ⟨f', h3, h⟩ := bind_eq_ok h
  simp only [pure_eq_ok, Except.ok.injEq, Prod.mk.injEq] at h
  obtain ⟨rfl, rfl, rfl⟩ := h
  exact ⟨h1, h2, h3⟩

end Sys2Proof.Machine
end

