-- ==== Sys2Proof/Laws/Host.lean ====
section
/-! SUPPORT. The host's side: the bits of STATUS, which accesses are refused, what an access answers when it is not, and
what one host operation can do. -/

namespace Sys2Proof.Machine

/-! ### The fields of STATUS (R35) -/

section Status
variable (s : State) (f : BitVec 3)

theorem statusWith_busy : (s.statusWith f).getLsbD 0 = s.busy := by
  simp only [State.statusWith, BitVec.getLsbD_append]
  simp

theorem statusWith_done : (s.statusWith f).getLsbD 1 = s.done := by
  simp only [State.statusWith, BitVec.getLsbD_append]
  simp

theorem statusWith_err : (s.statusWith f).getLsbD 2 = s.err.isSome := by
  simp only [State.statusWith, BitVec.getLsbD_append]
  simp

theorem statusWith_irq : (s.statusWith f).getLsbD 3 = s.irq := by
  simp only [State.statusWith, BitVec.getLsbD_append]
  simp

theorem statusWith_backend : (s.statusWith f).getLsbD 4 = s.backend := by
  simp only [State.statusWith, BitVec.getLsbD_append]
  simp

theorem statusWith_flags (k : Nat) (hk : k < 3) : (s.statusWith f).getLsbD (5 + k) = f.getLsbD k := by
  simp only [State.statusWith, BitVec.getLsbD_append]
  interval_cases k <;> simp

theorem statusWith_code : (s.statusWith f).extractLsb' 8 8 = s.errCode := by
  apply BitVec.eq_of_getLsbD_eq
  intro k hk
  simp only [State.statusWith, BitVec.getLsbD_extractLsb', BitVec.getLsbD_append]
  interval_cases k <;> simp

theorem statusWith_detail : (s.statusWith f).extractLsb' 16 4 = s.errDetail := by
  apply BitVec.eq_of_getLsbD_eq
  intro k hk
  simp only [State.statusWith, BitVec.getLsbD_extractLsb', BitVec.getLsbD_append]
  interval_cases k <;> simp

theorem statusWith_reserved : (s.statusWith f).extractLsb' 20 4 = 0 := by
  apply BitVec.eq_of_getLsbD_eq
  intro k hk
  simp only [State.statusWith, BitVec.getLsbD_extractLsb', BitVec.getLsbD_append]
  interval_cases k <;> simp

theorem statusWith_opc : (s.statusWith f).extractLsb' 24 8 = s.errOpc := by
  apply BitVec.eq_of_getLsbD_eq
  intro k hk
  simp only [State.statusWith, BitVec.getLsbD_extractLsb', BitVec.getLsbD_append]
  interval_cases k <;> simp

end Status

/-! ### One register read -/

/-- While the reset input is not asserted a read of STATUS gives the register with some bits [7:5], those of the bit
reader while BUSY = 0. -/
theorem readReg_status {s : State} (h : s.inReset = false) :
    ∃ f t, readReg 0x08 s = (s.statusWith f, t) ∧ (s.busy = false → f = s.br.flags) ∧
      t = { s with freeCtr := t.freeCtr } := by
  cases hb : s.busy with
  | true =>
    exact ⟨(Config.freeWord s.freeCtr).extractLsb' 5 3, drawn s, by simp [readReg, h, hb], by simp, by simp [drawn, hb]⟩
  | false => exact ⟨s.br.flags, s, by simp [readReg, h, hb, regValue, State.status], fun _ => rfl, by rw [← hb]⟩

/-- A register whose value is not open reads its value and changes nothing. -/
theorem readReg_plain {s : State} {off : Nat} (h : s.inReset = false)
    (hb : s.busy = true → off ≠ 0x08 ∧ openWhileBusy off = false) : readReg off s = (regValue s off, s) := by
  cases hc : s.busy with
  | false => simp [readReg, h, hc]
  | true =>
    obtain ⟨h1, h2⟩ := hb hc
    simp [readReg, h, hc, h1, h2]

/-- A register read moves nothing but the counter of free values. -/
theorem readReg_frame (off : Nat) (s : State) : (readReg off s).2 = { s with freeCtr := (readReg off s).2.freeCtr } := by
  unfold readReg
  split
  · rfl
  · split
    · rfl
    · split <;> rfl

/-! ### Which accesses are refused -/

theorem inWindow_eq_true {off : BitVec 17} : inWindow off = true ↔ 0x10000 ≤ off.toNat := decide_eq_true_iff

theorem inWindow_eq_false {off : BitVec 17} : inWindow off = false ↔ off.toNat < 0x10000 := by
  rw [← Bool.not_eq_true, inWindow_eq_true, Nat.not_le]

/-- Every host access, by its region: refused, or to the window, or to a register. -/
theorem accessRefusal_cases (size : AccessSize) (off : BitVec 17) (s : State) :
    (∃ r, accessRefusal size off s = some r) ∨
    (accessRefusal size off s = none ∧ inWindow off = true ∧ off.toNat % size.bytes = 0 ∧ s.busy = false) ∨
    (accessRefusal size off s = none ∧ inWindow off = false ∧ size = .word ∧ off.toNat % 4 = 0) := by
  unfold accessRefusal
  cases hw : inWindow off with
  | true =>
    by_cases ha : off.toNat % size.bytes = 0
    · cases hb : s.busy with
      | true => exact .inl ⟨_, by simp [ha]; rfl⟩
      | false => exact .inr (.inl ⟨by simp [ha], rfl, ha, rfl⟩)
    · exact .inl ⟨_, by simp [ha]; rfl⟩
  | false =>
    by_cases hc : size ≠ .word ∨ off.toNat % 4 ≠ 0
    · exact .inl ⟨_, by simp only [if_pos hc]; rfl⟩
    · simp only [not_or, ne_eq, not_not] at hc
      exact .inr (.inr ⟨by simp [hc.1, hc.2], rfl, hc.1, hc.2⟩)

/-- A 32-bit access at an aligned register offset is not refused. -/
theorem accessRefusal_register {off : BitVec 17} {s : State} (h : inWindow off = false) (ha : off.toNat % 4 = 0) :
    accessRefusal .word off s = none := by
  simp [accessRefusal, h, ha]

/-- A register write is that register's write. -/
theorem hostWrite_register {off : BitVec 17} {w : Word} {s : State} (hr : s.inReset = false)
    (h : inWindow off = false) (ha : off.toNat % 4 = 0) :
    hostWrite .word off w s = .next (writeReg off.toNat w s) := by
  simp [hostWrite, hr, accessRefusal_register h ha, h]

/-- A register read is that register's read, logged. -/
theorem hostRead_register {off : BitVec 17} {s : State} (hr : s.inReset = false)
    (h : inWindow off = false) (ha : off.toNat % 4 = 0) :
    hostRead .word off s = .next (logRead (readReg off.toNat s)) := by
  simp [hostRead, hr, accessRefusal_register h ha, h]

/-- An aligned window write with the block idle is the window's write. -/
theorem hostWrite_window {size : AccessSize} {off : BitVec 17} {w : Word} {s : State} (hr : s.inReset = false)
    (h : inWindow off = true) (ha : off.toNat % size.bytes = 0) (hb : s.busy = false) :
    hostWrite size off w s = .next (windowWrite s (off.toNat - windowBase) size.bytes w) := by
  simp [hostWrite, hr, accessRefusal, h, ha, hb]

/-- An aligned window read with the block idle is the window's value, logged. -/
theorem hostRead_window {size : AccessSize} {off : BitVec 17} {s : State} (hr : s.inReset = false)
    (h : inWindow off = true) (ha : off.toNat % size.bytes = 0) (hb : s.busy = false) :
    hostRead size off s = .next (logRead (windowValue s (off.toNat - windowBase) size.bytes, drawn s)) := by
  simp [hostRead, hr, accessRefusal, h, ha, hb]

/-! ### What one host access can do -/

/-- A host read that is not refused moves nothing but the log and the counter of free values. -/
theorem hostRead_next {size : AccessSize} {off : BitVec 17} {s t : State} (h : hostRead size off s = .next t) :
    ∃ v, t = { s with readLog := s.readLog ++ [v], freeCtr := t.freeCtr } := by
  unfold hostRead at h
  split at h
  · cases h; exact ⟨_, rfl⟩
  · split at h
    · cases h
    · split at h
      · cases h; exact ⟨_, rfl⟩
      · cases h
        have := readReg_frame off.toNat s
        refine ⟨(readReg off.toNat s).1, ?_⟩
        unfold logRead
        rw [this]

/-- A register write changes no BR field, no table slot, no LMEM byte, no result and no parameter; the rest of what it
can do is told by the register. -/
theorem writeReg_cases (off : Nat) (w : Word) (s : State) :
    (off = 0x04 ∧ writeReg off w s = { s with cfg := Cfg.ofWord w }) ∨
    (off = 0x08 ∧ writeReg off w s = writeStatus w s) ∨
    (off = 0x0C ∧ writeReg off w s = writeCmd w s) ∨
    (∃ a, writeReg off w s = { s with args := a }) ∨
    writeReg off w s = s := by
  unfold writeReg
  split
  · exact .inl ⟨rfl, rfl⟩
  · exact .inr (.inl ⟨rfl, rfl⟩)
  · exact .inr (.inr (.inl ⟨rfl, rfl⟩))
  · exact .inr (.inr (.inr (.inl ⟨_, rfl⟩)))
  · exact .inr (.inr (.inr (.inl ⟨_, rfl⟩)))
  · exact .inr (.inr (.inr (.inl ⟨_, rfl⟩)))
  · exact .inr (.inr (.inr (.inl ⟨_, rfl⟩)))
  · exact .inr (.inr (.inr (.inl ⟨_, rfl⟩)))
  · exact .inr (.inr (.inr (.inr rfl)))

/-- The two effects of a STATUS write, field by field (R35). -/
theorem writeStatus_eq (w : Word) (s : State) :
    writeStatus w s = { s with
      done := s.done && !w.getLsbD 1, err := if w.getLsbD 2 then none else s.err } := by
  unfold writeStatus clearError
  cases w.getLsbD 1 <;> cases w.getLsbD 2 <;> simp

/-- The three cases of a CMD write (R56). -/
theorem writeCmd_cases (w : Word) (s : State) :
    (s.busy = true ∧ writeCmd w s = { s with
      cmd := w, err := s.err.or (some { kind := .cmdOverrun, opc := opcodeByte w }) }) ∨
    (s.busy = false ∧ s.err.isSome = true ∧ acceptedInError w = false ∧ writeCmd w s = { s with cmd := w }) ∨
    (s.busy = false ∧ (s.err = none ∨ acceptedInError w = true) ∧ writeCmd w s = { s with
      cmd := w, pending := w, snapArgs := s.args, snapCfg := s.cfg, busy := true, done := false,
      delay := Config.freeDelay s.freeCtr, freeCtr := s.freeCtr + 1 }) := by
  unfold writeCmd
  cases hb : s.busy with
  | true =>
    refine .inl ⟨rfl, ?_⟩
    simp only [if_true, recordError]
    cases s.err <;> rfl
  | false =>
    cases he : s.err with
    | none => exact .inr (.inr ⟨rfl, .inl rfl, by simp [acceptCommand, latchCommand]⟩)
    | some e =>
      cases ha : acceptedInError w with
      | false => exact .inr (.inl ⟨rfl, rfl, rfl, by simp⟩)
      | true => exact .inr (.inr ⟨rfl, .inr rfl, by simp [acceptCommand, latchCommand]⟩)

/-- The opcode byte of a word, as a number. -/
theorem opcodeByte_eq (w : Word) : opcodeByte w = BitVec.ofNat 8 (w.toNat % 256) := by
  apply BitVec.eq_of_toNat_eq
  simp [opcodeByte, BitVec.extractLsb']

theorem opcodeByte_toNat (w : Word) : (opcodeByte w).toNat = w.toNat % 256 := by
  simp [opcodeByte, BitVec.extractLsb']

theorem acceptedInError_iff (w : Word) :
    acceptedInError w = true ↔ w.toNat % 256 = 0x00 ∨ w.toNat % 256 = 0x01 := by
  simp only [acceptedInError, Bool.or_eq_true, beq_iff_eq, ← BitVec.toNat_inj, opcodeByte_toNat]
  rfl

/-- A window write stores the value's low bytes, little-endian, when it stores at all. -/
theorem windowWrite_cases (s : State) (a n : Nat) (w : Word) :
    (s.params.lmemSize ≤ a ∧ windowWrite s a n w = s) ∨
    (a < s.params.lmemSize ∧ windowWrite s a n w = { s with lmem := s.lmem.writeBytes a (leBytes n w.toNat) }) := by
  unfold windowWrite
  split
  · exact .inl ⟨‹_›, rfl⟩
  · exact .inr ⟨by omega, rfl⟩

/-- A host write that is not refused: nothing while the reset input is asserted, else a window store or a register
write. -/
theorem hostWrite_next {size : AccessSize} {off : BitVec 17} {w : Word} {s t : State}
    (h : hostWrite size off w s = .next t) :
    (s.inReset = true ∧ t = s) ∨
    (s.inReset = false ∧ s.busy = false ∧ off.toNat % size.bytes = 0 ∧ windowBase ≤ off.toNat ∧
      t = windowWrite s (off.toNat - windowBase) size.bytes w) ∨
    (s.inReset = false ∧ size = .word ∧ off.toNat % 4 = 0 ∧ off.toNat < windowBase ∧ t = writeReg off.toNat w s) := by
  unfold hostWrite at h
  cases hr : s.inReset with
  | true =>
    simp only [hr, if_true, Host.Outcome.next.injEq] at h
    exact .inl ⟨rfl, h.symm⟩
  | false =>
    rcases accessRefusal_cases size off s with ⟨r, h1⟩ | ⟨h1, h2, h3, h4⟩ | ⟨h1, h2, h3, h4⟩
    · simp [hr, h1] at h
    · simp [hr, h1, h2] at h
      exact .inr (.inl ⟨rfl, h4, h3, by simpa [inWindow] using h2, h.symm⟩)
    · simp [hr, h1, h2] at h
      exact .inr (.inr ⟨rfl, h3, h4, by simpa [inWindow] using h2, h.symm⟩)

/-- A poll of `wait` moves nothing but the counter of free values, the statement put back or not. -/
theorem runHostOp_wait (s : State) :
    ∃ c l, runHostOp .wait s = .next { s with freeCtr := c, script := l } ∧ (l = s.script ∨ l = .wait :: s.script) := by
  simp only [runHostOp]
  rw [readReg_frame]
  split
  · exact ⟨_, _, rfl, .inr rfl⟩
  · exact ⟨_, _, rfl, .inl rfl⟩

end Sys2Proof.Machine
end

