-- ==== Sys2Proof/Laws/Huffman.lean ====
section
/-! SUPPORT. The canonical code: the codewords stand one after another in the 16-bit windows, each with 2^(16-l) of them,
and fill as many as the Kraft sum says. -/

namespace Sys2Proof.Machine

/-- How many 16-bit windows begin with a codeword. -/
def Codeword.span (w : Codeword) : Nat := 2 ^ (16 - w.len)

theorem Codeword.span_pos (w : Codeword) : 0 < w.span := Nat.two_pow_pos _

/-- Codewords whose windows follow one another without a gap, from window `a` on. -/
def Packed : Nat → List Codeword → Prop
  | _, [] => True
  | a, w :: ws => w.code * w.span = a ∧ Packed (a + w.span) ws

/-- How many windows codewords have together. -/
def totalSpan : List Codeword → Nat
  | [] => 0
  | w :: ws => w.span + totalSpan ws

theorem totalSpan_append (vs ws : List Codeword) : totalSpan (vs ++ ws) = totalSpan vs + totalSpan ws := by
  induction vs with
  | nil => simp [totalSpan]
  | cons v vs ih => simp [totalSpan, ih, Nat.add_assoc]

theorem Packed.append {a : Nat} {vs ws : List Codeword} (h1 : Packed a vs) (h2 : Packed (a + totalSpan vs) ws) :
    Packed a (vs ++ ws) := by
  induction vs generalizing a with
  | nil => simpa [totalSpan] using h2
  | cons v vs ih =>
    refine ⟨h1.1, ih h1.2 ?_⟩
    rwa [totalSpan, ← Nat.add_assoc] at h2

/-! ### The codewords of one length -/

/-- The codewords of length `l` with the `n` values from `code` on. -/
def codeBlock (l code n : Nat) : List Codeword := (List.range n).map (fun j => { len := l, code := code + j })

theorem codewordsFrom_cons (l code : Nat) (c : Byte) (cs : List Byte) :
    codewordsFrom l code (c :: cs) = codeBlock l code c.toNat ++ codewordsFrom (l + 1) (2 * (code + c.toNat)) cs := rfl

@[simp] theorem codeBlock_length (l code n : Nat) : (codeBlock l code n).length = n := by simp [codeBlock]

theorem codeBlock_getElem? {l code n j : Nat} (h : j < n) :
    (codeBlock l code n)[j]? = some { len := l, code := code + j } := by
  simp [codeBlock, h]

theorem mem_codeBlock {l code n : Nat} {w : Codeword} (h : w ∈ codeBlock l code n) : w.len = l := by
  obtain ⟨j, -, rfl⟩ := List.mem_map.1 h
  rfl

theorem codeBlock_succ (l code n : Nat) :
    codeBlock l code (n + 1) = { len := l, code := code } :: codeBlock l (code + 1) n := by
  simp only [codeBlock, List.range_succ_eq_map, List.map_cons, List.map_map, Nat.add_zero]
  congr 1
  apply List.map_congr_left
  intro j _
  simp only [Function.comp_apply, Codeword.mk.injEq, true_and]
  omega

theorem codeBlock_packed (l code n : Nat) : Packed (code * 2 ^ (16 - l)) (codeBlock l code n) := by
  induction n generalizing code with
  | zero => trivial
  | succ n ih =>
    rw [codeBlock_succ]
    refine ⟨rfl, ?_⟩
    have := ih (code + 1)
    rwa [Nat.add_mul, Nat.one_mul] at this

theorem codeBlock_totalSpan (l code n : Nat) : totalSpan (codeBlock l code n) = n * 2 ^ (16 - l) := by
  induction n generalizing code with
  | zero => simp [codeBlock, totalSpan]
  | succ n ih =>
    rw [codeBlock_succ, totalSpan, ih, Nat.add_mul, Nat.one_mul, Nat.add_comm]
    rfl

/-! ### The whole code -/

/-- The canonical code is packed. -/
theorem codewordsFrom_packed {l code : Nat} {cs : List Byte} (h : l + cs.length ≤ 17) :
    Packed (code * 2 ^ (16 - l)) (codewordsFrom l code cs) := by
  induction cs generalizing l code with
  | nil => trivial
  | cons c cs ih =>
    rw [codewordsFrom_cons]
    refine (codeBlock_packed l code c.toNat).append ?_
    rw [codeBlock_totalSpan, ← Nat.add_mul]
    rw [List.length_cons] at h
    have := ih (l := l + 1) (code := 2 * (code + c.toNat)) (by omega)
    by_cases hl : l = 16
    · have : cs = [] := List.length_eq_zero_iff.1 (by omega)
      subst this
      trivial
    · rwa [show 16 - l = 16 - (l + 1) + 1 by omega, Nat.pow_succ, Nat.mul_comm (2 ^ _) 2, ← Nat.mul_assoc,
        Nat.mul_comm _ 2]

/-- The canonical code has as many windows as the Kraft sum says. -/
theorem codewordsFrom_totalSpan (l code : Nat) (cs : List Byte) :
    totalSpan (codewordsFrom l code cs) = kraftFrom l cs := by
  induction cs generalizing l code with
  | nil => rfl
  | cons c cs ih => rw [codewordsFrom_cons, totalSpan_append, codeBlock_totalSpan, ih, kraftFrom]

theorem codewordsFrom_length (l code : Nat) (cs : List Byte) : (codewordsFrom l code cs).length = countSum cs := by
  induction cs generalizing l code with
  | nil => rfl
  | cons c cs ih => rw [codewordsFrom_cons, List.length_append, codeBlock_length, ih, countSum]

/-- The lengths of the codewords lie in the range of the counts. -/
theorem mem_codewordsFrom_len {l code : Nat} {cs : List Byte} {w : Codeword} (h : w ∈ codewordsFrom l code cs) :
    l ≤ w.len ∧ w.len < l + cs.length := by
  induction cs generalizing l code with
  | nil => simp [codewordsFrom] at h
  | cons c cs ih =>
    rw [codewordsFrom_cons, List.mem_append] at h
    rw [List.length_cons]
    rcases h with h | h
    · rw [mem_codeBlock h]
      omega
    · have := ih h
      omega

@[simp] theorem codewords_length (count : List Byte) : (codewords count).length = countSum count :=
  codewordsFrom_length 1 0 count

theorem mem_codewords_len {count : List Byte} {w : Codeword} (hl : count.length = 16) (h : w ∈ codewords count) :
    1 ≤ w.len ∧ w.len ≤ 16 := by
  have := mem_codewordsFrom_len h
  omega

/-! ### Packed codewords are apart -/

/-- The windows of a packed list lie inside its span. -/
theorem Packed.mem_bounds {a : Nat} {ws : List Codeword} (h : Packed a ws) {w : Codeword} (hw : w ∈ ws) :
    a ≤ w.code * w.span ∧ w.code * w.span + w.span ≤ a + totalSpan ws := by
  induction ws generalizing a with
  | nil => cases hw
  | cons v vs ih =>
    rw [totalSpan]
    rcases List.mem_cons.1 hw with rfl | hw
    · have := h.1
      omega
    · have := ih h.2 hw
      omega

/-- The windows of an earlier codeword lie before those of a later one. -/
theorem Packed.ordered {a : Nat} {ws : List Codeword} (h : Packed a ws) {j k : Nat} {v w : Codeword} (hjk : j < k)
    (hv : ws[j]? = some v) (hw : ws[k]? = some w) : v.code * v.span + v.span ≤ w.code * w.span := by
  induction ws generalizing a j k with
  | nil => simp at hv
  | cons x xs ih =>
    cases k with
    | zero => omega
    | succ k =>
      rw [List.getElem?_cons_succ] at hw
      cases j with
      | zero =>
        rw [List.getElem?_cons_zero, Option.some.injEq] at hv
        subst hv
        have h1 := h.1
        have h2 := (h.2.mem_bounds (List.mem_of_getElem? hw)).1
        omega
      | succ j =>
        rw [List.getElem?_cons_succ] at hv
        exact ih h.2 (by omega) hv hw

/-- A window begins with a codeword when it lies among the codeword's. -/
theorem Codeword.window_iff (w : Codeword) (x : Nat) :
    x / 2 ^ (16 - w.len) = w.code ↔ w.code * w.span ≤ x ∧ x < w.code * w.span + w.span := by
  have hp := w.span_pos
  have e : w.code * w.span + w.span = (w.code + 1) * w.span := by rw [Nat.add_mul, Nat.one_mul]
  rw [e]
  show x / w.span = w.code ↔ _
  rw [Nat.div_eq_iff hp]
  constructor
  · rintro ⟨h1, h2⟩
    refine ⟨h1, ?_⟩
    rw [← e]
    omega
  · rintro ⟨h1, h2⟩
    rw [← e] at h2
    omega

/-- Two codewords of one code that begin the same window are one. -/
theorem codewords_window_unique {count : List Byte} (hl : count.length = 16) {x j k : Nat} {v w : Codeword}
    (hv : (codewords count)[j]? = some v) (hw : (codewords count)[k]? = some w)
    (hxv : x / 2 ^ (16 - v.len) = v.code) (hxw : x / 2 ^ (16 - w.len) = w.code) : j = k := by
  have hp : Packed (0 * 2 ^ (16 - 1)) (codewords count) := codewordsFrom_packed (by omega)
  rw [Codeword.window_iff] at hxv hxw
  rcases lt_trichotomy j k with h | h | h
  · have := hp.ordered h hv hw
    omega
  · exact h
  · have := hp.ordered h hw hv
    omega

/-- Every codeword fits its length when the code is not over-subscribed (R156). -/
theorem codewords_code_lt {count : List Byte} (hl : count.length = 16) (hk : kraft count ≤ 65536) {w : Codeword}
    (hw : w ∈ codewords count) : w.code < 2 ^ w.len := by
  have hp : Packed (0 * 2 ^ (16 - 1)) (codewords count) := codewordsFrom_packed (by omega)
  have h1 := (hp.mem_bounds hw).2
  have h2 : totalSpan (codewords count) = kraft count := codewordsFrom_totalSpan 1 0 count
  have h3 := mem_codewords_len hl hw
  have e : w.code * w.span + w.span = (w.code + 1) * w.span := by rw [Nat.add_mul, Nat.one_mul]
  have h4 : (w.code + 1) * w.span ≤ 2 ^ w.len * w.span := by
    rw [Codeword.span, ← Nat.pow_add, show w.len + (16 - w.len) = 16 by omega, ← Codeword.span, ← e]
    omega
  exact Nat.le_of_mul_le_mul_right h4 w.span_pos

/-! ### Searching the codewords -/

/-- A search finds the one element that satisfies it. -/
theorem find?_of_unique {α : Type} {p : α → Bool} {l : List α} {k : Nat} {e : α} (hk : l[k]? = some e) (he : p e = true)
    (hu : ∀ j f, l[j]? = some f → p f = true → j = k) : l.find? p = some e := by
  induction l generalizing k with
  | nil => simp at hk
  | cons x xs ih =>
    rw [List.find?_cons]
    cases hx : p x with
    | true =>
      have := hu 0 x rfl hx
      subst this
      simpa using hk
    | false =>
      cases k with
      | zero =>
        rw [List.getElem?_cons_zero, Option.some.injEq] at hk
        subst hk
        rw [he] at hx
        cases hx
      | succ k =>
        refine ih (k := k) (by simpa using hk) fun j f hj hf => ?_
        have := hu (j + 1) f (by simpa using hj) hf
        omega

/-- The codeword and the symbol at one place (R152). -/
theorem entries_getElem?_iff {h : HtSlot} {k : Nat} {w : Codeword} {y : Byte} :
    h.entries[k]? = some (w, y) ↔ (codewords h.count)[k]? = some w ∧ h.sym[k]? = some y := by
  simp [HtSlot.entries, List.getElem?_zip_eq_some]

theorem matches_iff {w : Codeword} {x : BitVec 16} : w.matches x = true ↔ x.toNat / 2 ^ (16 - w.len) = w.code := by
  simp [Codeword.matches, Nat.shiftRight_eq_div_pow]

/-- A decoded symbol's length is that of a codeword. -/
theorem decode_len {h : HtSlot} {x : BitVec 16} {y : Byte} {l : Nat} (hl : h.count.length = 16)
    (hd : h.decode x = some (y, l)) : 1 ≤ l ∧ l ≤ 16 := by
  simp only [HtSlot.decode, Option.map_eq_some_iff, Prod.mk.injEq] at hd
  obtain ⟨e, he, -, rfl⟩ := hd
  have hmem : e ∈ h.entries := List.mem_of_find?_eq_some he
  exact mem_codewords_len hl (List.of_mem_zip (a := e.1) (b := e.2) hmem).1

end Sys2Proof.Machine
end

