-- ==== Sys2Proof/Laws/Idct.lean ====
section
/-! SUPPORT. One pass of the reference kernel as linear forms in its eight inputs: what wrapping does to it, how large it
can get, and that the model's pass is the rule's. -/

namespace Sys2Proof.Machine

/-! ### wrap32 -/

theorem wrap32_add_left (a b : Int) : wrap32 (wrap32 a + b) = wrap32 (a + b) := by simp [wrap32]

theorem wrap32_add_right (a b : Int) : wrap32 (a + wrap32 b) = wrap32 (a + b) := by simp [wrap32]

theorem wrap32_sub_left (a b : Int) : wrap32 (wrap32 a - b) = wrap32 (a - b) := by simp [wrap32]

theorem wrap32_sub_right (a b : Int) : wrap32 (a - wrap32 b) = wrap32 (a - b) := by simp [wrap32]

theorem wrap32_mul_left (a b : Int) : wrap32 (wrap32 a * b) = wrap32 (a * b) := by simp [wrap32]

theorem wrap32_neg (a : Int) : wrap32 (-wrap32 a) = wrap32 (-a) := by simp [wrap32]

/-- A value of 32 signed bits is not changed. -/
theorem wrap32_of_lt {x : Int} (h : -2147483648 ≤ x) (h' : x < 2147483648) : wrap32 x = x := by
  rw [wrap32, Int.bmod_eq_of_le] <;> omega

/-! ### A pass as linear forms -/

/-- The eight outputs of a pass before the shift (R197), each a linear form plus the bias. -/
def passForms (bias s0 s1 s2 s3 s4 s5 s6 s7 : Int) : List Int :=
  let x0 := (s0 + s4) * 4096 + (s2 + s6) * 2217 + s2 * 3135 + bias
  let x3 := (s0 + s4) * 4096 - (s2 + s6) * 2217 - s2 * 3135 + bias
  let x1 := (s0 - s4) * 4096 + (s2 + s6) * 2217 - s6 * 7567 + bias
  let x2 := (s0 - s4) * 4096 - (s2 + s6) * 2217 + s6 * 7567 + bias
  let q5 := (s1 + s3 + s5 + s7) * 4816
  let t3 := s1 * 6149 + q5 - (s7 + s1) * 3685 - (s5 + s1) * 1597
  let t2 := s3 * 12586 + q5 - (s5 + s3) * 10497 - (s7 + s3) * 8034
  let t1 := s5 * 8410 + q5 - (s5 + s3) * 10497 - (s5 + s1) * 1597
  let t0 := s7 * 1223 + q5 - (s7 + s1) * 3685 - (s7 + s3) * 8034
  [x0 + t3, x1 + t2, x2 + t1, x3 + t0, x3 - t0, x2 - t1, x1 - t2, x0 - t3]

variable (bias : Int) (sh : Nat) (s0 s1 s2 s3 s4 s5 s6 s7 : Int)

/-- Wrapping every operation comes to wrapping each linear form once. -/
theorem rulePass_wrap32 : rulePass wrap32 bias sh s0 s1 s2 s3 s4 s5 s6 s7 =
    (passForms bias s0 s1 s2 s3 s4 s5 s6 s7).map (fun x => wrap32 x / 2 ^ sh) := by
  simp only [rulePass, passForms, wrap32_add_left, wrap32_add_right, wrap32_sub_left, wrap32_sub_right, wrap32_mul_left,
    List.map_cons, List.map_nil]
  congr 2
  all_goals ring_nf

/-- The pass over unbounded integers is the linear forms, shifted. -/
theorem rulePass_id : rulePass id bias sh s0 s1 s2 s3 s4 s5 s6 s7 =
    (passForms bias s0 s1 s2 s3 s4 s5 s6 s7).map (fun x => x / 2 ^ sh) := by
  simp only [rulePass, passForms, id, List.map_cons, List.map_nil]
  ring_nf

variable {bias sh s0 s1 s2 s3 s4 s5 s6 s7}

/-- The largest sum of absolute coefficients of a form is 30610 (R200). -/
theorem passForms_bound {M : Int} (h0 : -M ≤ s0 ∧ s0 ≤ M) (h1 : -M ≤ s1 ∧ s1 ≤ M) (h2 : -M ≤ s2 ∧ s2 ≤ M)
    (h3 : -M ≤ s3 ∧ s3 ≤ M) (h4 : -M ≤ s4 ∧ s4 ≤ M) (h5 : -M ≤ s5 ∧ s5 ≤ M) (h6 : -M ≤ s6 ∧ s6 ≤ M)
    (h7 : -M ≤ s7 ∧ s7 ≤ M) :
    ∀ x ∈ passForms bias s0 s1 s2 s3 s4 s5 s6 s7, -(30610 * M) + bias ≤ x ∧ x ≤ 30610 * M + bias := by
  simp only [passForms, List.mem_cons, List.not_mem_nil, or_false]
  rintro x (rfl | rfl | rfl | rfl | rfl | rfl | rfl | rfl) <;> constructor <;>
    linarith only [h0.1, h0.2, h1.1, h1.2, h2.1, h2.2, h3.1, h3.2, h4.1, h4.2, h5.1, h5.2, h6.1, h6.2, h7.1, h7.2]

/-- While the forms fit 32 signed bits no wrap changes a value (R200). -/
theorem rulePass_wrap32_eq_id
    (h : ∀ x ∈ passForms bias s0 s1 s2 s3 s4 s5 s6 s7, -2147483648 ≤ x ∧ x < 2147483648) :
    rulePass wrap32 bias sh s0 s1 s2 s3 s4 s5 s6 s7 = rulePass id bias sh s0 s1 s2 s3 s4 s5 s6 s7 := by
  rw [rulePass_wrap32, rulePass_id]
  exact List.map_congr_left fun x hx => by rw [wrap32_of_lt (h x hx).1 (h x hx).2]

/-- The model's pass over words is the rule's pass over their signed values, every operation wrapping (R196). -/
theorem passOut_toInt (bias : Word) (sh : Nat) (s0 s1 s2 s3 s4 s5 s6 s7 : Word) :
    (passOut bias sh (idct1d s0 s1 s2 s3 s4 s5 s6 s7)).map BitVec.toInt =
      rulePass wrap32 bias.toInt sh s0.toInt s1.toInt s2.toInt s3.toInt s4.toInt s5.toInt s6.toInt s7.toInt := by
  have const : ∀ n : Nat, n < 2 ^ 31 → (BitVec.ofNat 32 n).toInt = n := by
    intro n hn
    rw [BitVec.toInt_eq_toNat_cond]
    simp
    omega
  have fold : ∀ v : Int, v.bmod (2 ^ 32) = wrap32 v := fun _ => rfl
  rw [rulePass_wrap32]
  simp only [passOut, idct1d, passForms, List.map_cons, List.map_nil, BitVec.toInt_sshiftRight, Int.shiftRight_eq_div_pow]
  simp only [BitVec.toInt_add, BitVec.toInt_sub, BitVec.toInt_mul, BitVec.toInt_neg, const 2217 (by decide),
    const 7567 (by decide), const 3135 (by decide), const 4096 (by decide), const 4816 (by decide), const 3685 (by decide),
    const 10497 (by decide), const 8034 (by decide), const 1597 (by decide), const 6149 (by decide), const 12586 (by decide),
    const 8410 (by decide), const 1223 (by decide), fold, wrap32_neg, wrap32_add_left, wrap32_add_right, wrap32_sub_left,
    wrap32_sub_right, wrap32_mul_left]
  push_cast
  ring_nf

end Sys2Proof.Machine
end

