-- ==== Sys2Proof/Laws/Run.lean ====
section
/-! SUPPORT. One step and several: whose turn it is, and runs through the host's interface. -/

namespace Sys2Proof.Machine

theorem coreReady_iff {s : State} : coreReady s = true ↔ s.busy = true ∧ s.inReset = false ∧ s.delay = 0 := by
  simp [coreReady, and_assoc]

/-- The core's turn: the pending command runs. -/
theorem step_of_ready {s : State} (h : coreReady s = true) : step s = coreStep s := by
  simp [step, h]

/-- The host's turn. -/
theorem step_of_not_ready {s : State} (h : coreReady s = false) : step s = hostStep (tick s) := by
  simp [step, h]

/-- The host's next operation, when there is one. -/
theorem hostStep_of_cons {s : State} {op : HostOp} {rest : List HostOp} (h : s.script = op :: rest) :
    hostStep s = runHostOp op { s with script := rest } := by
  simp [hostStep, h]

/-- With no operation left the host does nothing. -/
theorem hostStep_of_nil {s : State} (h : s.script = []) : hostStep s = .next s := by
  simp [hostStep, h]

theorem coreStep_of_decode {s : State} {i : Instr} (h : decode s.pending = .ok i) : coreStep s = exec i s := by
  simp [coreStep, h]

theorem coreStep_of_illegal {s : State} {e : IllegalWord} (h : decode s.pending = .error e) :
    coreStep s = .next (raiseError (opcodeByte s.pending) (illegalKind e) s) := by
  simp [coreStep, h]

/-- A run goes on after a next state. -/
theorem run_succ_of_next {k : Nat} {s t : State} (h : step s = .next t) :
    Sys2Proof.core.run (k + 1) s = Sys2Proof.core.run k t := by
  simp only [Host.Core.run, Sys2Proof.core, h]

/-- A run of one step is the step. -/
theorem run_one (s : State) : Sys2Proof.core.run 1 s = step s := by
  simp only [Host.Core.run, Sys2Proof.core]
  cases step s <;> rfl

/-- The two forms of the recorded error after a failing command. -/
theorem recordError_eq (opc : BitVec 8) (k : ErrKind) (s : State) :
    recordError opc k s = { s with err := s.err.or (some { kind := k, opc := opc }) } := by
  unfold recordError
  cases s.err <;> rfl

/-- A poll of `wait` while BUSY = 1 puts the statement back and draws one free value. -/
theorem runHostOp_wait_busy {s : State} (hb : s.busy = true) (hr : s.inReset = false) :
    runHostOp .wait s = .next { s with script := .wait :: s.script, freeCtr := s.freeCtr + 1 } := by
  have h1 := statusWith_busy s ((Config.freeWord s.freeCtr).extractLsb' 5 3)
  have h2 : readReg 0x08 s = (s.statusWith ((Config.freeWord s.freeCtr).extractLsb' 5 3), drawn s) := by
    simp [readReg, hb, hr]
  simp [runHostOp, h2, h1, hb, drawn]

end Sys2Proof.Machine
end

