-- ==== Sys2Proof/Laws/Stream.lean ====
section
/-! SUPPORT. The stream the bit reader stands in: bits as lists, one byte at a time, and what refill and consumption make
of the bits left. -/

namespace Sys2Proof.Machine

/-! ### Bits of numbers -/

@[simp] theorem byteBits_length (v : Byte) : (byteBits v).length = 8 := rfl

@[simp] theorem accBits_length (acc : BitVec 64) (n : Nat) : (accBits acc n).length = n := by simp [accBits]

theorem accBits_getElem? (acc : BitVec 64) {n j : Nat} (h : j < n) : (accBits acc n)[j]? = some (acc.getLsbD (63 - j)) := by
  simp [accBits, h]

@[simp] theorem Codeword.bits_length (w : Codeword) : w.bits.length = w.len := by simp [Codeword.bits]

/-- The first bits of the accumulator are a prefix of more of them. -/
theorem accBits_take (acc : BitVec 64) {n k : Nat} (h : k ≤ n) : (accBits acc n).take k = accBits acc k := by
  apply List.ext_getElem?
  intro j
  rw [List.getElem?_take]
  by_cases hj : j < k
  · rw [if_pos hj, accBits_getElem? _ (by omega), accBits_getElem? _ hj]
  · rw [if_neg hj, List.getElem?_eq_none (by simp; omega)]

/-- A shifted accumulator shows the bits that follow. -/
theorem accBits_shift (acc : BitVec 64) {n k : Nat} (h : n + k ≤ 64) :
    accBits (acc <<< n) k = (accBits acc (n + k)).drop n := by
  apply List.ext_getElem?
  intro j
  rw [List.getElem?_drop]
  by_cases hj : j < k
  · rw [accBits_getElem? _ hj, accBits_getElem? _ (by omega), BitVec.getLsbD_shiftLeft,
      show 63 - j - n = 63 - (n + j) by omega]
    simp
    omega
  · rw [List.getElem?_eq_none (by simp; omega), List.getElem?_eq_none (by simp; omega)]

theorem bitsValue_append (bs : List Bool) (b : Bool) : bitsValue (bs ++ [b]) = 2 * bitsValue bs + b.toNat := by
  simp [bitsValue]

/-- The first bits of the accumulator, as a number (R126). -/
theorem bitsValue_accBits (acc : BitVec 64) {n : Nat} (h : n ≤ 64) :
    bitsValue (accBits acc n) = acc.toNat / 2 ^ (64 - n) := by
  induction n with
  | zero =>
    have := acc.isLt
    simp [accBits, bitsValue, Nat.div_eq_of_lt this]
  | succ n ih =>
    have e : accBits acc (n + 1) = accBits acc n ++ [acc.getLsbD (63 - n)] := by
      simp [accBits, List.range_succ]
    have hb : (acc.getLsbD (63 - n)).toNat = acc.toNat / 2 ^ (63 - n) % 2 := by
      rw [BitVec.getLsbD, Nat.testBit_eq_decide_div_mod_eq]
      rcases Nat.mod_two_eq_zero_or_one (acc.toNat / 2 ^ (63 - n)) with h | h <;> simp [h]
    rw [e, bitsValue_append, ih (by omega), hb, show 64 - n = 63 - n + 1 by omega,
      show 64 - (n + 1) = 63 - n by omega, Nat.pow_succ, ← Nat.div_div_eq_div_mul]
    omega

/-- A bit count taken from the accumulator is the value of its first bits. -/
theorem peekBits_eq_bitsValue (b : BitReader) {n : Nat} (h : n ≤ 64) : peekBits b n = bitsValue (accBits b.acc n) := by
  rw [bitsValue_accBits _ h]
  simp [peekBits, Nat.shiftRight_eq_div_pow]

/-- A codeword begins the accumulator when the accumulator's top is its value. -/
theorem Codeword.bits_eq_accBits_iff {w : Codeword} (hl : w.len ≤ 64) (hc : w.code < 2 ^ w.len) (acc : BitVec 64) :
    w.bits = accBits acc w.len ↔ acc.toNat / 2 ^ (64 - w.len) = w.code := by
  have hq : acc.toNat / 2 ^ (64 - w.len) < 2 ^ w.len := by
    rw [Nat.div_lt_iff_lt_mul (Nat.two_pow_pos _), ← Nat.pow_add, show w.len + (64 - w.len) = 64 by omega]
    exact acc.isLt
  have hbit : ∀ j, j < w.len → (acc.toNat / 2 ^ (64 - w.len)).testBit (w.len - 1 - j) = acc.getLsbD (63 - j) := by
    intro j hj
    rw [BitVec.getLsbD, Nat.testBit_div_two_pow, show w.len - 1 - j + (64 - w.len) = 63 - j by omega]
  constructor
  · intro h
    apply Nat.eq_of_testBit_eq
    intro k
    by_cases hk : k < w.len
    · have h1 : w.bits[w.len - 1 - k]? = (accBits acc w.len)[w.len - 1 - k]? := by rw [h]
      rw [accBits_getElem? _ (by omega)] at h1
      simp only [Codeword.bits, List.getElem?_map, List.getElem?_range (show w.len - 1 - k < w.len by omega),
        Option.map_some, Option.some.injEq] at h1
      have h2 := hbit (w.len - 1 - k) (by omega)
      rw [show w.len - 1 - (w.len - 1 - k) = k by omega] at h1 h2
      rw [h2, h1]
    · have hp : 2 ^ w.len ≤ 2 ^ k := Nat.pow_le_pow_right (by decide) (by omega)
      rw [Nat.testBit_lt_two_pow (by omega), Nat.testBit_lt_two_pow (by omega)]
  · intro h
    apply List.ext_getElem?
    intro j
    by_cases hj : j < w.len
    · rw [accBits_getElem? _ hj, ← hbit j hj, h]
      simp [Codeword.bits, hj]
    · rw [List.getElem?_eq_none (by simp; omega), List.getElem?_eq_none (by simp; omega)]

/-! ### The segment, one byte at a time -/

/-- The bound on the number of bytes does not matter once it is large enough. -/
theorem dataBytes_bound {m : Memory} {e k k' p : Nat} (h : e - p ≤ k) (h' : e - p ≤ k') :
    dataBytes m e k p = dataBytes m e k' p := by
  induction k generalizing k' p with
  | zero =>
    cases k' with
    | zero => rfl
    | succ k' => rw [dataBytes, dataBytes, if_pos (by omega)]
  | succ k ih =>
    cases k' with
    | zero => rw [dataBytes, dataBytes, if_pos (by omega)]
    | succ k' =>
      simp only [dataBytes]
      split
      · rfl
      · split
        · rfl
        · split
          · rw [ih (k' := k') (by omega) (by omega)]
          · split
            · rfl
            · split
              · rw [ih (k' := k') (by omega) (by omega)]
              · rfl

/-- The stream at the end of the segment. -/
theorem streamBits_end {m : Memory} {p e : Nat} (h : e ≤ p) : streamBits m p e = [] := by
  rw [streamBits, show e - p = 0 by omega]
  rfl

/-- The stream from an ordinary byte on. -/
theorem streamBits_byte {m : Memory} {p e : Nat} {v : Byte} (h : p < e) (hv : m.read? p = some v) (hf : v ≠ 0xFF) :
    streamBits m p e = byteBits v ++ streamBits m (p + 1) e := by
  have h1 : dataBytes m e (e - p) p = v :: dataBytes m e (e - (p + 1)) (p + 1) := by
    rw [show e - p = e - (p + 1) + 1 by omega, dataBytes, if_neg (by omega)]
    simp only [hv]
    rw [if_pos hf]
  rw [streamBits, h1, List.flatMap_cons]
  rfl

/-- The stream from a stuffed 0xFF on (R122). -/
theorem streamBits_stuffed {m : Memory} {p e : Nat} (h : p + 1 < e) (hv : m.read? p = some 0xFF)
    (h2 : m.read? (p + 1) = some 0x00) : streamBits m p e = byteBits 0xFF ++ streamBits m (p + 2) e := by
  have h1 : dataBytes m e (e - p) p = 0xFF :: dataBytes m e (e - (p + 2)) (p + 2) := by
    rw [show e - p = e - (p + 1) + 1 by omega, dataBytes, if_neg (by omega)]
    simp only [hv]
    rw [if_neg (by simp), if_neg (by omega), if_pos h2, dataBytes_bound (k' := e - (p + 2)) (by omega) (by omega)]
  rw [streamBits, h1, List.flatMap_cons]
  rfl

/-- The stream at a lone 0xFF at the end (R124). -/
theorem streamBits_lone {m : Memory} {p e : Nat} (h : p + 1 = e) (hv : m.read? p = some 0xFF) : streamBits m p e = [] := by
  rw [streamBits, show e - p = e - (p + 1) + 1 by omega, dataBytes, if_neg (by omega)]
  simp only [hv]
  rw [if_neg (by simp), if_pos (by omega)]
  rfl

/-- The stream at a marker (R123). -/
theorem streamBits_marker {m : Memory} {p e : Nat} {c : Byte} (h : p + 1 < e) (hv : m.read? p = some 0xFF)
    (h2 : m.read? (p + 1) = some c) (hc : c ≠ 0x00) : streamBits m p e = [] := by
  rw [streamBits, show e - p = e - (p + 1) + 1 by omega, dataBytes, if_neg (by omega)]
  simp only [hv]
  rw [if_neg (by simp), if_neg (by omega), if_neg (by rw [h2]; simpa using hc)]
  rfl

/-! ### Refill and the bits left -/

/-- Loading a byte appends its bits, most significant first (R89, R121). -/
theorem accBits_loadByte {b : BitReader} {v : Byte} {w : Nat} (hn : b.nbits ≤ 56)
    (hz : ∀ j, j < 64 - b.nbits → b.acc.getLsbD j = false) :
    accBits (loadByte b v w).acc (b.nbits + 8) = accBits b.acc b.nbits ++ byteBits v := by
  have hbit : ∀ j, j < 64 → (loadByte b v w).acc.getLsbD j =
      (b.acc.getLsbD j || (!decide (j < 56 - b.nbits) && v.getLsbD (j - (56 - b.nbits)))) := by
    intro j hj
    simp only [loadByte, BitVec.getLsbD_or, BitVec.getLsbD_shiftLeft, BitVec.getLsbD_setWidth]
    simp only [hj, decide_true, Bool.true_and, show j - (56 - b.nbits) < 64 by omega]
  apply List.ext_getElem?
  intro j
  by_cases h1 : j < b.nbits
  · rw [List.getElem?_append_left (by simpa using h1), accBits_getElem? _ (by omega), accBits_getElem? _ h1,
      hbit _ (by omega)]
    have : v.getLsbD (63 - j - (56 - b.nbits)) = false := BitVec.getLsbD_of_ge _ _ (by omega)
    rw [this, Bool.and_false, Bool.or_false]
  · rw [List.getElem?_append_right (by simpa using h1), accBits_length]
    by_cases h2 : j < b.nbits + 8
    · rw [accBits_getElem? _ h2, hbit _ (by omega), hz _ (by omega)]
      simp only [byteBits, List.getElem?_map, List.getElem?_range (show j - b.nbits < 8 by omega), Option.map_some,
        Bool.false_or]
      rw [show 63 - j - (56 - b.nbits) = 7 - (j - b.nbits) by omega]
      simp
      omega
    · rw [List.getElem?_eq_none (by simp; omega), List.getElem?_eq_none (by simp; omega)]

/-- While the stream has not ended nothing is padded. -/
theorem BrOk.npad_eq_zero {b : BitReader} {size : Nat} (h : BrOk b size) (he : b.ended = false) : b.npad = 0 := by
  by_contra hne
  have := h.pad_ended (by omega)
  rw [he] at this
  cases this

/-- A turn of refill's loop moves bits into the accumulator and loses none. -/
theorem refillStep_bitsLeft {i : Instr} {m : Memory} {b b' : BitReader} {size : Nat} (h : refillStep i m b = .ok b')
    (hb : BrOk b size) (hn : b.nbits ≤ 56) (he : b.ended = false) : bitsLeft m b' = bitsLeft m b := by
  have hpad := hb.npad_eq_zero he
  have hz : ∀ j, j < 64 - b.nbits → b.acc.getLsbD j = false := fun j hj => hb.low_bits (by omega)
  have hload : ∀ (v : Byte) (w : Nat), streamBits m b.pos b.endPos = byteBits v ++ streamBits m (b.pos + w) b.endPos →
      bitsLeft m (loadByte b v w) = bitsLeft m b := by
    intro v w hs
    have h1 : (loadByte b v w).nbits - (loadByte b v w).npad = b.nbits + 8 := by simp only [loadByte]; omega
    have h2 : (loadByte b v w).ended = false := he
    simp only [bitsLeft, h1, h2, he, hpad, Nat.sub_zero, hs, accBits_loadByte hn hz]
    simp [loadByte]
  have hend : ∀ (mf : Bool) (mk : Byte), streamBits m b.pos b.endPos = [] →
      bitsLeft m { b with mfound := mf, marker := mk, ended := true } = bitsLeft m b := by
    intro mf mk hs
    simp [bitsLeft, he, hs]
  rcases refillStep_eq_ok h with ⟨h1, rfl⟩ | ⟨v, h1, h2, h3, rfl⟩ | ⟨h1, h2, rfl⟩ | ⟨h1, h2, h3, rfl⟩ |
    ⟨c, h1, h2, h3, h4, rfl⟩
  · exact hend _ _ (streamBits_end h1)
  · exact hload v 1 (streamBits_byte h1 h2 h3)
  · exact hend _ _ (streamBits_lone h1 h2)
  · exact hload 0xFF 2 (streamBits_stuffed h1 h2 h3)
  · exact hend _ _ (streamBits_marker h1 h2 h3 h4)

/-- Padding adds no data bit. -/
theorem padBits_bitsLeft (m : Memory) {b : BitReader} (h : b.npad ≤ b.nbits) (hn : b.nbits ≤ 64) :
    bitsLeft m (padBits b) = bitsLeft m b := by
  rw [bitsLeft, padBits_real h hn, padBits_frame]
  rfl

/-- A refill neither loses nor adds a data bit. -/
theorem refill_bitsLeft {i : Instr} {m : Memory} {b b' : BitReader} {size : Nat} (h : refill i m b = .ok b')
    (hb : BrOk b size) : bitsLeft m b' = bitsLeft m b := by
  obtain ⟨c, h1, rfl⟩ := refill_eq_ok h
  have key : BrOk c size ∧ bitsLeft m c = bitsLeft m b := by
    refine refillLoop_induct (P := fun x => BrOk x size ∧ bitsLeft m x = bitsLeft m b) ?_ ⟨hb, rfl⟩ h1
    rintro x y ⟨hx, hx2⟩ hn he hxy
    exact ⟨refillStep_brOk hxy hx hn he, (refillStep_bitsLeft hxy hx hn he).trans hx2⟩
  rw [padBits_bitsLeft m key.1.npad_le key.1.nbits_le, key.2]

/-! ### Consumption and the bits left -/

/-- The first bits of the stream, pad bits following the data, are those of the accumulator. -/
theorem take_bitsLeft {m : Memory} {b : BitReader} {size n : Nat} (hb : BrOk b size) (hn : n ≤ b.nbits) :
    (bitsLeft m b ++ List.replicate 64 false).take n = accBits b.acc n := by
  have h64 := hb.nbits_le
  by_cases h : n ≤ b.nbits - b.npad
  · rw [bitsLeft, List.append_assoc, List.take_append_of_le_length (by simpa using h), accBits_take _ h]
  · have he : b.ended = true := hb.pad_ended (by omega)
    rw [bitsLeft, he, if_pos rfl, List.append_nil]
    apply List.ext_getElem?
    intro j
    rw [List.getElem?_take]
    by_cases hj : j < n
    · rw [if_pos hj, accBits_getElem? _ hj]
      by_cases hr : j < b.nbits - b.npad
      · rw [List.getElem?_append_left (by simpa using hr), accBits_getElem? _ hr]
      · rw [List.getElem?_append_right (by simpa using hr), hb.low_bits (by omega), List.getElem?_replicate,
          if_pos (by rw [accBits_length]; omega)]
    · rw [if_neg hj, List.getElem?_eq_none (by simp; omega)]

/-- Dropping bits drops them from the bits left. -/
theorem dropBits_bitsLeft {m : Memory} {b : BitReader} {size n : Nat} (hb : BrOk b size) (hn : n ≤ b.nbits) :
    bitsLeft m (dropBits b n) = (bitsLeft m b).drop n := by
  have h64 := hb.nbits_le
  have hle := hb.npad_le
  by_cases h : n ≤ b.nbits - b.npad
  · have h1 : (dropBits b n).nbits - (dropBits b n).npad = b.nbits - b.npad - n := by
      simp only [dropBits, padTaken]; omega
    have h2 : accBits (dropBits b n).acc (b.nbits - b.npad - n) = (accBits b.acc (b.nbits - b.npad)).drop n := by
      have := accBits_shift b.acc (n := n) (k := b.nbits - b.npad - n) (by omega)
      rwa [show n + (b.nbits - b.npad - n) = b.nbits - b.npad by omega] at this
    rw [bitsLeft, h1, h2, bitsLeft, List.drop_append_of_le_length (by simpa using h)]
    rfl
  · have he : b.ended = true := hb.pad_ended (by omega)
    have h1 : (dropBits b n).nbits - (dropBits b n).npad = 0 := by
      simp only [dropBits, padTaken]; omega
    have h2 : (dropBits b n).ended = true := he
    rw [bitsLeft, h1, h2, bitsLeft, he, if_pos rfl, List.append_nil, if_pos rfl, List.append_nil,
      List.drop_eq_nil_of_le (by simp; omega)]
    rfl

/-- Taking n bits takes a pad bit exactly when fewer than n data bits are left. -/
theorem padTaken_pos_iff {m : Memory} {b : BitReader} {size n : Nat} (hb : BrOk b size) (hn : n ≤ b.nbits) :
    0 < padTaken b n ↔ (bitsLeft m b).length < n := by
  simp only [padTaken, bitsLeft, List.length_append, accBits_length]
  constructor
  · intro h
    have he : b.ended = true := hb.pad_ended (by omega)
    simp only [he, if_true, List.length_nil]
    omega
  · intro h
    omega

end Sys2Proof.Machine
end

