-- ==== Sys2Proof/Tests/Slice0.lean ====
section
/-! SUPPORT. The model's own tests: words written out from the spec's encodings, ill-formed commands refused, the spec's
worked examples in one step each, and for every statement a state that meets its hypotheses. -/

namespace Sys2Proof.Tests

open Sys2Proof Sys2Proof.Machine

/-! ### Well-formedness (R101) -/

theorem test_peek_33_is_ill_formed : (Instr.brPeek 33).wellFormed = false := by decide
theorem test_get_33_is_ill_formed : (Instr.brGet 33).wellFormed = false := by decide
theorem test_has_63_is_ill_formed : (Instr.brHas 63).wellFormed = false := by decide
theorem test_counts_up_to_32_are_well_formed :
    (Instr.brPeek 32).wellFormed = true ∧ (Instr.brGet 0).wellFormed = true ∧ (Instr.brHas 32).wellFormed = true := by
  decide
/-- The host language's checks (R103): a read-only register, an unaligned word, bytes past the aperture, an ill-formed
command. -/
theorem test_ill_formed_statements :
    (HostStmt.wr .res0 0).wellFormed = false ∧ (HostStmt.ww 2 0).wellFormed = false ∧
    (HostStmt.wb 0xFFFF [1, 2]).wellFormed = false ∧ (HostStmt.command (.brGet 40)).wellFormed = false := by
  decide

/-! ### Decoding: one word per row of the opcode table, written out bit by bit from R92 to R96 -/

-- Format N: 24 reserved bits, then the opcode.
theorem test_decode_nop : decode 0b000000000000000000000000_00000000#32 = .ok .nop := by decide
theorem test_decode_coreInit : decode 0b000000000000000000000000_00000001#32 = .ok .coreInit := by decide
theorem test_decode_brInit : decode 0b000000000000000000000000_00010000#32 = .ok .brInit := by decide
theorem test_decode_brRefill : decode 0b000000000000000000000000_00010001#32 = .ok .brRefill := by decide
-- Format B: 18 reserved bits, six of count, the opcode.
theorem test_decode_brPeek : decode 0b000000000000000000_001100_00010010#32 = .ok (.brPeek 12) := by decide
theorem test_decode_brGet : decode 0b000000000000000000_100000_00010011#32 = .ok (.brGet 32) := by decide
theorem test_decode_brHas : decode 0b000000000000000000_000001_00010100#32 = .ok (.brHas 1) := by decide
theorem test_decode_brSkipMarker : decode 0b000000000000000000000000_00010101#32 = .ok .brSkipMarker := by decide
-- Format T: 21 reserved bits, three of slot, the opcode.
theorem test_decode_htBuild : decode 0b000000000000000000000_001_00100000#32 = .ok (.htBuild 1) := by decide
theorem test_decode_htDecode : decode 0b000000000000000000000_111_00100001#32 = .ok (.htDecode 7) := by decide
theorem test_decode_htDecodeDc : decode 0b000000000000000000000_011_00100010#32 = .ok (.htDecodeDc 3) := by decide
theorem test_decode_htDecodeAc : decode 0b000000000000000000000_100_00100011#32 = .ok (.htDecodeAc 4) := by decide
theorem test_decode_htDump : decode 0b000000000000000000000_110_00100100#32 = .ok (.htDump 6) := by decide
theorem test_decode_idct : decode 0b000000000000000000000000_00110000#32 = .ok .idct := by decide
theorem test_decode_upsNone : decode 0b000000000000000000000000_01000000#32 = .ok .upsNone := by decide
theorem test_decode_upsH : decode 0b000000000000000000000000_01000001#32 = .ok .upsH := by decide
theorem test_decode_upsV : decode 0b000000000000000000000000_01000010#32 = .ok .upsV := by decide
theorem test_decode_upsHv : decode 0b000000000000000000000000_01000011#32 = .ok .upsHv := by decide
theorem test_decode_ccRgb : decode 0b000000000000000000000000_01010000#32 = .ok .ccRgb := by decide
theorem test_decode_ccRgba : decode 0b000000000000000000000000_01010001#32 = .ok .ccRgba := by decide
theorem test_decode_ccRgbx : decode 0b000000000000000000000000_01010010#32 = .ok .ccRgbx := by decide
theorem test_decode_ccGray : decode 0b000000000000000000000000_01010011#32 = .ok .ccGray := by decide
theorem test_decode_ccYcbcr : decode 0b000000000000000000000000_01010100#32 = .ok .ccYcbcr := by decide

/-- The illegal words of 95_test_vectors C2, C6, C8, C9, C10. -/
theorem test_decode_illegal :
    decode 0x00000100 = .error .reservedBits ∧ decode 0x00000002 = .error .unassignedOpcode ∧
    decode 0x00002113 = .error .badCount ∧ decode 0x00040013 = .error .reservedBits ∧
    decode 0x00000820 = .error .reservedBits := by decide

/-- The table's numbering and the spec's are the same: 32 bits, the word itself. -/
theorem test_decodeTableWord : decodeTableWord 32 0x00000513 = some (.brGet 5) ∧ decodeTableWord 8 0x30 = some .idct := by
  decide

/-! ### Small states -/

/-- The reset state with operands, LMEM cells and a bit reader placed in it, all snapshots taken. -/
def setUp (args : Args) (m : Memory) (b : BitReader) (cfg : Cfg := .zero) : State :=
  { State.reset with snapArgs := args, args := args, lmem := m, br := b, snapCfg := cfg, cfg := cfg, busy := true }

/-- The five operands. -/
def ops (a0 : Word := 0) (a1 : Word := 0) (a2 : Word := 0) (a3 : Word := 0) (a4 : Word := 0) : Args :=
  { arg0 := a0, arg1 := a1, arg2 := a2, arg3 := a3, arg4 := a4 }

/-- A reader at the start of the segment of `n` bytes at `a`, nothing buffered. -/
def opened (a n : Nat) : BitReader := { BitReader.zero with pos := a, endPos := a + n }

/-- CFG with only STRICT set. -/
def strictCfg : Cfg := { Cfg.zero with strict := true }

/-- The state a command leaves; the old one when it stops. -/
def after (i : Instr) (s : State) : State :=
  match exec i s with
  | .next t => t
  | .fault _ => s
  | .refused _ => s

/-- The bytes of LMEM at `a` after a command. -/
def bytesAt (s : State) (a n : Nat) : List (Option Byte) := (List.range n).map (fun j => s.lmem.read? (a + j))

/-- `s` with slot `t` built from counts and symbols. -/
def withSlot (s : State) (t : BitVec 3) (count sym : List Byte) : State := s.setSlot t (builtSlot count sym)

/-- The DC table of 95_test_vectors 2.3. -/
def dcTable (s : State) : State :=
  withSlot s 0 [0, 1, 5, 1, 1, 1, 1, 1, 1, 0, 0, 0, 0, 0, 0, 0] [0, 1, 2, 3, 4, 5, 6, 7, 8, 9, 10, 11]

/-- The AC table of 95_test_vectors 2.3. -/
def acTable (s : State) : State :=
  withSlot s 4 [0, 2, 1, 3, 2, 1, 0, 0, 0, 0, 0, 0, 0, 0, 0, 0] [1, 2, 3, 0, 0x11, 8, 0xF0, 0x21, 0x31]

/-! ### One step on the spec's worked examples -/

/-- R110: from reset, STATUS is 0x2 after NOP. -/
theorem test_nop : (after .nop State.reset).status = 0x00000002 := by decide

/-- R111, R112 (C11, C12). -/
theorem test_coreInit : (after .coreInit (setUp (ops) [] .zero { Cfg.zero with backendReq := true })).status = 0x00000012 ∧
    (after .coreInit (setUp (ops) [] .zero { Cfg.zero with backendReq := true, forceScalar := true })).status = 0x2 := by
  decide

/-- R127. -/
theorem test_brInit : (after .brInit (setUp (ops 0x100 5) [] .zero)).br.endPos = 0x105 := by decide
/-- B24: ADDRESS_FAULT. -/
theorem test_brInit_out : (after .brInit (setUp (ops 0xFFFF 2) [] .zero)).status = 0x10000204 := by decide

/-- R128: A5 FF 00 3C FF D0 at 0x200. -/
theorem test_brRefill :
    let b := (after .brRefill (setUp (ops)
      (Memory.writeBytes [] 0x200 [0xA5, 0xFF, 0x00, 0x3C, 0xFF, 0xD0]) (opened 0x200 6))).br
    b.acc = 0xA5FF3C0000000000 ∧ b.nbits = 64 ∧ b.npad = 40 ∧ b.pos = 0x204 ∧ b.marker = 0xD0 ∧ b.mfound = true := by
  decide

/-- The reader R128's example leaves. -/
def refilled : BitReader :=
  { pos := 0x204, endPos := 0x206, acc := 0xA5FF3C0000000000, nbits := 64, npad := 40, ended := true, mfound := true,
    marker := 0xD0, overrun := false }

/-- R129. -/
theorem test_brPeek : (after (.brPeek 12) (setUp (ops) [] refilled)).res.res0 = 0xA5F := by decide
/-- B2: BIT_UNDERFLOW. -/
theorem test_brPeek_underflow : (after (.brPeek 1) (setUp (ops) [] .zero)).status = 0x12000604 := by decide

/-- R130. -/
theorem test_brGet :
    (after (.brGet 4) (setUp (ops) [] refilled)).res.res0 = 0xA ∧
    (after (.brGet 4) (setUp (ops) [] refilled)).br.acc = 0x5FF3C00000000000 := by decide
/-- B16: one bit more than the data with STRICT = 1. -/
theorem test_brGet_strict : (after (.brGet 25) (setUp (ops) [] refilled strictCfg)).status = 0x13010464 := by decide

/-- R131. -/
theorem test_brHas : (after (.brHas 1) (setUp (ops) [] .zero)).res.res0 = 0 ∧
    (after (.brHas 32) (setUp (ops) [] refilled)).res.res0 = 1 := by decide

/-- R132: FF D0 15 FF D9 from 0x206. -/
theorem test_brSkipMarker :
    let t := after .brSkipMarker (setUp (ops) (Memory.writeBytes [] 0x206 [0xFF, 0xD0, 0x15, 0xFF, 0xD9])
      { refilled with pos := 0x206, endPos := 0x20B })
    t.res.res0 = 0xD0 ∧ t.res.res1 = 1 ∧ t.br.pos = 0x208 ∧ t.br.nbits = 0 := by decide
/-- B21: the fill byte of FF FF D3 is passed. -/
theorem test_brSkipMarker_fill :
    let t := after .brSkipMarker (setUp (ops) (Memory.writeBytes [] 0x301 [0xFF, 0xFF, 0xD3, 0x56]) (opened 0x301 4))
    t.res.res0 = 0xD3 ∧ t.br.pos = 0x304 := by decide

/-- R159 (H8). -/
theorem test_htBuild :
    let t := after (.htBuild 0) (setUp (ops) (Memory.writeBytes []
      0 ([0, 1, 5, 1, 1, 1, 1, 1, 1, 0, 0, 0, 0, 0, 0, 0] ++ [0, 1, 2, 3, 4, 5, 6, 7, 8, 9, 10, 11])) .zero)
    t.res.res0 = 0xC ∧ t.res.res1 = 0xFF80 ∧ t.htValid = 1 := by decide
/-- H2: over-subscribed. -/
theorem test_htBuild_over :
    (after (.htBuild 0) (setUp (ops) (Memory.writeBytes [] 0 ([3] ++ List.replicate 15 0)) .zero)).status =
      0x20020304 := by decide

/-- H9. -/
theorem test_htDecode :
    let t := after (.htDecode 0) (dcTable (setUp (ops) [(0x100, 0x88)] (opened 0x100 1)))
    t.res.res0 = 3 ∧ t.res.res1 = 3 ∧ t.br.acc = 0x4000000000000000 ∧ t.br.npad = 56 := by decide
/-- H11: sixteen 1 bits match no code. -/
theorem test_htDecode_noMatch :
    (after (.htDecode 0) (dcTable (setUp (ops) (Memory.writeBytes [] 0x100 [0xFF, 0, 0xFF, 0])
      (opened 0x100 4)))).status = 0x21000404 := by decide

/-- H15. -/
theorem test_htDecodeDc :
    let t := after (.htDecodeDc 0) (dcTable (setUp (ops) [(0x100, 0x88)] (opened 0x100 1)))
    t.res.res0 = 0xFFFFFFFB ∧ t.res.res1 = 3 := by decide
/-- H14: DC category 12. -/
theorem test_htDecodeDc_badCategory :
    (after (.htDecodeDc 0) (withSlot (setUp (ops) [(0x100, 0)] (opened 0x100 1)) 0 ([2] ++ List.replicate 15 0)
      [12, 0])).status = 0x22020404 := by decide

/-- R166: 6C FF 00 BE. -/
theorem test_htDecodeAc :
    let t := after (.htDecodeAc 4) (acTable (setUp (ops)
      (Memory.writeBytes [] 0x200 [0x6C, 0xFF, 0x00, 0xBE]) (opened 0x200 4)))
    t.res.res0 = 2 ∧ t.res.res1 = 2 ∧ t.res.res2 = 0 := by decide
/-- R168: the code 1010 of symbol 00 is end of block, kind 1. -/
theorem test_htDecodeAc_eob :
    (after (.htDecodeAc 4) (acTable (setUp (ops) [(0x200, 0xA0)] (opened 0x200 1)))).res.res2 = 1 := by decide

/-- R161, R167 by hand with FAST_BITS = 2 and codes 0 (symbol 05), 10 (symbol 31): HIT, HIT, HIT, INVALID. -/
theorem test_htDump :
    let s := withSlot (setUp (ops 0x40) [] .zero) 0 ([1, 1] ++ List.replicate 14 0) [0x05, 0x31]
    let t := after (.htDump 0) { s with params := { s.params with fastBits := 2 } }
    t.res.res0 = 4 ∧ bytesAt t 0x40 8 = [0x05, 0x41, 0x05, 0x41, 0x31, 0x42, 0x00, 0x00].map some := by decide
/-- H13: a slot that was never built. -/
theorem test_htDump_undefined : (after (.htDump 1) (setUp (ops) [] .zero)).status = 0x24000504 := by decide

/-- I1: c[1] = 100, row 0. -/
theorem test_referenceKernel_row :
    (referenceKernel ([0, 100] ++ List.replicate 62 0)).take 8 = [145, 143, 138, 131, 125, 118, 113, 111] := by decide
/-- R191: c[0] = 8 gives 0x81; the last byte of the block at 0x400, stride 8. -/
theorem test_idct :
    let t := after .idct (setUp (ops 0x300 0x400 8)
      (cellsAt 0x300 ([8] ++ List.replicate 255 0)) .zero)
    t.lmem.read? 0x43F = some 0x81 := by decide +kernel

/-- R212. -/
theorem test_upsNone :
    bytesAt (after .upsNone (setUp (ops 0x100 0 0 0x200 3) (Memory.writeBytes [] 0x100 [0x10, 0x20, 0x30]) .zero))
      0x200 3 = [0x10, 0x20, 0x30].map some := by decide

/-- R213 (U2). -/
theorem test_upsH :
    bytesAt (after .upsH (setUp (ops 0x100 0 0 0x200 3) (Memory.writeBytes [] 0x100 [0x10, 0x20, 0x30]) .zero))
      0x200 6 = [0x10, 0x14, 0x1C, 0x24, 0x2C, 0x30].map some := by decide
/-- U12: two output bytes do not fit at 0xFFFF. -/
theorem test_upsH_out : (after .upsH (setUp (ops 0x100 0 0 0xFFFF 1) [(0x100, 1)] .zero)).status = 0x41000204 := by
  decide

/-- Three planes of two bytes at 0x100, 0x110, 0x120. -/
def planes (a b c : List Byte) : State :=
  setUp (ops 0x100 0x110 0x120 0x200 2)
    (((Memory.writeBytes [] 0x100 a).writeBytes 0x110 b).writeBytes 0x120 c) .zero

/-- R215 (U8). -/
theorem test_upsV : bytesAt (after .upsV (planes [0x00, 0xFF] [0xFF, 0x00] [0xFF, 0x00])) 0x200 4 =
    [0x40, 0xBF, 0x40, 0xBF].map some := by decide
/-- R217 (U11). -/
theorem test_upsHv : bytesAt (after .upsHv (planes [0x00, 0xFF] [0xFF, 0xFF] [0x00, 0x00])) 0x200 8 =
    [0x40, 0x70, 0xCF, 0xFF, 0x00, 0x30, 0x8F, 0xBF].map some := by decide

/-- R235: (80, 80, 80) and (00, 89, 80). -/
theorem test_ccRgb : bytesAt (after .ccRgb (planes [0x80, 0x00] [0x80, 0x89] [0x80, 0x80])) 0x200 6 =
    [0x80, 0x80, 0x80, 0x00, 0x00, 0x10].map some := by decide
/-- 95_test_vectors 2.6: (100, 128, 127) gives (99, 101, 100), the floor of a negative term; (255, 0, 0). -/
theorem test_ccRgb_floor : bytesAt (after .ccRgb (planes [100, 255] [128, 0] [127, 0])) 0x200 6 =
    [99, 101, 100, 76, 255, 28].map some := by decide
/-- K1. -/
theorem test_ccRgba : bytesAt (after .ccRgba (planes [0xFF, 0x00] [0x80, 0x00] [0x80, 0x00])) 0x200 8 =
    [0xFF, 0xFF, 0xFF, 0xFF, 0x00, 0x87, 0x00, 0xFF].map some := by decide
/-- K2. -/
theorem test_ccRgbx : bytesAt (after .ccRgbx (planes [0x00, 0x80] [0x00, 0x80] [0x00, 0x80])) 0x200 8 =
    [0x00, 0x87, 0x00, 0xFF, 0x80, 0x80, 0x80, 0xFF].map some := by decide
/-- K6: ARG1 and ARG2 out of range. -/
theorem test_ccGray : bytesAt (after .ccGray (setUp (ops 0x100 0xFFFF 0xFFFF 0x200 3)
    (Memory.writeBytes [] 0x100 [0x00, 0x7F, 0xFF]) .zero)) 0x200 3 = [0x00, 0x7F, 0xFF].map some := by decide
/-- K4. -/
theorem test_ccYcbcr : bytesAt (after .ccYcbcr (planes [0x10, 0x11] [0x20, 0x21] [0x30, 0x31])) 0x200 6 =
    [0x10, 0x20, 0x30, 0x11, 0x21, 0x31].map some := by decide

/-! ### The host's side -/

/-- R60: a command that reads a byte nothing has written faults, naming the command. -/
theorem test_unwritten_byte_faults :
    exec .upsNone (setUp (ops 0x100 0 0 0x200 1) [] .zero) = .fault (.unwrittenByte .upsNone 0x100) := by rfl

/-- R91, R105: `clr.err` and `br.skip 5` as host writes. -/
theorem test_expansions :
    (Pseudo.clrErr.expand.flatMap HostStmt.ops) = [.write .word 0x08 4] ∧
    ((Pseudo.brSkip 5).expand.flatMap HostStmt.ops) = [.write .word 0x0C 0x00000513, .wait] := by decide

/-- C2: the core's step on NOP with a reserved bit set. -/
theorem test_illegal_word_step :
    (match step (State.reset.withFetchWord 32 0x00000100) with
      | .next t => t.status
      | _ => 0) = 0x00010104 := by decide

/-- R104: the spelling of a table operand. -/
theorem test_spelling : asmText (.htDecodeAc 4) = "ht.acdec ac0" ∧ asmText (.htBuild 1) = "ht.build dc1" ∧
    asmText (.brGet 5) = "br.get 5" := by decide

/-! ### Witnesses: states that meet the hypotheses of the statements, clause by clause -/

/-- The reset state with a command word in flight, its core step next. -/
def ready (w : Nat) : State := State.reset.withFetchWord 32 w

/-- The reset state with a host program to run. -/
def driving (p : List HostOp) : State := { State.reset with script := p }

/-- An error to have recorded. -/
def someError : ErrRecord := { kind := .tableEmpty, opc := 0x20 }

/-- What the invariant asks of a concrete state whose valid slots all hold `h`. -/
theorem inv_of_checks {s : State} {h : HtSlot}
    (hp : 12 ≤ s.params.lmemLog2 ∧ s.params.lmemLog2 ≤ 16 ∧ 1 ≤ s.params.fastBits ∧ s.params.fastBits ≤ 16)
    (hb : s.br.npad ≤ s.br.nbits ∧ s.br.nbits ≤ 64 ∧ s.br.acc.toNat % 2 ^ (64 - (s.br.nbits - s.br.npad)) = 0 ∧
      s.br.pos ≤ s.br.endPos ∧ s.br.endPos ≤ s.params.lmemSize ∧ (s.br.mfound = true → s.br.ended = true) ∧
      (0 < s.br.npad → s.br.ended = true))
    (hh : SlotOk h) (hs : ∀ t, (s.slot t).valid = true → s.slot t = h)
    (hm : s.lmem.wf ∧ s.lmem.below s.params.lmemSize ∧ (s.busy = true → s.done = false)) : Inv s := by
  obtain ⟨p1, p2, p3, p4⟩ := hp
  obtain ⟨b1, b2, b3, b4, b5, b6, b7⟩ := hb
  obtain ⟨m1, m2, m3⟩ := hm
  exact ⟨⟨p1, p2, p3, p4⟩, ⟨b1, b2, b3, b4, b5, b6, b7⟩, fun t ht => hs t ht ▸ hh, m1, m2, m3⟩

/-- A table of two codes: 0 for the symbol 02 and 10 for the symbol 31. -/
def twoCodes : HtSlot := builtSlot ([1, 1] ++ List.replicate 14 0) [0x02, 0x31]

theorem twoCodes_ok : SlotOk twoCodes := ⟨by decide, by decide, by decide, by decide, by decide, by decide⟩

/-- A table whose first code, 0, has the symbol FF, and which has a code of 16 bits, 8000, with the symbol 07. -/
def longCodes : HtSlot := builtSlot ([1] ++ List.replicate 14 0 ++ [1]) [0xFF, 0x07]

theorem longCodes_ok : SlotOk longCodes := ⟨by decide, by decide, by decide, by decide, by decide, by decide⟩

/-- A command in flight on a segment of these bytes at 0x10, slot 0 holding `h`. -/
def onStream (h : HtSlot) (bytes : List Byte) (cfg : Cfg := .zero) : State :=
  (setUp (ops 0x40) (cellsAt 0x10 bytes) (opened 0x10 bytes.length) cfg).setSlot 0 h

/-- The data 5A 80: 0 10 11010 10000000. -/
theorem inv_onStream : Inv (onStream twoCodes [0x5A, 0x80] strictCfg) :=
  inv_of_checks (by decide) (by decide) twoCodes_ok (by decide) (by decide)
/-- The data C0: 11 begins no code. -/
theorem inv_noMatch : Inv (onStream twoCodes [0xC0]) :=
  inv_of_checks (by decide) (by decide) twoCodes_ok (by decide) (by decide)
/-- An empty segment, STRICT = 1. -/
theorem inv_empty : Inv (onStream twoCodes [] strictCfg) :=
  inv_of_checks (by decide) (by decide) twoCodes_ok (by decide) (by decide)
/-- Category FF, above 11. -/
theorem inv_badCategory : Inv (onStream longCodes [0x00]) :=
  inv_of_checks (by decide) (by decide) longCodes_ok (by decide) (by decide)
/-- 24 data bits and 40 pad bits buffered. -/
theorem inv_refilled : Inv (setUp (ops) [] refilled) :=
  inv_of_checks (h := twoCodes) (by decide) (by decide) twoCodes_ok (by decide) (by decide)

theorem witness_DecodeOfEncodeGivesTheCommand :
    (Instr.brGet 0).wellFormed = true ∧ (Instr.brGet 32).wellFormed = true ∧ (Instr.htDump 7).wellFormed = true := by
  decide

theorem witness_DecodableWordIsTheEncoding : decode 0x00002012 = .ok (.brPeek 32) := by decide

theorem witness_UnassignedOpcodeIsIllegalCommandZero :
    ∀ w ∈ [0x02, 0x0F, 0x16, 0x1F, 0x25, 0x2F, 0x31, 0x3F, 0x44, 0x4F, 0x55, 0xFF],
      let s := ready w
      s.busy = true ∧ s.inReset = false ∧ s.delay = 0 ∧
      let opc := s.pending.toNat % 256
      ((0x02 ≤ opc ∧ opc ≤ 0x0F) ∨ (0x16 ≤ opc ∧ opc ≤ 0x1F) ∨ (0x25 ≤ opc ∧ opc ≤ 0x2F) ∨
        (0x31 ≤ opc ∧ opc ≤ 0x3F) ∨ (0x44 ≤ opc ∧ opc ≤ 0x4F) ∨ 0x55 ≤ opc) := by decide

theorem witness_ReservedBitsAreIllegalCommandOne :
    (∀ w ∈ [0x0820, 0x80000024], let s := ready w
      s.busy = true ∧ s.inReset = false ∧ s.delay = 0 ∧ s.pending.toNat % 256 ∈ [0x20, 0x21, 0x22, 0x23, 0x24] ∧
        s.pending.toNat / 2 ^ 11 ≠ 0) ∧
    (∀ w ∈ [0x4012, 0x80000014], let s := ready w
      s.busy = true ∧ s.inReset = false ∧ s.delay = 0 ∧ s.pending.toNat % 256 ∈ [0x12, 0x13, 0x14] ∧
        s.pending.toNat / 2 ^ 14 ≠ 0) ∧
    (∀ w ∈ [0x0100, 0x80000054], let s := ready w
      s.busy = true ∧ s.inReset = false ∧ s.delay = 0 ∧
        s.pending.toNat % 256 ∈ [0x00, 0x01, 0x10, 0x11, 0x15, 0x30, 0x40, 0x41, 0x42, 0x43, 0x50, 0x51, 0x52, 0x53, 0x54] ∧
        s.pending.toNat / 2 ^ 8 ≠ 0) := by decide

theorem witness_BitCountsUpToThirtyTwo :
    (∀ k ∈ [0, 32], let n := BitVec.ofNat 6 k; let s := ready (k * 256 + 0x12);
      s.busy = true ∧ s.inReset = false ∧ s.delay = 0 ∧ s.pending = 0#18 ++ (n ++ 0x12#8) ∧ n.toNat ≤ 32) ∧
    (∀ k ∈ [33, 63], let n := BitVec.ofNat 6 k; let s := ready (k * 256 + 0x14);
      s.busy = true ∧ s.inReset = false ∧ s.delay = 0 ∧ s.pending = 0#18 ++ (n ++ 0x14#8) ∧ 33 ≤ n.toNat) := by decide

theorem witness_StepRunsThePendingCommand :
    let s := ready 0x00000513
    s.busy = true ∧ s.inReset = false ∧ s.delay = 0 ∧ decode s.pending = .ok (.brGet 5) := by decide

theorem witness_WaitingHostSeesTheCommandComplete :
    let s := { ready 0x00000011 with script := [.wait, .wait], delay := 7 }
    s.busy = true ∧ s.inReset = false ∧ s.script = .wait :: [.wait] ∧ decode s.pending = .ok .brRefill := by decide

theorem witness_AcceptanceLatchesTheCommand :
    (let s := driving [.write .word 0x0C 0x10];
      s.inReset = false ∧ s.busy = false ∧ s.script = .write .word 0x0C 0x10 :: [] ∧ s.err = none) ∧
    (∀ k ∈ [0, 1], let w := BitVec.ofNat 32 k; let s := { driving [.write .word 0x0C w] with err := some someError };
      s.inReset = false ∧ s.busy = false ∧ s.script = .write .word 0x0C w :: [] ∧
        (w.toNat % 256 = 0x00 ∨ w.toNat % 256 = 0x01)) := by decide

theorem witness_CommandsAreDiscardedInError :
    let s := { driving [.write .word 0x0C 0x10] with err := some someError }
    s.inReset = false ∧ s.busy = false ∧ s.script = .write .word 0x0C 0x10 :: [] ∧ s.err.isSome = true ∧
      (0x10 : Word).toNat % 256 ≠ 0x00 ∧ (0x10 : Word).toNat % 256 ≠ 0x01 := by decide
theorem witness_CommandsAreDiscardedInError_busy :
    let s := { ready 0x30 with script := [.write .word 0x0C 0x02], err := some someError, delay := 1 }
    s.inReset = false ∧ s.delay ≠ 0 ∧ s.script = .write .word 0x0C 0x02 :: [] ∧ s.err.isSome = true ∧
      (0x02 : Word).toNat % 256 ≠ 0x00 ∧ (0x02 : Word).toNat % 256 ≠ 0x01 := by decide

theorem witness_CommandWriteWhileBusyIsAnOverrun :
    let s := { ready 0x30 with script := [.write .word 0x0C 0x30], delay := 1 }
    s.inReset = false ∧ s.busy = true ∧ s.delay ≠ 0 ∧ s.script = .write .word 0x0C 0x30 :: [] := by decide

theorem witness_StatusReadsAndClears :
    (State.reset.inReset = false ∧ State.reset.busy = false ∧ State.reset.err = none) ∧
    (let s := { State.reset with err := some someError }; s.inReset = false ∧ s.err = some someError) := by decide

/-- Also the witness of CfgAndArgHoldWhatIsWritten. -/
theorem witness_ViewsShowTheHiddenState :
    let s := { setUp (ops) [] refilled with busy := false }
    s.inReset = false ∧ s.busy = false ∧ s.br.npad ≤ s.br.nbits ∧ s.br.nbits ≤ 64 := by decide

theorem witness_ReadOnlyAndReservedRegisters :
    State.reset.inReset = false ∧
    (∀ k ∈ [0x50, 0xFC, 0x100, 0xFFFC], let off := BitVec.ofNat 17 k;
      0x50 ≤ off.toNat ∧ off.toNat < 0x10000 ∧ off.toNat % 4 = 0) ∧
    (∀ k ∈ [0x00, 0x24, 0x4C, 0xFFFC], let off := BitVec.ofNat 17 k; off.toNat < 0x10000 ∧ off.toNat % 4 = 0 ∧
      off.toNat ∉ [0x04, 0x08, 0x0C, 0x10, 0x14, 0x18, 0x1C, 0x20]) := by decide
/-- The parameters' ranges at both ends. -/
theorem witness_ParamsOk :
    ParamsOk { lmemLog2 := 12, fastBits := 1, parAvailable := false, kernel := .other 3 } ∧
    ParamsOk { lmemLog2 := 16, fastBits := 16, parAvailable := true, kernel := .reference } :=
  ⟨⟨by decide, by decide, by decide, by decide⟩, ⟨by decide, by decide, by decide, by decide⟩⟩

theorem witness_RefusedHostAccesses :
    State.reset.inReset = false ∧ State.reset.busy = false ∧ (ready 0).busy = true ∧
    ((0xFFFF : BitVec 17).toNat < 0x10000 ∧ (AccessSize.byte ≠ .word ∨ (0xFFFF : BitVec 17).toNat % 4 ≠ 0)) ∧
    (0x10000 ≤ (0x10002 : BitVec 17).toNat ∧ (0x10002 : BitVec 17).toNat % AccessSize.word.bytes ≠ 0) ∧
    (0x10000 ≤ (0x1FFFE : BitVec 17).toNat ∧ (0x1FFFE : BitVec 17).toNat % AccessSize.half.bytes = 0) ∧
    ((0xFFFC : BitVec 17).toNat < 0x10000 ∧ (0xFFFC : BitVec 17).toNat % 4 = 0) := by decide

theorem witness_WindowStoresLittleEndian :
    (let s := State.reset; let off : BitVec 17 := 0x1FFFC;
      s.inReset = false ∧ s.busy = false ∧ 0x10000 ≤ off.toNat ∧ off.toNat % AccessSize.word.bytes = 0 ∧
        off.toNat - 0x10000 < s.params.lmemSize) ∧
    (let s := State.resetWith { Params.default with lmemLog2 := 12 }; let off : BitVec 17 := 0x11000;
      s.inReset = false ∧ s.busy = false ∧ 0x10000 ≤ off.toNat ∧ off.toNat % AccessSize.byte.bytes = 0 ∧
        s.params.lmemSize ≤ off.toNat - 0x10000) := by decide
theorem witness_WindowStoresLittleEndian_params :
    ParamsOk State.reset.params ∧ ParamsOk (State.resetWith { Params.default with lmemLog2 := 12 }).params :=
  ⟨⟨by decide, by decide, by decide, by decide⟩, ⟨by decide, by decide, by decide, by decide⟩⟩

theorem witness_HostReadsHaveNoSideEffect :
    hostRead .word 0x00 State.reset = .next { State.reset with readLog := [0x5A4A4401] } := by rfl

theorem witness_EveryStepKeepsTheInvariant :
    Inv (setUp (ops) [] refilled) ∧ ∃ t, step (setUp (ops) [] refilled) = .next t := ⟨inv_refilled, _, rfl⟩

theorem witness_ResetInputAbandonsTheCommand :
    (let s := { ready 0x30 with script := [.assertReset], delay := 2 };
      s.script = .assertReset :: [] ∧ coreReady s = false) ∧
    (∀ op ∈ [HostOp.write .byte 0x1FFFF 7, .read .half 0x03, .releaseReset],
      let s := { driving [op] with inReset := true }; s.inReset = true ∧ s.script = op :: []) := by decide

theorem witness_ErrorsArePrecise :
    (ready 0x12).done = false ∧ (ready 0x112).done = false ∧ (∃ t, coreStep (ready 0x12) = .next t) ∧
      ∃ t, coreStep (ready 0x112) = .next t := ⟨rfl, rfl, ⟨_, rfl⟩, _, rfl⟩

theorem witness_FirstErrorIsSticky :
    (∃ t, step { ready 0x01 with err := some someError } = .next t) ∧
    (∃ t, step { driving [.write .word 0x08 4] with err := some someError } = .next t) ∧
    (∃ t, step { driving [.assertReset] with err := some someError } = .next t) ∧
    ∃ t, step { ready 0x112 with err := some someError } = .next t := ⟨⟨_, rfl⟩, ⟨_, rfl⟩, ⟨_, rfl⟩, _, rfl⟩

/-- One operand out of range for each command: the first region, and for the wide ones the output region alone. -/
theorem witness_RegionsOutsideLmemAreAddressFaults :
    (let s := setUp (ops 0xFFFFFFFF 1) [] .zero; s.params.lmemSize < s.snapArgs.arg0.toNat + s.snapArgs.arg1.toNat) ∧
    (let s := setUp (ops 0 0xFFF8 1) [] .zero;
      s.params.lmemSize < s.snapArgs.arg1.toNat + 7 * s.snapArgs.arg2.toNat + 8) ∧
    (let s := setUp (ops 0 0 0 0xFFFD 1) [] .zero; s.params.lmemSize < s.snapArgs.arg3.toNat + 4 * s.snapArgs.arg4.toNat) ∧
    (let s := setUp (ops 0 0 0x10000 0 1) [] .zero; s.params.lmemSize < s.snapArgs.arg2.toNat + s.snapArgs.arg4.toNat) := by
  decide

/-- For WhoChangesTheBitReader, CommandsChangeOnlyWhatTheyName and CommandsStoreOnlyToTheirOutput. -/
theorem witness_frames :
    (∃ t, exec (.brPeek 12) (setUp (ops) [] refilled) = .next t) ∧
    (∃ t, exec (.brGet 25) (setUp (ops) [] refilled) = .next t ∧ t.br.overrun = true) ∧
    (∃ t, exec .upsH (setUp (ops 0x100 0 0 0x200 1) [(0x100, 9)] .zero) = .next t ∧ t.lmem ≠ [(0x100, 9)]) ∧
    ¬ outputByte .upsH (setUp (ops 0x100 0 0 0x200 1) [(0x100, 9)] .zero) 0x202 :=
  ⟨⟨_, rfl⟩, ⟨_, rfl, rfl⟩, ⟨_, rfl, by decide⟩, by simp [outputByte, setUp, ops, State.opnd3, State.opnd4]⟩

/-- For CommandsReadOnlyTheSnapshot and BackendAndFastBitsAreUnobservable: a next state and a fault. -/
theorem witness_independence :
    (∃ t, exec (.brPeek 12) (setUp (ops) [] refilled) = .next t) ∧
    exec .upsNone (setUp (ops 0x100 0 0 0x200 1) [] .zero) = .fault (.unwrittenByte .upsNone 0x100) ∧
    (∀ x, Instr.upsNone ≠ .htDump x) ∧ Instr.upsNone ≠ .coreInit := ⟨⟨_, rfl⟩, rfl, by decide, by decide⟩

theorem witness_BrInitOpensTheSegment :
    (let s := setUp (ops 0x10000 0) [] .zero; s.snapArgs.arg0.toNat + s.snapArgs.arg1.toNat ≤ s.params.lmemSize) ∧
    (let s := setUp (ops 0x10000 1) [] .zero; s.params.lmemSize < s.snapArgs.arg0.toNat + s.snapArgs.arg1.toNat) := by
  decide

theorem witness_RefillKeepsTheStream :
    Inv (onStream twoCodes [0x5A, 0x80] strictCfg) ∧
    let s := onStream twoCodes [0x5A, 0x80] strictCfg; Written s.lmem s.br.pos (s.br.endPos - s.br.pos) :=
  ⟨inv_onStream, by decide⟩

/-- The stream of R128's example. -/
def exampleStream : State := setUp (ops) (cellsAt 0x200 [0xA5, 0xFF, 0x00, 0x3C, 0xFF, 0xD0]) (opened 0x200 6)

/-- The clause of the marker, behind the three data bytes of R128's example, and the accumulator it then gives. -/
theorem witness_RefillStopsAtMarkerAndEnd :
    let s := exampleStream
    (s.br.ended = false ∧ s.br.nbits + 8 * [(0xA5 : Byte), 0xFF, 0x3C].length ≤ 56 ∧ 0x204 + 1 < s.br.endPos ∧
      s.lmem.read? 0x204 = some 0xFF ∧ s.lmem.read? (0x204 + 1) = some 0xD0 ∧ (0xD0 : Byte) ≠ 0) ∧
    DataAhead s.lmem s.br.endPos 0x204 s.br.pos [0xA5, 0xFF, 0x3C] ∧
    (s.br.acc ||| BitVec.ofNat 64 (bytesValue [0xA5, 0xFF, 0x3C] * 2 ^ (64 - 24))) = 0xA5FF3C0000000000 :=
  ⟨by decide, by simp [DataAhead, exampleStream, setUp, opened, cellsAt, Memory.read?], by decide⟩

/-- The other clauses: a reader that has ended, the end of an empty segment, a lone 0xFF at the end, and no room left with the next byte unwritten. -/
theorem witness_RefillStopsAtMarkerAndEnd_others :
    (let s := setUp (ops) [] { opened 0x10 2 with ended := true, nbits := 3 }; s.br.ended = true ∧ s.br.nbits ≤ 64) ∧
    (let s := setUp (ops) [] (opened 0x10 0); s.br.nbits ≤ 56 ∧ s.br.ended = false ∧ s.br.endPos ≤ s.br.pos) ∧
    (let s := setUp (ops) [(0x10, 0xFF)] (opened 0x10 1);
      s.br.nbits ≤ 56 ∧ s.br.ended = false ∧ s.br.pos + 1 = s.br.endPos ∧ s.lmem.read? s.br.pos = some 0xFF) ∧
    (let s := setUp (ops) [(0x10, 7)] { opened 0x10 2 with nbits := 56 };
      s.br.ended = false ∧ 56 < s.br.nbits + 8 * [(7 : Byte)].length ∧ s.br.nbits + 8 * [(7 : Byte)].length ≤ 64 ∧
        DataAhead s.lmem s.br.endPos 0x11 s.br.pos [7]) :=
  ⟨by decide, by decide, by decide, by decide, by decide, by decide, by simp [DataAhead, setUp, opened, Memory.read?]⟩

/-- For PeekAndHasLookAtTheBuffer: as many bits as are buffered, and one more. -/
theorem witness_PeekAndHasLookAtTheBuffer :
    (let s := setUp (ops) [] { refilled with nbits := 31 };
      (31 : BitVec 6).toNat ≤ 32 ∧ (31 : BitVec 6).toNat ≤ s.br.nbits ∧ (32 : BitVec 6).toNat ≤ 32 ∧
        s.br.nbits < (32 : BitVec 6).toNat) := by decide

theorem witness_GetConsumesBits :
    (let s := setUp (ops) [] refilled strictCfg;
      (25 : BitVec 6).toNat ≤ s.br.nbits ∧ s.br.nbits - s.br.npad < (25 : BitVec 6).toNat ∧ s.snapCfg.strict = true ∧
        (24 : BitVec 6).toNat ≤ s.br.nbits - s.br.npad) ∧
    (let s := setUp (ops) [] .zero; s.br.nbits < (1 : BitVec 6).toNat) ∧ (setUp (ops) [] refilled).snapCfg.strict = false := by
  decide

theorem witness_GetDeliversTheStream :
    Inv (setUp (ops) [] refilled) ∧
    let s := setUp (ops) [] refilled
    (25 : BitVec 6).toNat ≤ 32 ∧ (25 : BitVec 6).toNat ≤ s.br.nbits ∧ s.snapCfg.strict = false ∧
      (24 : BitVec 6).toNat ≤ (bitsLeft s.lmem s.br).length := ⟨inv_refilled, by decide⟩

/-- A marker after a stuffed pair and a fill byte, and a segment that ends in 0xFF. -/
theorem witness_SkipMarkerFindsTheFirstMarker :
    (let s := setUp (ops) (cellsAt 0x10 [0xFF, 0x00, 0xFF, 0xFF, 0xD0]) (opened 0x10 5);
      s.br.pos ≤ s.br.endPos ∧ Written s.lmem s.br.pos (s.br.endPos - s.br.pos) ∧
        (s.br.pos ≤ 0x13 ∧ 0x13 + 1 < s.br.endPos ∧ s.lmem.read? 0x13 = some 0xFF ∧ s.lmem.read? (0x13 + 1) = some 0xD0) ∧
        (∀ j, j < 0x13 → ¬ (s.br.pos ≤ j ∧ s.lmem.read? j = some 0xFF ∧ s.lmem.read? (j + 1) ≠ some 0x00 ∧
          s.lmem.read? (j + 1) ≠ some 0xFF))) ∧
    (let s := setUp (ops) (cellsAt 0x10 [0x12, 0xFF]) (opened 0x10 2);
      s.br.pos ≤ s.br.endPos ∧ Written s.lmem s.br.pos (s.br.endPos - s.br.pos) ∧
        (∀ j, j < 0x12 → ¬ (s.br.pos ≤ j ∧ j + 1 < s.br.endPos ∧ s.lmem.read? j = some 0xFF))) := by decide

/-- A complete code and an under-subscribed one. -/
theorem witness_CanonicalCodeIsPrefixFree :
    (let c : List Byte := [2] ++ List.replicate 15 0;
      c.length = 16 ∧ kraft c ≤ 65536 ∧ (codewords c)[0]? = some ⟨1, 0⟩ ∧ (codewords c)[1]? = some ⟨1, 1⟩) ∧
    (let c := twoCodes.count;
      c.length = 16 ∧ kraft c ≤ 65536 ∧ (codewords c)[1]? = some ⟨2, 2⟩ ∧ (0x8000 : BitVec 16).toNat / 2 ^ (16 - 2) = 2) := by
  decide

theorem witness_CanonicalCodesIncreaseByOne :
    ∀ l ∈ [1, 16], let c := longCodes.count
      c.length = 16 ∧ kraft c ≤ 65536 ∧ 1 ≤ l ∧ l ≤ 16 ∧ 0 < (c.getD (l - 1) 0).toNat := by decide

/-- For DecodeFindsTheUniqueCodeword, LookupEntriesAreHitLongInvalid and LookupTableRefinesDecode. -/
theorem witness_lookups :
    SlotOk longCodes ∧
    ((codewords longCodes.count)[1]? = some ⟨16, 0x8000⟩ ∧ longCodes.sym[1]? = some 0x07 ∧
      (0x8000 : BitVec 16).toNat / 2 ^ (16 - 16) = 0x8000) ∧
    (∀ w ∈ codewords longCodes.count, (0xC000 : BitVec 16).toNat / 2 ^ (16 - w.len) ≠ w.code) ∧
    ((codewords longCodes.count)[0]? = some ⟨1, 0⟩ ∧ 1 ≤ 9 ∧ 255 / 2 ^ (9 - 1) = 0) ∧
    (∀ w ∈ codewords longCodes.count, w.len ≤ 9 → 256 / 2 ^ (9 - w.len) ≠ w.code) ∧
    (∃ w ∈ codewords longCodes.count, 9 < w.len ∧ w.code / 2 ^ (w.len - 9) = 256) ∧
    (∀ w ∈ codewords longCodes.count, 9 < w.len → w.code / 2 ^ (w.len - 9) ≠ 511) ∧
    (∀ w ∈ codewords longCodes.count, w.len ≤ 9 → 511 / 2 ^ (9 - w.len) ≠ w.code) ∧
    ((longCodes.lutEntry 9 255).extractLsb' 14 2 = 1 ∧ (longCodes.lutEntry 9 256).extractLsb' 14 2 = 2 ∧
      (longCodes.lutEntry 9 511).extractLsb' 14 2 = 0) :=
  ⟨longCodes_ok, by decide, by decide, by decide, by decide, by decide, by decide, by decide, by decide⟩

/-- The boundary between the two signs: s = 1 and s = 15. -/
theorem witness_ExtendIsTheJpegConvention :
    (1 ≤ 1 ∧ 1 < 2 ^ 1 ∧ 2 ^ (1 - 1) ≤ 1) ∧ (1 ≤ 15 ∧ 16383 < 2 ^ 15 ∧ 16383 < 2 ^ (15 - 1)) := by decide

/-- The counts of H1 to H7, and H1's symbols. -/
theorem witness_HtBuildChecksThenBuilds :
    (setUp (ops 0xFFF1) [] .zero).params.lmemSize < (setUp (ops 0xFFF1) [] .zero).snapArgs.arg0.toNat + 16 ∧
    (∀ cs ∈ [List.replicate 14 (0 : Byte) ++ [2, 255], List.replicate 16 0, [3] ++ List.replicate 15 0,
        [2] ++ List.replicate 15 0],
      let s := setUp (ops 0xFFF0) (cellsAt 0xFFF0 cs) .zero
      cs.length = 16 ∧ s.snapArgs.arg0.toNat + 16 ≤ s.params.lmemSize ∧ Holds s.lmem s.snapArgs.arg0.toNat cs) ∧
    (let s := setUp (ops 0xFFEE) (cellsAt 0xFFEE ([2] ++ List.replicate 15 0 ++ [7, 8])) .zero;
      s.snapArgs.arg0.toNat + 16 + 2 ≤ s.params.lmemSize ∧ Holds s.lmem (s.snapArgs.arg0.toNat + 16) [7, 8]) := by
  decide

/-- For HtDecodeConsumesOneCodeword, HtDecodeDcReturnsTheDifference and HtDecodeAcReturnsRunAndSize: the code 0 with the
symbol 02 and two extra bits, from 5A with STRICT = 1. -/
theorem witness_decodes :
    Inv (onStream twoCodes [0x5A, 0x80] strictCfg) ∧
    let s := onStream twoCodes [0x5A, 0x80] strictCfg
    (s.slot 0).valid = true ∧ Written s.lmem s.br.pos (s.br.endPos - s.br.pos) ∧
      (codewords (s.slot 0).count)[0]? = some ⟨1, 0⟩ ∧ (s.slot 0).sym[0]? = some 0x02 ∧
      Codeword.bits ⟨1, 0⟩ <+: paddedBits s ∧ (0x02 : Byte).toNat ≤ 11 ∧
      1 + (0x02 : Byte).toNat ≤ (bitsLeft s.lmem s.br).length := ⟨inv_onStream, by decide⟩

theorem witness_DecodeErrors_undefined : ((onStream twoCodes []).slot 7).valid = false := by decide
theorem witness_DecodeErrors_noMatch :
    Inv (onStream twoCodes [0xC0]) ∧
    let s := onStream twoCodes [0xC0]
    (s.slot 0).valid = true ∧ Written s.lmem s.br.pos (s.br.endPos - s.br.pos) ∧
      ∀ w ∈ codewords (s.slot 0).count, ¬ w.bits <+: paddedBits s := ⟨inv_noMatch, by decide⟩
theorem witness_DecodeErrors_badCategory :
    Inv (onStream longCodes [0x00]) ∧
    let s := onStream longCodes [0x00]
    (s.slot 0).valid = true ∧ Written s.lmem s.br.pos (s.br.endPos - s.br.pos) ∧
      (codewords (s.slot 0).count)[0]? = some ⟨1, 0⟩ ∧ (s.slot 0).sym[0]? = some 0xFF ∧
      Codeword.bits ⟨1, 0⟩ <+: paddedBits s ∧ 11 < (0xFF : Byte).toNat := ⟨inv_badCategory, by decide⟩
theorem witness_DecodeErrors_truncated :
    Inv (onStream twoCodes [] strictCfg) ∧
    let s := onStream twoCodes [] strictCfg
    (s.slot 0).valid = true ∧ Written s.lmem s.br.pos (s.br.endPos - s.br.pos) ∧
      (codewords (s.slot 0).count)[0]? = some ⟨1, 0⟩ ∧ (s.slot 0).sym[0]? = some 0x02 ∧
      Codeword.bits ⟨1, 0⟩ <+: paddedBits s ∧ s.snapCfg.strict = true ∧ (bitsLeft s.lmem s.br).length < 1 :=
  ⟨inv_empty, by decide⟩

/-- The codes 0 and 10 one after another: 010 begins 5A. -/
theorem witness_SymbolsRoundTrip :
    Inv (onStream twoCodes [0x5A, 0x80] strictCfg) ∧
    let s := onStream twoCodes [0x5A, 0x80] strictCfg
    (s.slot 0).valid = true ∧ s.err = none ∧ Written s.lmem s.br.pos (s.br.endPos - s.br.pos) ∧
      (codewords (s.slot 0).count).flatMap Codeword.bits <+: bitsLeft s.lmem s.br := ⟨inv_onStream, by decide⟩

theorem witness_HtDumpWritesTheTable :
    (let s := onStream twoCodes []; (s.slot 0).valid = true ∧
      s.snapArgs.arg0.toNat + 2 * 2 ^ s.params.fastBits ≤ s.params.lmemSize) ∧
    (let s := { onStream twoCodes [] with snapArgs := ops 0xFC01 }; (s.slot 0).valid = true ∧
      s.params.lmemSize < s.snapArgs.arg0.toNat + 2 * 2 ^ s.params.fastBits) := by decide

/-- A block of zeros at 0x100 with stride 4, so that rows overlap. -/
def zeroBlock : State := setUp (ops 0x100 0x400 4) (Memory.writeBytes [] 0x100 (List.replicate 256 0)) .zero

theorem witness_IdctStoresTheBlock :
    let s := zeroBlock
    (List.replicate 64 (0 : Word)).length = 64 ∧ s.snapArgs.arg0.toNat + 256 ≤ s.params.lmemSize ∧
      s.snapArgs.arg1.toNat + 7 * s.snapArgs.arg2.toNat + 8 ≤ s.params.lmemSize ∧
      HoldsWords s.lmem s.snapArgs.arg0.toNat (List.replicate 64 0) := by
  refine ⟨by decide, by decide, by decide, fun j hj k hk => ?_⟩
  rw [List.length_replicate] at hj
  have h := Memory.read?_writeBytes_inside [] (a := 0x100) (bs := List.replicate 256 0) (j := 4 * j + k)
    (by rw [List.length_replicate]; omega)
  rw [List.getElem?_replicate, if_pos (by omega), ← Nat.add_assoc] at h
  have hz : (List.replicate 64 (0 : Word)).getD j 0 = 0 := by
    rw [List.getD_eq_getElem?_getD, List.getElem?_replicate, if_pos hj, Option.getD_some]
  rw [hz, show (0 : Word).extractLsb' (8 * k) 8 = 0 from by simp,
    show zeroBlock.lmem = Memory.writeBytes [] 0x100 (List.replicate 256 0) from by simp only [zeroBlock, setUp],
    show zeroBlock.snapArgs.arg0.toNat = 0x100 from by decide]
  exact h

/-- The ends of the two ranges of R195, and of the domain of R200. -/
theorem witness_DcOnlyBlocksAreFlat :
    (-2328 ≤ (BitVec.ofInt 32 (-2328)).toInt ∧ (BitVec.ofInt 32 2328).toInt ≤ 2328) ∧
    (-132100 ≤ (BitVec.ofInt 32 (-132100)).toInt ∧ (BitVec.ofInt 32 130043).toInt ≤ 130043) ∧
    (∀ x ∈ [(-2328 : Int), 2328], -2328 ≤ x ∧ x ≤ 2328) := by decide

/-- For the statements about UPS and CC commands: rows of one sample in the last bytes of LMEM, and of none. -/
theorem witness_rows :
    (let s := setUp (ops 0xFFF8 0xFFF9 0xFFFA 0xFFFC 1) [(0xFFF8, 1), (0xFFF9, 2), (0xFFFA, 3)] .zero;
      [(1 : Byte)].length = s.snapArgs.arg4.toNat ∧ s.snapArgs.arg0.toNat + s.snapArgs.arg4.toNat ≤ s.params.lmemSize ∧
      s.snapArgs.arg1.toNat + s.snapArgs.arg4.toNat ≤ s.params.lmemSize ∧
      s.snapArgs.arg2.toNat + s.snapArgs.arg4.toNat ≤ s.params.lmemSize ∧
      s.snapArgs.arg3.toNat + 4 * s.snapArgs.arg4.toNat ≤ s.params.lmemSize ∧
      Holds s.lmem s.snapArgs.arg0.toNat [1] ∧ Holds s.lmem s.snapArgs.arg1.toNat [2] ∧
      Holds s.lmem s.snapArgs.arg2.toNat [3]) ∧
    (let s := setUp (ops 0x10000 0x10000 0x10000 0x10000 0) [] .zero;
      ([] : List Byte).length = s.snapArgs.arg4.toNat ∧
      s.snapArgs.arg3.toNat + 4 * s.snapArgs.arg4.toNat ≤ s.params.lmemSize ∧ Holds s.lmem s.snapArgs.arg0.toNat []) := by
  decide

end Sys2Proof.Tests
end

section
/-! The invariant of the block: what each update of the state keeps of it, then every command and every host operation. -/

namespace Sys2Proof.Machine

/-! ### The invariant under updates -/

/-- The invariant speaks only of the parameters, the bit reader, the slots, LMEM, BUSY and DONE. -/
theorem Inv.congr {s t : State} (h : Inv s) (hp : t.params = s.params) (hbr : t.br = s.br) (hht : t.ht = s.ht)
    (hm : t.lmem = s.lmem) (hd : t.busy = true → t.done = false) : Inv t := by
  have hslot : ∀ k, t.slot k = s.slot k := fun k => by simp only [State.slot, hht]
  refine ⟨hp ▸ h.params, ?_, ?_, hm ▸ h.lmem_wf, ?_, hd⟩
  · rw [hbr, hp]; exact h.br
  · intro k; rw [hslot]; exact h.slots k
  · rw [hm, hp]; exact h.lmem_below

theorem Inv.with_br {s : State} (h : Inv s) {b : BitReader} (hb : BrOk b s.params.lmemSize) :
    Inv { s with br := b } :=
  ⟨h.params, hb, h.slots, h.lmem_wf, h.lmem_below, h.busy_done⟩

theorem Inv.with_res {s : State} (h : Inv s) (r : Results) : Inv { s with res := r } :=
  h.congr rfl rfl rfl rfl h.busy_done

theorem Inv.with_lmem {s : State} (h : Inv s) {m : Memory} (hw : m.wf) (hb : m.below s.params.lmemSize) :
    Inv { s with lmem := m } :=
  ⟨h.params, h.br, h.slots, hw, hb, h.busy_done⟩

theorem Inv.with_writeBytes {s : State} (h : Inv s) {a : Nat} {bs : List Byte}
    (hb : a + bs.length ≤ s.params.lmemSize) : Inv { s with lmem := s.lmem.writeBytes a bs } :=
  h.with_lmem (Memory.wf_writeBytes h.lmem_wf _ _) (Memory.below_writeBytes h.lmem_below hb)

theorem Inv.with_slot {s : State} (h : Inv s) (t : BitVec 3) {x : HtSlot} (hx : SlotOk x) : Inv (s.setSlot t x) := by
  refine ⟨h.params, h.br, fun k hk => ?_, h.lmem_wf, h.lmem_below, h.busy_done⟩
  by_cases hkt : k = t
  · rwa [hkt, slot_setSlot_self]
  · rw [slot_setSlot_ne s x hkt] at hk ⊢
    exact h.slots k hk

theorem Inv.complete {s : State} (h : Inv s) : Inv (complete s) :=
  h.congr rfl rfl rfl rfl fun hb => nomatch hb

theorem Inv.raiseError {s : State} (h : Inv s) (opc : BitVec 8) (k : ErrKind) : Inv (raiseError opc k s) :=
  h.congr rfl rfl rfl rfl fun hb => nomatch hb

theorem inv_resetWith {p : Params} (hp : ParamsOk p) : Inv (State.resetWith p) := by
  refine ⟨hp, zero_brOk _, fun t ht => ?_, List.Pairwise.nil, fun _ hc => (nomatch hc), fun hb => nomatch hb⟩
  simp [State.slot, State.resetWith, HtSlot.invalid] at ht

/-! ### The parts of the commands -/

/-- What HT_BUILD's checks leave is a table (R159). -/
theorem builtSlot_ok {count sym : List Byte} (hc : count.length = 16) (hs : sym.length = countSum count)
    (hlo : countSum count ≠ 0) (hhi : countSum count ≤ 256) (hk : kraft count ≤ 65536) :
    SlotOk (builtSlot count sym) :=
  ⟨hc, rfl, hs, Nat.one_le_iff_ne_zero.2 hlo, hhi, hk⟩

/-- The reader BR_SKIP_MARKER leaves (R132) is empty and stands in the segment. -/
theorem skipTo_keeps_inv {s : State} (h : Inv s) {r : Option (Byte × Nat)}
    (hr : findMarker .brSkipMarker s.lmem s.br = .ok r) : Inv (skipTo s r) := by
  have hb := h.br
  cases r with
  | none =>
    refine (h.with_br (b := (skipTo s none).br) ?_).with_res (skipTo s none).res
    exact ⟨le_rfl, Nat.zero_le _, Nat.zero_mod _, le_rfl, hb.end_le, fun hm => (nomatch hm), fun _ => rfl⟩
  | some cp =>
    obtain ⟨c, p⟩ := cp
    have hp : p ≤ s.br.endPos := (scanMarker_bounds hr).2
    refine (h.with_br (b := (skipTo s (some (c, p))).br) ?_).with_res (skipTo s (some (c, p))).res
    exact ⟨le_rfl, Nat.zero_le _, Nat.zero_mod _, hp, hb.end_le, fun hm => (nomatch hm), fun hn => nomatch hn⟩

/-- Bits taken from a reader that has them leave a reader that keeps R52. -/
theorem consume_brOk {b c : BitReader} {n v size : Nat} {strict : Bool} (h : consume b n strict = .ok (v, c))
    (hb : BrOk b size) (hn : n ≤ b.nbits) : BrOk c size ∧ c.nbits = b.nbits - n := by
  obtain ⟨-, -, rfl⟩ := consume_eq_ok h
  exact ⟨dropBits_brOk hb hn, rfl⟩

/-- A decoded codeword is taken from a refilled reader, which keeps at least 41 bits: more than any category or size
asks for. -/
theorem decodeSym_consume_brOk {i : Instr} {t : BitVec 3} {s : State} {sym : Byte} {l v : Nat} {b c : BitReader}
    (h : Inv s) (hd : decodeSym i t s = .ok (sym, l, b)) (hc : consume b l s.strict = .ok (v, c)) :
    BrOk c s.params.lmemSize ∧ 41 ≤ c.nbits := by
  obtain ⟨hv, hr, hdec⟩ := decodeSym_eq_ok hd
  have hl := decode_len (h.slots t hv).count_len hdec
  have hn := refill_nbits hr h.br
  obtain ⟨hok, hcn⟩ := consume_brOk hc (refill_brOk hr h.br) (by omega)
  exact ⟨hok, by omega⟩

/-- The cells of a block whose last row lies in LMEM lie in LMEM (R191). -/
theorem blockCells_below {oa st n : Nat} {o : List Byte} (h : oa + 7 * st + 8 ≤ n) :
    ∀ c ∈ blockCells oa st o, c.1 < n := by
  intro c hc
  obtain ⟨k, hk, rfl⟩ := mem_blockCells hc
  have hrow : k / 8 * st ≤ 7 * st := Nat.mul_le_mul_right st (by omega)
  simp only
  omega

theorem Converted.keeps_inv {i : Instr} {bpp : Nat} {pixel : Byte → Byte → Byte → List Byte} {s u : State}
    (h : Inv s) (hu : Converted i bpp pixel s u) (hp : ∀ a b c, (pixel a b c).length = bpp) : Inv u := by
  obtain ⟨bs, hl, hin, rfl⟩ := hu.output hp
  exact h.with_writeBytes (by omega)

/-! ### Every command -/

/-- The working copy a command commits has the invariant. -/
theorem effect_keeps_inv {i : Instr} {s u : State} (h : Inv s) (hu : Effect i s u) : Inv u := by
  cases i with
  | nop => exact hu ▸ h
  | coreInit =>
    subst hu
    refine ⟨h.params, zero_brOk _, fun t ht => ?_, h.lmem_wf, h.lmem_below, h.busy_done⟩
    rw [slot_initCore] at ht
    cases ht
  | brInit =>
    obtain ⟨hin, rfl⟩ := hu
    exact h.with_br (segmentAt_brOk hin)
  | brRefill =>
    obtain ⟨b, hr, rfl⟩ := hu
    exact h.with_br (refill_brOk hr h.br)
  | brPeek n =>
    obtain ⟨-, rfl⟩ := hu
    exact h.with_res _
  | brGet n =>
    obtain ⟨hn, v, b, hc, rfl⟩ := hu
    exact (h.with_br (consume_brOk hc h.br hn).1).with_res _
  | brHas n =>
    subst hu
    exact h.with_res _
  | brSkipMarker =>
    obtain ⟨r, hr, rfl⟩ := hu
    exact skipTo_keeps_inv h hr
  | htBuild t =>
    obtain ⟨count, sym, -, hcount, hhi, hlo, hk, -, hsym, rfl⟩ := hu
    exact (h.with_slot t (builtSlot_ok (readBytes_length hcount) (readBytes_length hsym) hlo hhi hk)).with_res _
  | htDecode t =>
    obtain ⟨sym, l, b, v, c, hd, hc, rfl⟩ := hu
    exact (h.with_br (decodeSym_consume_brOk h hd hc).1).with_res _
  | htDecodeDc t =>
    obtain ⟨sym, l, b, v, c, x, d, hd, hcat, hc, hx, rfl⟩ := hu
    obtain ⟨hok, hn⟩ := decodeSym_consume_brOk h hd hc
    exact (h.with_br (consume_brOk hx hok (by omega)).1).with_res _
  | htDecodeAc t =>
    obtain ⟨sym, l, b, v, c, x, d, hd, hc, hx, rfl⟩ := hu
    obtain ⟨hok, hn⟩ := decodeSym_consume_brOk h hd hc
    exact (h.with_br (consume_brOk hx hok (by omega)).1).with_res _
  | htDump t =>
    obtain ⟨-, hin, rfl⟩ := hu
    exact (h.with_writeBytes (by rwa [lutBytes_length])).with_res _
  | idct =>
    obtain ⟨c, hin, -, rfl⟩ := hu
    exact h.with_lmem (Memory.wf_writeCells h.lmem_wf _)
      (Memory.below_writeCells h.lmem_below (blockCells_below (hin (s.opnd1 + 7 * s.opnd2, 8) (by simp))))
  | upsNone =>
    obtain ⟨row, hin, hr, rfl⟩ := hu
    have := hin (s.opnd3, s.opnd4) (by simp)
    exact h.with_writeBytes (by rwa [readBytes_length hr])
  | upsH =>
    obtain ⟨row, hin, hr, rfl⟩ := hu
    have := hin (s.opnd3, 2 * s.opnd4) (by simp)
    exact h.with_writeBytes (by rwa [hrow_length, readBytes_length hr])
  | upsV =>
    obtain ⟨c, n, f, hin, hr, rfl⟩ := hu
    obtain ⟨hc, hn, hf⟩ := readRows_eq_ok hr
    have := hin (s.opnd3, 2 * s.opnd4) (by simp)
    refine h.with_writeBytes ?_
    simp only [List.length_append, vrow_length, readBytes_length hc, readBytes_length hn, readBytes_length hf]
    omega
  | upsHv =>
    obtain ⟨c, n, f, hin, hr, rfl⟩ := hu
    obtain ⟨hc, hn, hf⟩ := readRows_eq_ok hr
    have := hin (s.opnd3, 4 * s.opnd4) (by simp)
    refine h.with_writeBytes ?_
    simp only [List.length_append, hrow_length, vrow_length, readBytes_length hc, readBytes_length hn,
      readBytes_length hf]
    omega
  | ccRgb => exact Converted.keeps_inv h hu fun _ _ _ => rfl
  | ccRgba => exact Converted.keeps_inv h hu fun _ _ _ => rfl
  | ccRgbx => exact Converted.keeps_inv h hu fun _ _ _ => rfl
  | ccGray =>
    obtain ⟨ys, hin, hr, rfl⟩ := hu
    have := hin (s.opnd3, s.opnd4) (by simp)
    exact h.with_writeBytes (by rwa [readBytes_length hr])
  | ccYcbcr => exact Converted.keeps_inv h hu fun _ _ _ => rfl

theorem exec_keeps_inv {i : Instr} {s t : State} (h : Inv s) (ht : exec i s = .next t) : Inv t := by
  rcases exec_next_cases ht with ⟨k, rfl⟩ | ⟨u, hu, rfl⟩
  · exact h.raiseError _ _
  · exact (effect_keeps_inv h hu).complete

theorem coreStep_keeps_inv {s t : State} (h : Inv s) (ht : coreStep s = .next t) : Inv t := by
  cases hd : decode s.pending with
  | ok i =>
    rw [coreStep_of_decode hd] at ht
    exact exec_keeps_inv h ht
  | error e =>
    rw [coreStep_of_illegal hd] at ht
    cases ht
    exact h.raiseError _ _

/-! ### Every host operation -/

/-- A naturally aligned access that begins in LMEM ends in LMEM: LMEM_SIZE is a multiple of its width. -/
theorem aligned_access_in_lmem {p : Params} (hp : ParamsOk p) (size : AccessSize) {a : Nat}
    (ha : a % size.bytes = 0) (hlt : a < p.lmemSize) : a + size.bytes ≤ p.lmemSize := by
  have h4 : 4 ∣ p.lmemSize := pow_dvd_pow 2 (show 2 ≤ p.lmemLog2 by have := hp.log2_lo; omega)
  cases size <;> simp only [AccessSize.bytes] at ha ⊢ <;> omega

theorem windowWrite_keeps_inv {s : State} (h : Inv s) (size : AccessSize) {a : Nat} (ha : a % size.bytes = 0)
    (w : Word) : Inv (windowWrite s a size.bytes w) := by
  rcases windowWrite_cases s a size.bytes w with ⟨-, he⟩ | ⟨hlt, he⟩
  · rwa [he]
  · rw [he]
    exact h.with_writeBytes (by rw [leBytes_length]; exact aligned_access_in_lmem h.params size ha hlt)

theorem writeReg_keeps_inv {s : State} (h : Inv s) (off : Nat) (w : Word) : Inv (writeReg off w s) := by
  rcases writeReg_cases off w s with ⟨-, he⟩ | ⟨-, he⟩ | ⟨-, he⟩ | ⟨a, he⟩ | he
  · rw [he]
    exact h.congr rfl rfl rfl rfl h.busy_done
  · rw [he, writeStatus_eq]
    exact h.congr rfl rfl rfl rfl fun hb => by simp [h.busy_done hb]
  · rw [he]
    rcases writeCmd_cases w s with ⟨-, hc⟩ | ⟨-, -, -, hc⟩ | ⟨-, -, hc⟩ <;> rw [hc]
    · exact h.congr rfl rfl rfl rfl h.busy_done
    · exact h.congr rfl rfl rfl rfl h.busy_done
    · exact h.congr rfl rfl rfl rfl fun _ => rfl
  · rw [he]
    exact h.congr rfl rfl rfl rfl h.busy_done
  · rwa [he]

theorem hostWrite_keeps_inv {size : AccessSize} {off : BitVec 17} {w : Word} {s t : State} (h : Inv s)
    (ht : hostWrite size off w s = .next t) : Inv t := by
  rcases hostWrite_next ht with ⟨-, rfl⟩ | ⟨-, -, ha, hwin, rfl⟩ | ⟨-, -, -, -, rfl⟩
  · exact h
  · refine windowWrite_keeps_inv h size ?_ w
    cases size <;> simp only [AccessSize.bytes, windowBase] at ha hwin ⊢ <;> omega
  · exact writeReg_keeps_inv h _ _

theorem runHostOp_keeps_inv {op : HostOp} {s t : State} (h : Inv s) (ht : runHostOp op s = .next t) : Inv t := by
  have hreset : Inv (resetBlock s) := (inv_resetWith h.params).congr rfl rfl rfl rfl fun hb => nomatch hb
  cases op with
  | write size off w => exact hostWrite_keeps_inv h ht
  | read size off =>
    obtain ⟨v, hv⟩ := hostRead_next ht
    rw [hv]
    exact h.congr rfl rfl rfl rfl h.busy_done
  | wait =>
    obtain ⟨c, l, hw, -⟩ := runHostOp_wait s
    rw [hw] at ht
    cases ht
    exact h.congr rfl rfl rfl rfl h.busy_done
  | assertReset =>
    cases ht
    exact hreset.congr rfl rfl rfl rfl fun hb => nomatch hb
  | releaseReset =>
    rw [runHostOp] at ht
    split at ht <;> cases ht
    · exact hreset
    · exact h

theorem hostStep_keeps_inv {s t : State} (h : Inv s) (ht : hostStep s = .next t) : Inv t := by
  cases hs : s.script with
  | nil =>
    rw [hostStep_of_nil hs] at ht
    cases ht
    exact h
  | cons op rest =>
    rw [hostStep_of_cons hs] at ht
    exact runHostOp_keeps_inv (s := { s with script := rest }) (h.congr rfl rfl rfl rfl h.busy_done) ht

/-! ### The statements -/

/-- Settles O21: the core's step keeps the invariant command by command, the host's operation by operation. -/
theorem everyStepKeepsTheInvariant : Obligations.EveryStepKeepsTheInvariant := by
  intro s t h ht
  cases hr : coreReady s with
  | true =>
    rw [step_of_ready hr] at ht
    exact coreStep_keeps_inv h ht
  | false =>
    rw [step_of_not_ready hr] at ht
    exact hostStep_keeps_inv (s := tick s) (h.congr rfl rfl rfl rfl h.busy_done) ht

/-- Settles O20, the base case of O21; the default parameters are in their ranges. -/
theorem invariantHoldsAtReset : Obligations.InvariantHoldsAtReset :=
  ⟨inv_resetWith ⟨by decide, by decide, by decide, by decide⟩, fun _ hp => inv_resetWith hp⟩

end Sys2Proof.Machine
end

section
/-! The register space: what a read returns, what a write leaves, and the values after reset. -/

namespace Sys2Proof.Machine

/-! ### Reading and writing one register -/

/-- A 32-bit read of an aligned register offset returns what the register reads. -/
theorem reads_register {s : State} {off : BitVec 17} {v : Word} (hr : s.inReset = false) (hoff : off.toNat < 0x10000)
    (ha : off.toNat % 4 = 0) (hv : (readReg off.toNat s).1 = v) : Reads s .word off v := by
  refine ⟨_, hostRead_register hr (inWindow_eq_false.2 hoff) ha, ?_⟩
  rw [logRead_readLog, readReg_frame, hv]

/-- While BUSY = 0 every register reads its value (R31 to R50). -/
theorem reads_regValue_idle {s : State} {off : BitVec 17} (hr : s.inReset = false) (hb : s.busy = false)
    (hoff : off.toNat < 0x10000) (ha : off.toNat % 4 = 0) : Reads s .word off (regValue s off.toNat) := by
  refine reads_register hr hoff ha ?_
  rw [readReg_plain hr fun h => by simp [hb] at h]

theorem openWhileBusy_of_lt {off : Nat} (h : off < 0x24) : openWhileBusy off = false := by
  rw [openWhileBusy, decide_eq_false (by omega), Bool.false_and]

theorem openWhileBusy_of_gt {off : Nat} (h : 0x48 < off) : openWhileBusy off = false := by
  rw [openWhileBusy, decide_eq_false (p := off ≤ 0x48) (by omega), Bool.and_false]

/-- A register that is not open while BUSY = 1 (R84) always reads its value. -/
theorem reads_regValue {s : State} {off : BitVec 17} (hr : s.inReset = false) (hoff : off.toNat < 0x10000)
    (ha : off.toNat % 4 = 0) (h8 : off.toNat ≠ 0x08) (hopen : openWhileBusy off.toNat = false) :
    Reads s .word off (regValue s off.toNat) := by
  refine reads_register hr hoff ha ?_
  rw [readReg_plain hr fun _ => ⟨h8, hopen⟩]

theorem hostWrite_writeReg {s : State} {off : BitVec 17} (w : Word) (hr : s.inReset = false)
    (hoff : off.toNat < 0x10000) (ha : off.toNat % 4 = 0) :
    hostWrite .word off w s = .next (writeReg off.toNat w s) :=
  hostWrite_register hr (inWindow_eq_false.2 hoff) ha

/-! ### STATUS -/

theorem flags_getLsbD (b : BitReader) :
    b.flags.getLsbD 0 = b.ended ∧ b.flags.getLsbD 1 = b.mfound ∧ b.flags.getLsbD 2 = b.overrun := by
  simp only [BitReader.flags, BitVec.getLsbD_append]
  simp

/-- The error fields of STATUS while ERR = 0 (R35). -/
theorem errFields_of_none {s : State} (h : s.err = none) : s.errCode = 0 ∧ s.errDetail = 0 ∧ s.errOpc = 0 := by
  simp [State.errCode, State.errDetail, State.errOpc, h]

/-- The error fields of STATUS while ERR = 1 (R35, R38). -/
theorem errFields_of_some {s : State} {e : ErrRecord} (h : s.err = some e) :
    s.errCode = e.kind.code ∧ s.errDetail = e.kind.detail ∧ s.errOpc = e.opc := by
  simp [State.errCode, State.errDetail, State.errOpc, h]

theorem cfgZero_toWord : Cfg.zero.toWord = 0 := by decide

/-- STATUS does not show the parameters. -/
theorem status_resetWith (p : Params) : (State.resetWith p).status = 0 := by
  show State.reset.status = 0
  decide

/-- Settles O12: the fields of STATUS are read off one by one; a write is `writeStatus`. -/
theorem statusReadsAndClears : Obligations.StatusReadsAndClears := by
  refine ⟨fun s hr => ?_, fun s w hr => ?_, status_resetWith _⟩
  · obtain ⟨f, t, hread, hf, -⟩ := readReg_status hr
    refine ⟨s.statusWith f, reads_register hr (by decide) (by decide) (congrArg Prod.fst hread),
      statusWith_busy s f, statusWith_done s f, statusWith_err s f, statusWith_irq s f, statusWith_backend s f,
      fun hb => ?_, statusWith_reserved s f, fun he => ?_, fun e he => ?_⟩
    · have hbit := statusWith_flags s f
      obtain ⟨h0, h1, h2⟩ := flags_getLsbD s.br
      rw [← hf hb] at h0 h1 h2
      exact ⟨(hbit 0 (by decide)).trans h0, (hbit 1 (by decide)).trans h1, (hbit 2 (by decide)).trans h2⟩
    · rw [statusWith_code, statusWith_detail, statusWith_opc]
      exact errFields_of_none he
    · rw [statusWith_code, statusWith_detail, statusWith_opc]
      exact errFields_of_some he
  · rw [hostWrite_writeReg w hr (by decide) (by decide)]
    exact congrArg Host.Outcome.next (writeStatus_eq w s)

/-! ### CFG and ARG0 to ARG4 -/

/-- A written CFG reads back without its reserved bits (R33). -/
theorem toWord_ofWord (w : Word) : (Cfg.ofWord w).toWord = w &&& 0x37 := by
  apply BitVec.eq_of_getLsbD_eq
  intro k hk
  simp only [Cfg.toWord, Cfg.ofWord, BitVec.getLsbD_append, BitVec.getLsbD_and]
  interval_cases k <;> simp

/-- ARG `k` of five operands. -/
def Args.reg (a : Args) (k : Nat) : Word := [a.arg0, a.arg1, a.arg2, a.arg3, a.arg4].getD k 0

theorem regValue_arg (s : State) {k : Nat} (hk : k < 5) : regValue s (0x10 + 4 * k) = s.args.reg k := by
  interval_cases k <;> rfl

/-- A write to ARG `k` sets that operand and leaves the other four (R42). -/
theorem writeReg_arg (s : State) (w : Word) {k : Nat} (hk : k < 5) :
    ∃ a : Args, writeReg (0x10 + 4 * k) w s = { s with args := a } ∧
      ∀ j, j < 5 → a.reg j = if j = k then w else s.args.reg j := by
  interval_cases k <;> refine ⟨_, rfl, fun j hj => ?_⟩ <;> interval_cases j <;> rfl

theorem argOffset_toNat {k : Nat} (hk : k < 5) : (BitVec.ofNat 17 (0x10 + 4 * k)).toNat = 0x10 + 4 * k := by
  rw [BitVec.toNat_ofNat]
  omega

theorem reads_arg {s : State} (hr : s.inReset = false) {k : Nat} (hk : k < 5) :
    Reads s .word (BitVec.ofNat 17 (0x10 + 4 * k)) (s.args.reg k) := by
  have h := reads_regValue (s := s) (off := BitVec.ofNat 17 (0x10 + 4 * k)) hr
  rw [argOffset_toNat hk, regValue_arg s hk] at h
  exact h (by omega) (by omega) (by omega) (openWhileBusy_of_lt (by omega))

/-- Settles O13: one write and the reads after it, for CFG and for each operand. -/
theorem cfgAndArgHoldWhatIsWritten : Obligations.CfgAndArgHoldWhatIsWritten := by
  intro s w hr
  refine ⟨⟨{ s with cfg := Cfg.ofWord w }, hostWrite_writeReg w hr (by decide) (by decide), rfl, rfl, rfl, rfl, rfl,
    rfl, ?_⟩, fun k hk => ?_⟩
  · rw [← toWord_ofWord]
    exact reads_regValue (s := { s with cfg := Cfg.ofWord w }) hr (by decide) (by decide) (by decide) (by decide)
  · obtain ⟨a, hw, ha⟩ := writeReg_arg s w hk
    have hoff := argOffset_toNat hk
    refine ⟨{ s with args := a }, ?_, rfl, fun j hj => ?_⟩
    · rw [hostWrite_writeReg w hr (by omega) (by omega), hoff, hw]
    · have hread := reads_arg (s := { s with args := a }) hr hj
      rw [show ({ s with args := a } : State).args.reg j = _ from ha j hj] at hread
      exact hread

/-! ### CMD, the results and the views -/

/-- CMD holds the word written, accepted or discarded (R41). -/
theorem writeCmd_cmd (w : Word) (s : State) : (writeCmd w s).cmd = w := by
  rcases writeCmd_cases w s with ⟨-, h⟩ | ⟨-, -, -, h⟩ | ⟨-, -, h⟩ <;> rw [h]

theorem writeCmd_inReset (w : Word) (s : State) : (writeCmd w s).inReset = s.inReset := by
  rcases writeCmd_cases w s with ⟨-, h⟩ | ⟨-, -, -, h⟩ | ⟨-, -, h⟩ <;> rw [h]

theorem reads_cmd {s : State} (hr : s.inReset = false) : Reads s .word 0x0C s.cmd :=
  reads_regValue hr (by decide) (by decide) (by decide) (by decide)

/-- Two fields side by side, as a number. -/
theorem toNat_append_eq_add {m n : Nat} (x : BitVec m) (y : BitVec n) :
    (x ++ y).toNat = x.toNat * 2 ^ n + y.toNat := by
  rw [BitVec.toNat_append, ← Nat.shiftLeft_add_eq_or_of_lt y.isLt, Nat.shiftLeft_eq]

/-- BR_BITS as a number (R45): the three counts fit their fields. -/
theorem bitsWord_toNat {b : BitReader} (hp : b.npad ≤ b.nbits) (hn : b.nbits ≤ 64) :
    b.bitsWord.toNat = b.nbits + 2 ^ 8 * b.npad + 2 ^ 16 * (b.nbits - b.npad) := by
  simp only [BitReader.bitsWord, toNat_append_eq_add, BitVec.toNat_ofNat]
  omega

/-- Bit `k` of HT_VALID is the validity of slot `k` (R48). -/
theorem htValid_getLsbD (s : State) {k : Nat} (hk : k < 8) : s.htValid.getLsbD k = s.ht[k].valid := by
  simp only [State.htValid, BitVec.getLsbD_append]
  interval_cases k <;> simp

theorem htValid_reserved (s : State) : s.htValid.extractLsb' 8 24 = 0 := by
  apply BitVec.eq_of_getLsbD_eq
  intro k hk
  simp only [State.htValid, BitVec.getLsbD_extractLsb', BitVec.getLsbD_append]
  interval_cases k <;> simp

/-- A field of a bit vector, as a number. -/
theorem extractLsb'_eq_ofNat_div (x : BitVec 64) (start : Nat) :
    x.extractLsb' start 32 = BitVec.ofNat 32 (x.toNat / 2 ^ start) := by
  rw [← Nat.shiftRight_eq_div_pow]
  rfl

/-- Settles O14: each view is one register of the register map. -/
theorem viewsShowTheHiddenState : Obligations.ViewsShowTheHiddenState := by
  refine ⟨fun s w hr => ⟨reads_cmd hr, writeCmd w s, hostWrite_writeReg w hr (by decide) (by decide), ?_⟩,
    fun s hr hb => ?_⟩
  · have h := reads_cmd (s := writeCmd w s) ((writeCmd_inReset w s).trans hr)
    rwa [writeCmd_cmd] at h
  · have view : ∀ off : BitVec 17, off.toNat < 0x10000 → off.toNat % 4 = 0 →
        Reads s .word off (regValue s off.toNat) := fun off => reads_regValue_idle hr hb
    refine ⟨view 0x24 (by decide) (by decide), view 0x28 (by decide) (by decide), view 0x2C (by decide) (by decide),
      view 0x30 (by decide) (by decide), view 0x34 (by decide) (by decide), fun hp hn => ?_,
      ?_, ?_, ?_, ?_⟩
    · exact ⟨_, view 0x38 (by decide) (by decide), bitsWord_toNat hp hn⟩
    · rw [BitVec.ofNat_toNat]
      exact view 0x3C (by decide) (by decide)
    · rw [← extractLsb'_eq_ofNat_div]
      exact view 0x40 (by decide) (by decide)
    · have hlow : BitVec.ofNat 32 (s.br.acc.toNat % 2 ^ 32) = s.br.acc.extractLsb' 0 32 := by
        rw [extractLsb'_eq_ofNat_div, pow_zero, Nat.div_one]
        exact BitVec.eq_of_toNat_eq (by simp)
      rw [hlow]
      exact view 0x44 (by decide) (by decide)
    · exact ⟨_, view 0x48 (by decide) (by decide), fun t => htValid_getLsbD s t.isLt, htValid_reserved s⟩

/-! ### ID, PARAM and the reserved offsets -/

/-- A reserved offset reads 0 (R50). -/
theorem regValue_reserved (s : State) {off : Nat} (h : 0x50 ≤ off) : regValue s off = 0 := by
  unfold regValue
  split
  case h_21 => rfl
  all_goals omega

/-- A write to a read-only or reserved register has no effect (R50). -/
theorem writeReg_readOnly (s : State) (w : Word) {off : Nat}
    (h : off ∉ [0x04, 0x08, 0x0C, 0x10, 0x14, 0x18, 0x1C, 0x20]) : writeReg off w s = s := by
  unfold writeReg
  split
  case h_9 => rfl
  all_goals simp at h

/-- PARAM as a number (R49): parameters in their ranges fit their fields. -/
theorem paramWord_toNat {p : Params} (hp : ParamsOk p) :
    (paramWord p).toNat = p.lmemLog2 + 2 ^ 5 * p.fastBits + 2 ^ 10 * p.parAvailable.toNat + 2 ^ 16 := by
  have h1 := hp.log2_hi
  have h2 := hp.fast_hi
  simp only [paramWord, toNat_append_eq_add, BitVec.toNat_ofNat, BitVec.toNat_ofBool]
  omega

theorem paramWord_fields {p : Params} (hp : ParamsOk p) :
    ((paramWord p).extractLsb' 0 5).toNat = p.lmemLog2 ∧ ((paramWord p).extractLsb' 5 5).toNat = p.fastBits ∧
      (paramWord p).getLsbD 10 = p.parAvailable ∧ (paramWord p).extractLsb' 11 5 = 0 ∧
      (paramWord p).extractLsb' 16 8 = 1 ∧ (paramWord p).extractLsb' 24 8 = 0 := by
  have h1 := hp.log2_hi
  have h2 := hp.fast_hi
  have h3 := p.parAvailable.toNat_le
  have hw := paramWord_toNat hp
  have hbit : (paramWord p).getLsbD 10 = p.parAvailable := by
    simp only [paramWord, BitVec.getLsbD_append]
    simp
  simp only [← BitVec.toNat_inj, BitVec.extractLsb'_toNat, Nat.shiftRight_eq_div_pow, hw, BitVec.ofNat_eq_ofNat, BitVec.toNat_ofNat, hbit,
    true_and]
  omega

/-- Settles O15: ID and PARAM by the register map, the other offsets by its last line. -/
theorem readOnlyAndReservedRegisters : Obligations.ReadOnlyAndReservedRegisters := by
  intro s hr
  refine ⟨reads_regValue hr (by decide) (by decide) (by decide) (by decide), fun hp => ?_, fun off hlo hhi ha => ?_,
    fun off w hhi ha hro => ?_⟩
  · exact ⟨_, reads_regValue hr (by decide) (by decide) (by decide) (by decide), paramWord_fields hp⟩
  · rw [← regValue_reserved s hlo]
    exact reads_regValue hr hhi ha (by omega) (openWhileBusy_of_gt (by omega))
  · rw [hostWrite_writeReg w hr hhi ha, writeReg_readOnly s w hro]

/-! ### After reset -/

/-- Settles O19: every value of R59 is the field's value in `State.resetWith`. -/
theorem resetLeavesTheBlockQuiet : Obligations.ResetLeavesTheBlockQuiet := by
  intro p
  refine ⟨rfl, rfl, rfl, cfgZero_toWord, status_resetWith p, rfl, rfl, rfl, rfl, rfl, rfl, rfl, rfl, rfl, rfl, rfl, rfl,
    fun t => ?_, rfl, fun _ => rfl⟩
  simp [State.slot, State.resetWith, HtSlot.invalid]

end Sys2Proof.Machine
end

section
/-! Steps and commands: acceptance, the command in flight, the recorded error, and the fields no command reads. -/

namespace Sys2Proof.Machine

/-! ### The core's turn and acceptance -/

/-- Settles O7: the core is ready, and its step runs the decoded command. -/
theorem stepRunsThePendingCommand : Obligations.StepRunsThePendingCommand := by
  intro s i hb hr hd hi
  rw [step_of_ready (coreReady_iff.2 ⟨hb, hr, hd⟩), coreStep_of_decode hi]

/-- The host's turn on a register write. -/
theorem step_register_write {s : State} {off : BitVec 17} {w : Word} {rest : List HostOp} (hc : coreReady s = false)
    (hr : s.inReset = false) (hs : s.script = .write .word off w :: rest) (hoff : off.toNat < 0x10000)
    (ha : off.toNat % 4 = 0) : step s = .next (writeReg off.toNat w { tick s with script := rest }) := by
  rw [step_of_not_ready hc, hostStep_of_cons (s := tick s) hs]
  exact hostWrite_register (s := { tick s with script := rest }) hr (inWindow_eq_false.2 hoff) ha

/-- Settles O9: of the three cases of a CMD write (R56), the premises leave acceptance. -/
theorem acceptanceLatchesTheCommand : Obligations.AcceptanceLatchesTheCommand := by
  intro s w rest hr hb hs hok
  have hc : coreReady s = false := by simp [coreReady, hb]
  refine ⟨Config.freeDelay s.freeCtr, ?_⟩
  rw [step_register_write hc hr hs (by decide) (by decide)]
  rcases writeCmd_cases w { tick s with script := rest } with ⟨h, -⟩ | ⟨-, he, ha, -⟩ | ⟨-, -, h⟩
  · exact absurd (hb.symm.trans h) (by decide)
  · rcases hok with hnone | hop
    · exact absurd ((congrArg Option.isSome hnone).symm.trans he) (by decide)
    · exact absurd (((acceptedInError_iff w).2 hop).symm.trans ha) (by decide)
  · exact congrArg Host.Outcome.next h

/-! ### The recorded error -/

/-- CORE_INIT apart, a command's rule writes only the results, the bit reader, the slots and LMEM (R106). -/
theorem effect_frame {i : Instr} {s u : State} (h : Effect i s u) :
    (i = .coreInit ∧ u = initCore s) ∨
    (i ≠ .coreInit ∧ ∃ r b x m, u = { s with res := r, br := b, ht := x, lmem := m }) := by
  cases i with
  | coreInit => exact .inl ⟨rfl, h⟩
  | nop => exact .inr ⟨nofun, _, _, _, _, h⟩
  | brInit =>
    obtain ⟨-, h⟩ := h
    exact .inr ⟨nofun, _, _, _, _, h⟩
  | brRefill =>
    obtain ⟨_, -, h⟩ := h
    exact .inr ⟨nofun, _, _, _, _, h⟩
  | brPeek n =>
    obtain ⟨-, h⟩ := h
    exact .inr ⟨nofun, _, _, _, _, h⟩
  | brGet n =>
    obtain ⟨-, _, _, -, h⟩ := h
    exact .inr ⟨nofun, _, _, _, _, h⟩
  | brHas n => exact .inr ⟨nofun, _, _, _, _, h⟩
  | brSkipMarker =>
    obtain ⟨r, -, h⟩ := h
    cases r <;> exact .inr ⟨nofun, _, _, _, _, h⟩
  | htBuild t =>
    obtain ⟨_, _, -, -, -, -, -, -, -, h⟩ := h
    exact .inr ⟨nofun, _, _, _, _, h⟩
  | htDecode t =>
    obtain ⟨_, _, _, _, _, -, -, h⟩ := h
    exact .inr ⟨nofun, _, _, _, _, h⟩
  | htDecodeDc t =>
    obtain ⟨_, _, _, _, _, _, _, -, -, -, -, h⟩ := h
    exact .inr ⟨nofun, _, _, _, _, h⟩
  | htDecodeAc t =>
    obtain ⟨_, _, _, _, _, _, _, -, -, -, h⟩ := h
    exact .inr ⟨nofun, _, _, _, _, h⟩
  | htDump t =>
    obtain ⟨-, -, h⟩ := h
    exact .inr ⟨nofun, _, _, _, _, h⟩
  | idct | upsNone | upsH | ccGray =>
    obtain ⟨_, -, -, h⟩ := h
    exact .inr ⟨nofun, _, _, _, _, h⟩
  | upsV | upsHv =>
    obtain ⟨_, _, _, -, -, h⟩ := h
    exact .inr ⟨nofun, _, _, _, _, h⟩
  | ccRgb | ccRgba | ccRgbx | ccYcbcr =>
    obtain ⟨_, _, _, -, -, -, -, h⟩ := h
    exact .inr ⟨nofun, _, _, _, _, h⟩

/-- The first error stays when another is raised (R38, R254). -/
theorem raiseError_err_of_some {opc : BitVec 8} {k : ErrKind} {s : State} {e : ErrRecord} (h : s.err = some e) :
    (raiseError opc k s).err = some e := by
  rw [raiseError_err, h]

/-- The core's step keeps a recorded error, unless it runs CORE_INIT, which clears it. -/
theorem coreStep_err {s t : State} {e : ErrRecord} (he : s.err = some e) (h : coreStep s = .next t) :
    t.err = some e ∨ (t.err = none ∧ decode s.pending = .ok .coreInit) := by
  cases hd : decode s.pending with
  | error x =>
    rw [coreStep_of_illegal hd] at h
    cases h
    exact .inl (raiseError_err_of_some he)
  | ok i =>
    rw [coreStep_of_decode hd] at h
    rcases exec_next_cases h with ⟨k, rfl⟩ | ⟨u, hu, rfl⟩
    · exact .inl (raiseError_err_of_some he)
    · rcases effect_frame hu with ⟨rfl, rfl⟩ | ⟨-, r, b, x, m, rfl⟩
      · exact .inr ⟨rfl, rfl⟩
      · exact .inl he

/-- Of the registers only STATUS clears a recorded error, by a 1 in bit [2] (R35, R38). -/
theorem writeReg_err {s : State} {e : ErrRecord} (he : s.err = some e) (off : Nat) (w : Word) :
    (writeReg off w s).err = some e ∨ ((writeReg off w s).err = none ∧ off = 0x08 ∧ w.getLsbD 2 = true) := by
  rcases writeReg_cases off w s with ⟨-, h⟩ | ⟨hoff, h⟩ | ⟨-, h⟩ | ⟨a, h⟩ | h <;> rw [h]
  · exact .inl he
  · rw [writeStatus_eq]
    cases hw : w.getLsbD 2 with
    | true => exact .inr ⟨rfl, hoff, rfl⟩
    | false => exact .inl he
  · rcases writeCmd_cases w s with ⟨-, hc⟩ | ⟨-, -, -, hc⟩ | ⟨-, -, hc⟩ <;> rw [hc]
    · exact .inl (by rw [he]; rfl)
    · exact .inl he
    · exact .inl he
  · exact .inl he
  · exact .inl he

theorem hostWrite_err {size : AccessSize} {off : BitVec 17} {w : Word} {s t : State} {e : ErrRecord}
    (he : s.err = some e) (h : hostWrite size off w s = .next t) :
    t.err = some e ∨ (t.err = none ∧ size = .word ∧ off = 0x08 ∧ w.getLsbD 2 = true) := by
  rcases hostWrite_next h with ⟨-, rfl⟩ | ⟨-, -, -, -, rfl⟩ | ⟨-, hsize, -, -, rfl⟩
  · exact .inl he
  · rcases windowWrite_cases s (off.toNat - windowBase) size.bytes w with ⟨-, hw⟩ | ⟨-, hw⟩ <;> rw [hw] <;>
      exact .inl he
  · rcases writeReg_err he off.toNat w with h1 | ⟨h1, h2, h3⟩
    · exact .inl h1
    · exact .inr ⟨h1, hsize, BitVec.eq_of_toNat_eq h2, h3⟩

/-- The host's ways of clearing a recorded error: a STATUS write with bit [2] set, and the reset input. -/
theorem runHostOp_err {op : HostOp} {s t : State} {e : ErrRecord} (he : s.err = some e)
    (h : runHostOp op s = .next t) :
    t.err = some e ∨ (t.err = none ∧
      ((∃ w, op = .write .word 0x08 w ∧ w.getLsbD 2 = true) ∨ op = .assertReset ∨ op = .releaseReset)) := by
  cases op with
  | write size off w =>
    rcases hostWrite_err he h with h1 | ⟨h1, rfl, rfl, h2⟩
    · exact .inl h1
    · exact .inr ⟨h1, .inl ⟨w, rfl, h2⟩⟩
  | read size off =>
    obtain ⟨v, hv⟩ := hostRead_next h
    exact .inl (by rw [hv]; exact he)
  | wait =>
    obtain ⟨c, l, hw, -⟩ := runHostOp_wait s
    rw [hw] at h
    cases h
    exact .inl he
  | assertReset =>
    cases h
    exact .inr ⟨rfl, .inr (.inl rfl)⟩
  | releaseReset =>
    rw [runHostOp] at h
    split at h <;> cases h
    · exact .inr ⟨rfl, .inr (.inr rfl)⟩
    · exact .inl he

/-- Settles O24: whose turn it is, and then what that turn does to the record. -/
theorem firstErrorIsSticky : Obligations.FirstErrorIsSticky := by
  intro s t e he h
  cases hc : coreReady s with
  | true =>
    rw [step_of_ready hc] at h
    exact (coreStep_err he h).imp_right fun ⟨h1, h2⟩ => ⟨h1, .inl ⟨rfl, h2⟩⟩
  | false =>
    rw [step_of_not_ready hc] at h
    cases hs : s.script with
    | nil =>
      rw [hostStep_of_nil (s := tick s) hs] at h
      cases h
      exact .inl he
    | cons op rest =>
      rw [hostStep_of_cons (s := tick s) hs] at h
      rcases runHostOp_err (s := { tick s with script := rest }) he h with h1 | ⟨h1, ⟨w, rfl, hw⟩ | rfl | rfl⟩
      · exact .inl h1
      · exact .inr ⟨h1, .inr (.inl ⟨rfl, w, rest, rfl, hw⟩)⟩
      · exact .inr ⟨h1, .inr (.inr ⟨rfl, rest, .inl rfl⟩)⟩
      · exact .inr ⟨h1, .inr (.inr ⟨rfl, rest, .inr rfl⟩)⟩

/-! ### The fields no command reads -/

/-- A change of fields that no command's rule reads: CFG, ARG, CMD and the backend latch, and FAST_BITS, which only
HT_DUMP reads. CORE_INIT writes the latch without reading it. -/
structure Unread where
  cfg : Cfg → Cfg
  args : Args → Args
  cmd : Word → Word
  backend : Bool → Bool
  fastBits : Nat → Nat

/-- The state with its unread fields changed. -/
def Unread.change (f : Unread) (s : State) : State :=
  { s with
    cfg := f.cfg s.cfg, args := f.args s.args, cmd := f.cmd s.cmd, backend := f.backend s.backend,
    params := { s.params with fastBits := f.fastBits s.params.fastBits } }

/-- The next state of an outcome changed, a fault or refusal kept. -/
def mapNext (f : State → State) : Outcome → Outcome
  | .next s => .next (f s)
  | .fault r => .fault r
  | .refused r => .refused r

/-- A store made in a changed state is the change of the store. -/
theorem store_change (f : Unread) (s : State) {m m' : Memory} (h : m' = m) :
    ({ f.change s with lmem := m' } : State) = f.change { s with lmem := m } := by
  subst h
  rfl

/-- If a rule's working copy changes with the state, the command's outcome does. -/
theorem commit_change (i : Instr) (f : Unread) (s : State) {x y : CmdM State} (h : y = x.map f.change) :
    commit i (f.change s) y = mapNext f.change (commit i s x) := by
  subst h
  match x with
  | .ok u => rfl
  | .error (.raise k) => rfl
  | .error (.fault g) => rfl

/-- A part of a rule that reads no changed field leaves the question to the rest of the rule. -/
theorem bind_change {α : Type} {f : State → State} (x : CmdM α) {g g' : α → CmdM State}
    (h : ∀ a, g' a = (g a).map f) : (x >>= g') = (x >>= g).map f := by
  cases x with
  | ok a => exact h a
  | error e => rfl

/-- Region checks read LMEM_SIZE and nothing else of the state. -/
theorem checkRegions_change (f : Unread) (s : State) (rs : List (Nat × Nat)) :
    checkRegions (f.change s) rs = checkRegions s rs := by
  induction rs with
  | nil => rfl
  | cons r rs ih =>
    rw [checkRegions, checkRegions, ih]
    rfl

theorem checkRegions_bind_change (f : Unread) (s : State) (rs : List (Nat × Nat)) {g g' : Unit → CmdM State}
    (h : ∀ a, g' a = (g a).map f.change) :
    (checkRegions (f.change s) rs >>= g') = (checkRegions s rs >>= g).map f.change := by
  rw [checkRegions_change]
  exact bind_change _ h

/-- The shape of the commands that check their regions, read once and store. -/
theorem checked_store_change {α : Type} (f : Unread) (s : State) (rs : List (Nat × Nat)) (x : CmdM α)
    (m : α → Memory) :
    (checkRegions (f.change s) rs >>= fun _ => x >>= fun a => pure { f.change s with lmem := m a }) =
      (checkRegions s rs >>= fun _ => x >>= fun a => pure { s with lmem := m a }).map f.change :=
  checkRegions_bind_change f s rs fun _ => bind_change x fun _ => congrArg Except.ok (store_change f s rfl)

theorem convert_change (i : Instr) (bpp : Nat) (pixel : Byte → Byte → Byte → List Byte) (f : Unread) (s : State) :
    convert i bpp pixel (f.change s) = (convert i bpp pixel s).map f.change :=
  checkRegions_bind_change f s _ fun _ => bind_change _ fun _ => bind_change _ fun _ => bind_change _ fun _ => rfl

/-- Every command does in the changed state what it does in the state: CORE_INIT as long as the backend latch is not
changed, HT_DUMP as long as FAST_BITS is not. -/
theorem exec_change (i : Instr) (f : Unread) (s : State) (hinit : i = .coreInit → f.backend = id)
    (hdump : (∃ t, i = .htDump t) → f.fastBits = id) :
    exec i (f.change s) = mapNext f.change (exec i s) := by
  cases i with
  | nop => rfl
  | coreInit =>
    obtain ⟨_, _, _, b, _⟩ := f
    obtain rfl : b = id := hinit rfl
    rfl
  | brInit => exact commit_change _ f s (bind_change _ fun _ => rfl)
  | brRefill => exact commit_change _ f s (bind_change _ fun _ => rfl)
  | brPeek n => exact commit_change _ f s (bind_change _ fun _ => rfl)
  | brGet n => exact commit_change _ f s (bind_change _ fun _ => bind_change _ fun _ => rfl)
  | brHas n => rfl
  | brSkipMarker => exact commit_change _ f s (bind_change _ fun r => by cases r <;> rfl)
  | htBuild t =>
    exact commit_change _ f s (bind_change _ fun _ => bind_change _ fun _ => bind_change _ fun _ =>
      bind_change _ fun _ => bind_change _ fun _ => bind_change _ fun _ => bind_change _ fun _ => rfl)
  | htDecode t => exact commit_change _ f s (bind_change _ fun _ => bind_change _ fun _ => rfl)
  | htDecodeDc t =>
    exact commit_change _ f s (bind_change _ fun _ => bind_change _ fun _ => bind_change _ fun _ =>
      bind_change _ fun _ => rfl)
  | htDecodeAc t =>
    exact commit_change _ f s (bind_change _ fun _ => bind_change _ fun _ => bind_change _ fun _ => rfl)
  | htDump t =>
    obtain ⟨_, _, _, _, k⟩ := f
    obtain rfl : k = id := hdump ⟨t, rfl⟩
    exact commit_change _ _ s (bind_change _ fun _ => bind_change _ fun _ => rfl)
  | idct => exact commit_change _ f s (checked_store_change f s _ _ _)
  | upsNone => exact commit_change _ f s (checked_store_change f s _ _ _)
  | upsH => exact commit_change _ f s (checked_store_change f s _ _ _)
  | upsV => exact commit_change _ f s (checked_store_change f s _ _ _)
  | upsHv => exact commit_change _ f s (checked_store_change f s _ _ _)
  | ccRgb => exact commit_change _ f s (convert_change _ _ _ f s)
  | ccRgba => exact commit_change _ f s (convert_change _ _ _ f s)
  | ccRgbx => exact commit_change _ f s (convert_change _ _ _ f s)
  | ccGray => exact commit_change _ f s (checked_store_change f s _ _ _)
  | ccYcbcr => exact commit_change _ f s (convert_change _ _ _ f s)

/-- CFG, ARG and CMD replaced, the rest kept. -/
def Unread.replaceRegisters (c : Cfg) (a : Args) (w : Word) : Unread :=
  { cfg := fun _ => c, args := fun _ => a, cmd := fun _ => w, backend := id, fastBits := id }

/-- Settles O30: CFG, ARG and CMD are unread fields, for every command. -/
theorem commandsReadOnlyTheSnapshot : Obligations.CommandsReadOnlyTheSnapshot := by
  intro i s c a w
  have h : exec i { s with cfg := c, args := a, cmd := w } =
      mapNext (Unread.replaceRegisters c a w).change (exec i s) :=
    exec_change i (Unread.replaceRegisters c a w) s (fun _ => rfl) (fun _ => rfl)
  exact ⟨fun t ht => by rw [h, ht]; rfl, fun g hg => by rw [h, hg]; rfl⟩

end Sys2Proof.Machine
end

section
/-! The host's accesses: which are refused, what the LMEM window stores and returns, and that a read has no side
effect. -/

namespace Sys2Proof.Machine

/-! ### Refusals -/

/-- The register space takes only 32-bit accesses at aligned offsets (R75). -/
theorem accessRefusal_registerAccess {size : AccessSize} {off : BitVec 17} {s : State} (hoff : off.toNat < 0x10000)
    (h : size ≠ .word ∨ off.toNat % 4 ≠ 0) : accessRefusal size off s = some .registerAccess := by
  simp only [accessRefusal, inWindow_eq_false.2 hoff, Bool.false_eq_true, if_false, if_pos h]

/-- The window takes only naturally aligned accesses, BUSY or not (R76). -/
theorem accessRefusal_misalignedWindow {size : AccessSize} {off : BitVec 17} {s : State} (hoff : 0x10000 ≤ off.toNat)
    (ha : off.toNat % size.bytes ≠ 0) : accessRefusal size off s = some .misalignedWindow := by
  simp only [accessRefusal, inWindow_eq_true.2 hoff, if_true, if_pos ha]

/-- The window takes no access while BUSY = 1 (R83). -/
theorem accessRefusal_windowWhileBusy {size : AccessSize} {off : BitVec 17} {s : State} (hoff : 0x10000 ≤ off.toNat)
    (ha : off.toNat % size.bytes = 0) (hb : s.busy = true) :
    accessRefusal size off s = some .windowWhileBusy := by
  simp only [accessRefusal, inWindow_eq_true.2 hoff, if_true, ne_eq, ha, not_true_eq_false, if_false, hb]

section Refused
variable {size : AccessSize} {off : BitVec 17} {s : State} {r : Refusal}

theorem hostWrite_refused (w : Word) (hr : s.inReset = false) (h : accessRefusal size off s = some r) :
    hostWrite size off w s = .refused r := by
  simp only [hostWrite, hr, Bool.false_eq_true, if_false, h]

theorem hostRead_refused (hr : s.inReset = false) (h : accessRefusal size off s = some r) :
    hostRead size off s = .refused r := by
  simp only [hostRead, hr, Bool.false_eq_true, if_false, h]

end Refused

/-- Settles O16: one clause for each refusal, and the equations of the register and window accesses for the rest. -/
theorem refusedHostAccesses : Obligations.RefusedHostAccesses := by
  intro s size off w hr
  refine ⟨fun hoff h => ?_, fun hoff ha => ?_, fun hoff ha hb => ?_, ?_⟩
  · have hx := accessRefusal_registerAccess (s := s) hoff h
    exact ⟨hostWrite_refused w hr hx, hostRead_refused hr hx⟩
  · have hx := accessRefusal_misalignedWindow (s := s) hoff ha
    exact ⟨hostWrite_refused w hr hx, hostRead_refused hr hx⟩
  · have hx := accessRefusal_windowWhileBusy hoff ha hb
    exact ⟨hostWrite_refused w hr hx, hostRead_refused hr hx⟩
  · rintro (⟨hoff, rfl, ha⟩ | ⟨hoff, ha, hb⟩)
    · have hwin := inWindow_eq_false.2 hoff
      exact ⟨⟨_, hostWrite_register hr hwin ha⟩, ⟨_, hostRead_register hr hwin ha⟩⟩
    · have hwin := inWindow_eq_true.2 hoff
      exact ⟨⟨_, hostWrite_window hr hwin ha hb⟩, ⟨_, hostRead_window hr hwin ha hb⟩⟩

/-! ### The LMEM window -/

/-- Byte `k` of a value stored little-endian. -/
theorem leBytes_getElem? {n k : Nat} (v : Nat) (hk : k < n) :
    (leBytes n v)[k]? = some (BitVec.ofNat 8 (v / 256 ^ k)) := by
  induction n generalizing v k with
  | zero => omega
  | succ n ih =>
    cases k with
    | zero => simp [leBytes]
    | succ k => rw [leBytes, List.getElem?_cons_succ, ih _ (by omega), Nat.div_div_eq_div_mul, ← Nat.pow_succ']

/-- Byte `k` of a word stored little-endian is bits `8k` to `8k + 7` (R71). -/
theorem leBytes_toNat_getElem? {n k : Nat} (w : Word) (hk : k < n) :
    (leBytes n w.toNat)[k]? = some (w.extractLsb' (8 * k) 8) := by
  rw [leBytes_getElem? _ hk, BitVec.extractLsb', Nat.shiftRight_eq_div_pow, Nat.pow_mul]

/-- Bytes that hold zero have the value zero. -/
theorem leValue_replicate_zero (n : Nat) : leValue (List.replicate n 0) = 0 := by
  induction n with
  | zero => rfl
  | succ n ih => rw [List.replicate_succ, leValue, ih]; rfl

theorem windowByte_of_read? {s : State} {a : Nat} {b : Byte} (ha : a < s.params.lmemSize)
    (h : s.lmem.read? a = some b) : windowByte s a = b := by
  rw [windowByte, if_neg (by omega), h]

/-- A window read of written bytes is their little-endian value (R71). -/
theorem windowValue_of_read? {s : State} {a : Nat} {bs : List Byte} (ha : a + bs.length ≤ s.params.lmemSize)
    (h : ∀ j, j < bs.length → s.lmem.read? (a + j) = bs[j]?) :
    windowValue s a bs.length = BitVec.ofNat 32 (leValue bs) := by
  have hbs : (List.range bs.length).map (fun j => windowByte s (a + j)) = bs := by
    refine List.ext_getElem (by simp) fun j _ hj => ?_
    rw [List.getElem_map, List.getElem_range,
      windowByte_of_read? (by omega) ((h j hj).trans (List.getElem?_eq_getElem hj))]
  rw [windowValue, hbs]

/-- From LMEM_SIZE up every byte of a window read is 0 (R76). -/
theorem windowValue_outside {s : State} {a : Nat} (n : Nat) (ha : s.params.lmemSize ≤ a) : windowValue s a n = 0 := by
  have hzero : (List.range n).map (fun j => windowByte s (a + j)) = List.replicate n 0 :=
    List.eq_replicate_iff.2 ⟨by simp, fun b hb => by
      obtain ⟨j, -, rfl⟩ := List.mem_map.1 hb
      exact if_pos (by omega)⟩
  rw [windowValue, hzero, leValue_replicate_zero]
  rfl

/-- A window read of what a window write has just stored returns the value's low bytes (R71). -/
theorem windowValue_windowWrite {s : State} {a n : Nat} (w : Word) (ha : a + n ≤ s.params.lmemSize) :
    windowValue { s with lmem := s.lmem.writeBytes a (leBytes n w.toNat) } a n =
      BitVec.ofNat 32 (w.toNat % 2 ^ (8 * n)) := by
  have hread := windowValue_of_read? (s := { s with lmem := s.lmem.writeBytes a (leBytes n w.toNat) })
    (bs := leBytes n w.toNat) (by rwa [leBytes_length]) (fun _ hj => Memory.read?_writeBytes_inside s.lmem hj)
  rwa [leBytes_length, leValue_leBytes, show 256 ^ n = 2 ^ (8 * n) from (Nat.pow_mul 2 8 n).symm] at hread

/-- An aligned window read with the block idle returns the window's value. -/
theorem reads_window {s : State} {size : AccessSize} {off : BitVec 17} (hr : s.inReset = false)
    (hoff : 0x10000 ≤ off.toNat) (ha : off.toNat % size.bytes = 0) (hb : s.busy = false) :
    Reads s size off (windowValue s (off.toNat - 0x10000) size.bytes) :=
  ⟨_, hostRead_window hr (inWindow_eq_true.2 hoff) ha hb, rfl⟩

/-- The window starts at a multiple of every access width, so an aligned offset is an aligned LMEM address. -/
theorem window_address_aligned {size : AccessSize} {off : Nat} (hoff : 0x10000 ≤ off) (ha : off % size.bytes = 0) :
    (off - 0x10000) % size.bytes = 0 := by
  cases size <;> simp only [AccessSize.bytes] at ha ⊢ <;> omega

/-- Settles O17: alignment puts the whole access on one side of LMEM_SIZE; below it the bytes stored are those of
`leBytes`, and above it neither access reaches LMEM. -/
theorem windowStoresLittleEndian : Obligations.WindowStoresLittleEndian := by
  intro s size off w hr hb hp hoff ha a
  have hwrite : hostWrite size off w s = .next (windowWrite s a size.bytes w) :=
    hostWrite_window hr (inWindow_eq_true.2 hoff) ha hb
  rcases windowWrite_cases s a size.bytes w with ⟨hout, hw⟩ | ⟨hin, hw⟩ <;> rw [hw] at hwrite
  · refine ⟨fun h => absurd h (by omega), fun _ => ⟨hwrite, ?_⟩⟩
    rw [← windowValue_outside size.bytes hout]
    exact reads_window hr hoff ha hb
  · have hend : a + size.bytes ≤ s.params.lmemSize :=
      aligned_access_in_lmem hp size (window_address_aligned hoff ha) hin
    refine ⟨fun _ => ⟨_, hwrite, rfl, fun k hk => ?_, fun x hx => ?_, ?_⟩, fun h => absurd h (by omega)⟩
    · exact (Memory.read?_writeBytes_inside s.lmem (by rwa [leBytes_length])).trans (leBytes_toNat_getElem? w hk)
    · exact Memory.read?_writeBytes_outside s.lmem (by rwa [leBytes_length])
    · rw [← windowValue_windowWrite w hend]
      exact reads_window hr hoff ha hb

/-- Settles O18, the frame of every host read that is not refused (R79). -/
theorem hostReadsHaveNoSideEffect : Obligations.HostReadsHaveNoSideEffect :=
  fun _ _ _ _ h => hostRead_next h

end Sys2Proof.Machine
end

section
/-! LMEM under the commands: the region check that comes first, and the bytes a command stores to. -/

namespace Sys2Proof.Machine

/-! ### Regions out of LMEM -/

theorem raiseError_eq_failed (opc : BitVec 8) (k : ErrKind) (s : State) : raiseError opc k s = failed s opc k := by
  rw [raiseError, recordError_eq]
  rfl

/-- The command's rule checks these regions before anything else (R258). -/
def ChecksFirst (i : Instr) (s : State) (rs : List (Nat × Nat)) : Prop :=
  ∃ f, exec i s = commit i s (checkRegions s rs >>= f)

/-- A region out of LMEM, wherever it stands among those checked first, ends the command in ADDRESS_FAULT. -/
theorem ChecksFirst.addressFault {i : Instr} {s : State} {rs : List (Nat × Nat)} {r : Nat × Nat}
    (h : ChecksFirst i s rs) (hr : r ∈ rs) (hout : s.params.lmemSize < r.1 + r.2) :
    exec i s = .next (failed s i.opcode .addressFault) := by
  obtain ⟨f, hf⟩ := h
  rw [hf, checkRegions_of_out hr hout, raise_bind, commit_raise, raiseError_eq_failed]

/-- BR_INIT's one check is a check of one region. -/
theorem brInit_checksFirst (s : State) : ChecksFirst .brInit s [(s.opnd0, s.opnd1)] := by
  refine ⟨fun _ => .ok { s with br := segmentAt s.opnd0 s.opnd1 }, ?_⟩
  rw [exec, execBrInit, checkRegions]
  cases s.inRange s.opnd0 s.opnd1 <;> rfl

/-- Settles O26: each of the commands checks its regions first, over unbounded integers. -/
theorem regionsOutsideLmemAreAddressFaults : Obligations.RegionsOutsideLmemAreAddressFaults := by
  intro s i regions r a0 a1 a2 a3 a4 hi hr hout
  have hfirst : ChecksFirst i s regions := by
    simp only [List.mem_cons, Prod.mk.injEq, List.not_mem_nil, or_false] at hi
    rcases hi with ⟨rfl, rfl⟩ | ⟨rfl, rfl⟩ | ⟨rfl, rfl⟩ | ⟨rfl, rfl⟩ | ⟨rfl, rfl⟩ | ⟨rfl, rfl⟩ | ⟨rfl, rfl⟩ |
      ⟨rfl, rfl⟩ | ⟨rfl, rfl⟩ | ⟨rfl, rfl⟩ | ⟨rfl, rfl⟩
    · exact brInit_checksFirst s
    all_goals exact ⟨_, rfl⟩
  exact ⟨hfirst.addressFault hr hout, rfl, rfl⟩

/-! ### The bytes a command stores to -/

/-- Bytes stored from `a` on leave what lies outside their region. -/
theorem Memory.read?_writeBytes_of_not_region (m : Memory) {a n x : Nat} {bs : List Byte} (hn : bs.length = n)
    (hx : ¬ (a ≤ x ∧ x < a + n)) : (m.writeBytes a bs).read? x = m.read? x :=
  Memory.read?_writeBytes_outside m (by omega)

theorem Converted.lmem_outside {i : Instr} {bpp : Nat} {pixel : Byte → Byte → Byte → List Byte} {s u : State} {x : Nat}
    (hu : Converted i bpp pixel s u) (hp : ∀ a b c, (pixel a b c).length = bpp)
    (hx : ¬ (s.opnd3 ≤ x ∧ x < s.opnd3 + bpp * s.opnd4)) : u.lmem.read? x = s.lmem.read? x := by
  obtain ⟨bs, hl, -, rfl⟩ := hu.output hp
  exact Memory.read?_writeBytes_of_not_region _ hl hx

/-- The block's cells lie in its eight rows (R190). -/
theorem blockCells_row {oa st : Nat} {o : List Byte} {c : Host.Cell} (h : c ∈ blockCells oa st o) :
    ∃ r, r < 8 ∧ oa + r * st ≤ c.1 ∧ c.1 < oa + r * st + 8 := by
  obtain ⟨k, hk, rfl⟩ := mem_blockCells h
  exact ⟨k / 8, by omega, by simp only; omega, by simp only; omega⟩

/-- A block stored leaves what lies outside its eight rows. -/
theorem Memory.read?_blockCells_of_not_row (m : Memory) {oa st x : Nat} (o : List Byte)
    (hx : ¬ ∃ r, r < 8 ∧ oa + r * st ≤ x ∧ x < oa + r * st + 8) :
    (m.writeCells (blockCells oa st o)).read? x = m.read? x := by
  refine Memory.read?_writeCells_of_notMem (fun c hc hcx => hx ?_) m
  subst hcx
  exact blockCells_row hc

/-- What a command commits agrees with LMEM outside its output bytes. -/
theorem effect_lmem_outside {i : Instr} {s u : State} {x : Nat} (hu : Effect i s u) (hx : ¬ outputByte i s x) :
    u.lmem.read? x = s.lmem.read? x := by
  cases i with
  | nop | coreInit | brHas => subst hu; rfl
  | brInit | brPeek => obtain ⟨-, rfl⟩ := hu; rfl
  | brRefill => obtain ⟨_, -, rfl⟩ := hu; rfl
  | brGet => obtain ⟨-, _, _, -, rfl⟩ := hu; rfl
  | brSkipMarker => obtain ⟨r, -, rfl⟩ := hu; cases r <;> rfl
  | htBuild => obtain ⟨_, _, -, -, -, -, -, -, -, rfl⟩ := hu; rfl
  | htDecode => obtain ⟨_, _, _, _, _, -, -, rfl⟩ := hu; rfl
  | htDecodeDc => obtain ⟨_, _, _, _, _, _, _, -, -, -, -, rfl⟩ := hu; rfl
  | htDecodeAc => obtain ⟨_, _, _, _, _, _, _, -, -, -, rfl⟩ := hu; rfl
  | htDump t =>
    obtain ⟨-, -, rfl⟩ := hu
    exact Memory.read?_writeBytes_of_not_region _ (lutBytes_length _ _) hx
  | idct =>
    obtain ⟨_, -, -, rfl⟩ := hu
    rw [Memory.read?_blockCells_of_not_row]
    exact hx
  | upsNone | ccGray =>
    obtain ⟨row, -, hr, rfl⟩ := hu
    exact Memory.read?_writeBytes_of_not_region _ (readBytes_length hr) hx
  | upsH =>
    obtain ⟨row, -, hr, rfl⟩ := hu
    exact Memory.read?_writeBytes_of_not_region _ (by rw [hrow_length, readBytes_length hr]) hx
  | upsV =>
    obtain ⟨c, n, f, -, hr, rfl⟩ := hu
    obtain ⟨hc, hn, hf⟩ := readRows_eq_ok hr
    refine Memory.read?_writeBytes_of_not_region _ ?_ hx
    simp only [List.length_append, vrow_length, readBytes_length hc, readBytes_length hn, readBytes_length hf]
    omega
  | upsHv =>
    obtain ⟨c, n, f, -, hr, rfl⟩ := hu
    obtain ⟨hc, hn, hf⟩ := readRows_eq_ok hr
    refine Memory.read?_writeBytes_of_not_region _ ?_ hx
    simp only [List.length_append, hrow_length, vrow_length, readBytes_length hc, readBytes_length hn,
      readBytes_length hf]
    omega
  | ccRgb | ccRgba | ccRgbx | ccYcbcr => exact Converted.lmem_outside hu (fun _ _ _ => rfl) hx

/-- Settles O29: an error changes no LMEM byte, and a committed working copy only output bytes. -/
theorem commandsStoreOnlyToTheirOutput : Obligations.CommandsStoreOnlyToTheirOutput := by
  intro i s t x ht hx
  rcases exec_next_cases ht with ⟨k, rfl⟩ | ⟨u, hu, rfl⟩
  · rw [raiseError_lmem]
  · rw [complete_lmem]
    exact effect_lmem_outside hu hx

end Sys2Proof.Machine
end

section
/-! Decoding and encoding: the word of a command and its fields, and the words that are no command with the error they
raise. -/

namespace Sys2Proof

/-! ### The word of a command -/

theorem encode_toNat (i : Instr) : (encode i).toNat = 256 * i.fieldByte.toNat + i.opcode.toNat := by
  have h : (encode i).toNat = _ := Machine.toNat_append_eq_add 0#16 (i.fieldByte ++ i.opcode)
  rw [h, Machine.toNat_append_eq_add, BitVec.toNat_ofNat]
  omega

@[simp] theorem opcodeByte_encode (i : Instr) : opcodeByte (encode i) = i.opcode := by
  have := i.opcode.isLt
  apply BitVec.eq_of_toNat_eq
  rw [Machine.opcodeByte_toNat, encode_toNat]
  omega

/-- The bits from `k` up are zero just when the word is below 2^k. -/
theorem extractLsb'_high_eq_zero {w : Word} {k n : Nat} (hk : k + n = 32) :
    w.extractLsb' k n = 0 ↔ w.toNat / 2 ^ k = 0 := by
  have hw : w.toNat / 2 ^ k < 2 ^ n := Nat.div_lt_of_lt_mul (by rw [← Nat.pow_add, hk]; exact w.isLt)
  rw [← BitVec.toNat_inj, BitVec.extractLsb'_toNat, Nat.shiftRight_eq_div_pow, Nat.mod_eq_of_lt hw]
  rfl

/-- The low `n` bits of the field byte, read from the word. -/
theorem extractLsb'_encode_field {i : Instr} {n : Nat} {f : BitVec n} (hn : n ≤ 8) (hf : i.fieldByte = f.setWidth 8) :
    (encode i).extractLsb' 8 n = f := by
  have ho := i.opcode.isLt
  have hlt : f.toNat < 2 ^ 8 := f.isLt.trans_le (Nat.pow_le_pow_right (by decide) hn)
  apply BitVec.eq_of_toNat_eq
  rw [BitVec.extractLsb'_toNat, Nat.shiftRight_eq_div_pow, encode_toNat, hf, BitVec.toNat_setWidth, Nat.mod_eq_of_lt hlt,
    show (256 * f.toNat + i.opcode.toNat) / 2 ^ 8 = f.toNat by omega, Nat.mod_eq_of_lt f.isLt]

/-- A field of `n` bits leaves the bits from `8 + n` up zero. -/
theorem encode_high_eq_zero {i : Instr} {n : Nat} {f : BitVec n} (hf : i.fieldByte = f.setWidth 8) :
    (encode i).toNat / 2 ^ (8 + n) = 0 := by
  have ho := i.opcode.isLt
  have hle : i.fieldByte.toNat ≤ f.toNat := by
    rw [hf, BitVec.toNat_setWidth]
    exact Nat.mod_le _ _
  have := f.isLt
  rw [Nat.div_eq_of_lt]
  rw [encode_toNat, Nat.pow_add]
  omega

/-! ### Decoding, once the row of the opcode is known -/

theorem decode_of_lookup {w : Word} {x : OpShape} (h : opcodeMap.lookup (opcodeByte w) = some x) :
    decode w = decodeShape w x := by
  rw [decode, h]

theorem decode_of_lookup_none {w : Word} (h : opcodeMap.lookup (opcodeByte w) = none) :
    decode w = .error .unassignedOpcode := by
  rw [decode, h]

/-- A row of format N (R92) reads back its command. -/
theorem decode_encode_n {i : Instr} (h : opcodeMap.lookup i.opcode = some (.n i)) : decode (encode i) = .ok i := by
  obtain ⟨-, hf, -⟩ := row_of_mem_opcodeMap (mem_opcodeMap_of_lookup h)
  have hres : (encode i).extractLsb' 8 24 = 0 :=
    (extractLsb'_high_eq_zero rfl).2 (encode_high_eq_zero (n := 0) (f := 0#0) hf)
  rw [decode_of_lookup (by rwa [opcodeByte_encode]), decodeShape, if_pos hres]

/-- A row of format T (R93) reads back its command, for every slot. -/
theorem decode_encode_t {make : BitVec 3 → Instr} {t : BitVec 3}
    (h : opcodeMap.lookup (make t).opcode = some (.t make)) : decode (encode (make t)) = .ok (make t) := by
  obtain ⟨-, hf, -⟩ := row_of_mem_opcodeMap (mem_opcodeMap_of_lookup h) t
  have hres : (encode (make t)).extractLsb' 11 21 = 0 := (extractLsb'_high_eq_zero rfl).2 (encode_high_eq_zero hf)
  rw [decode_of_lookup (by rwa [opcodeByte_encode]), decodeShape, if_pos hres, extractLsb'_encode_field (by decide) hf]

/-- A row of format B (R94) reads back its command up to the bit count 32, and refuses a larger count (R101). -/
theorem decode_encode_b {make : BitVec 6 → Instr} {n : BitVec 6}
    (h : opcodeMap.lookup (make n).opcode = some (.b make)) :
    decode (encode (make n)) = if 32 < n.toNat then .error .badCount else .ok (make n) := by
  obtain ⟨-, hf, -⟩ := row_of_mem_opcodeMap (mem_opcodeMap_of_lookup h) n
  have hres : (encode (make n)).extractLsb' 14 18 = 0 := (extractLsb'_high_eq_zero rfl).2 (encode_high_eq_zero hf)
  rw [decode_of_lookup (by rwa [opcodeByte_encode]), decodeShape, if_neg (not_not_intro hres),
    extractLsb'_encode_field (by decide) hf]

theorem decode_encode_b_ok {make : BitVec 6 → Instr} {n : BitVec 6}
    (h : opcodeMap.lookup (make n).opcode = some (.b make)) (hn : n.toNat ≤ 32) :
    decode (encode (make n)) = .ok (make n) := by
  rw [decode_encode_b h, if_neg (by omega)]

/-- Settles O1: each command's opcode finds the row of its format, and the row reads the field back. -/
theorem decodeOfEncodeGivesTheCommand : Obligations.DecodeOfEncodeGivesTheCommand := by
  intro i hi
  cases i with
  | brPeek n | brGet n | brHas n => exact decode_encode_b_ok rfl (of_decide_eq_true hi)
  | htBuild t | htDecode t | htDecodeDc t | htDecodeAc t | htDump t => exact decode_encode_t rfl
  | _ => exact decode_encode_n rfl

/-- Settles O2: in each format the reserved bits are zero, so the opcode byte and the field are the whole word. -/
theorem decodableWordIsTheEncoding : Obligations.DecodableWordIsTheEncoding := by
  intro w i h
  obtain ⟨x, hm, hs⟩ := decode_ok h
  have hrow := row_of_mem_opcodeMap hm
  cases x with
  | n j =>
    obtain ⟨rfl, hres⟩ := decodeShape_n hs
    obtain ⟨ho, hf, hwf⟩ := hrow
    exact ⟨hwf, by rw [encode, ho, hf]; exact (word_of_fields_n hres).symm⟩
  | t make =>
    obtain ⟨rfl, hres⟩ := decodeShape_t hs
    obtain ⟨ho, hf, hwf⟩ := hrow (w.extractLsb' 8 3)
    exact ⟨hwf, by rw [encode, ho, hf]; exact (word_of_fields_t hres).symm⟩
  | b make =>
    obtain ⟨rfl, hres, hn⟩ := decodeShape_b hs
    obtain ⟨ho, hf, hwf⟩ := hrow (w.extractLsb' 8 6)
    exact ⟨hwf.2 hn, by rw [encode, ho, hf]; exact (word_of_fields_b hres).symm⟩

/-- Settles O3: three closed words, evaluated. -/
theorem workedWordsDecode : Obligations.WorkedWordsDecode := by
  unfold Obligations.WorkedWordsDecode
  decide

/-! ### Reserved bits -/

/-- The lowest reserved bit of the format (R92 to R94); the reserved bits are all those from it up. -/
def OpShape.reservedFrom : OpShape → Nat
  | .n _ => 8
  | .t _ => 11
  | .b _ => 14

/-- A reserved bit that is not zero is met before the bit count is looked at (R95, R99). -/
theorem decodeShape_reservedBits {w : Word} {x : OpShape} (h : w.toNat / 2 ^ x.reservedFrom ≠ 0) :
    decodeShape w x = .error .reservedBits := by
  cases x with
  | n i => exact if_neg (mt (extractLsb'_high_eq_zero rfl).1 h)
  | t make => exact if_neg (mt (extractLsb'_high_eq_zero rfl).1 h)
  | b make => exact if_pos (mt (extractLsb'_high_eq_zero rfl).1 h)

/-- The opcodes of formats T, B and N, by the lowest reserved bit (R92 to R94, R96). -/
theorem opcodes_by_format :
    (∀ k ∈ [0x20, 0x21, 0x22, 0x23, 0x24],
      (opcodeMap.lookup (BitVec.ofNat 8 k)).map OpShape.reservedFrom = some 11) ∧
    (∀ k ∈ [0x12, 0x13, 0x14], (opcodeMap.lookup (BitVec.ofNat 8 k)).map OpShape.reservedFrom = some 14) ∧
    (∀ k ∈ [0x00, 0x01, 0x10, 0x11, 0x15, 0x30, 0x40, 0x41, 0x42, 0x43, 0x50, 0x51, 0x52, 0x53, 0x54],
      (opcodeMap.lookup (BitVec.ofNat 8 k)).map OpShape.reservedFrom = some 8) := by
  decide

theorem decode_reservedBits {w : Word} {r : Nat}
    (h : (opcodeMap.lookup (BitVec.ofNat 8 (w.toNat % 256))).map OpShape.reservedFrom = some r)
    (hw : w.toNat / 2 ^ r ≠ 0) : decode w = .error .reservedBits := by
  obtain ⟨x, hx, rfl⟩ := Option.map_eq_some_iff.1 h
  rw [decode_of_lookup (by rwa [Machine.opcodeByte_eq]), decodeShape_reservedBits hw]

end Sys2Proof

namespace Sys2Proof.Machine

/-! ### The core's step on a word that is no command -/

/-- The core's step on an illegal word records its error with the opcode byte of the word, and ends the command (R253). -/
theorem step_of_illegal {s : State} {e : IllegalWord} (hb : s.busy = true) (hr : s.inReset = false)
    (hd : s.delay = 0) (h : decode s.pending = .error e) :
    step s = .next (failed s (opcodeByte s.pending) (illegalKind e)) := by
  rw [step_of_ready (coreReady_iff.2 ⟨hb, hr, hd⟩), coreStep_of_illegal h, raiseError_eq_failed]

/-- Settles O4: the six ranges leave out every opcode of the map. -/
theorem unassignedOpcodeIsIllegalCommandZero : Obligations.UnassignedOpcodeIsIllegalCommandZero := by
  intro s hb hr hd opc hopc
  have hnone : opcodeMap.lookup (opcodeByte s.pending) = none := by
    rw [lookup_opcodeMap_eq_none]
    simp only [List.mem_cons, List.not_mem_nil, or_false, ← BitVec.toNat_inj, opcodeByte_toNat,
      BitVec.ofNat_eq_ofNat, BitVec.toNat_ofNat]
    omega
  refine ⟨?_, rfl, rfl⟩
  rw [step_of_illegal hb hr hd (decode_of_lookup_none hnone), opcodeByte_eq]
  rfl

/-- Settles O5: the opcode's row names the format, and the format's reserved bits are looked at first. -/
theorem reservedBitsAreIllegalCommandOne : Obligations.ReservedBitsAreIllegalCommandOne := by
  intro s hb hr hd w opc h
  obtain ⟨hslot, hcount, hplain⟩ := opcodes_by_format
  have hdec : decode s.pending = .error .reservedBits := by
    rcases h with ⟨hmem, hw⟩ | ⟨hmem, hw⟩ | ⟨hmem, hw⟩
    · exact decode_reservedBits (hslot _ hmem) hw
    · exact decode_reservedBits (hcount _ hmem) hw
    · exact decode_reservedBits (hplain _ hmem) hw
  refine ⟨?_, rfl, rfl⟩
  rw [step_of_illegal hb hr hd hdec, opcodeByte_eq]
  rfl

/-- A format-B word with its reserved bits zero is the word of the command in its row. -/
theorem word_b_eq_encode {i : Instr} {n : BitVec 6} (h : i.fieldByte = n.setWidth 8) :
    0#18 ++ (n ++ i.opcode) = encode i := by
  have hlt := n.isLt
  apply BitVec.eq_of_toNat_eq
  rw [encode_toNat, h, BitVec.toNat_setWidth, toNat_append_eq_add, toNat_append_eq_add, BitVec.toNat_ofNat]
  omega

/-- Settles O6: the pending word is the word of the command with that count, which decodes up to 32 (R101). -/
theorem bitCountsUpToThirtyTwo : Obligations.BitCountsUpToThirtyTwo := by
  intro s n opc make hmem hb hr hd hw
  obtain ⟨hop, hf, hl⟩ : (make n).opcode = opc ∧ (make n).fieldByte = n.setWidth 8 ∧
      opcodeMap.lookup (make n).opcode = some (.b make) := by
    simp only [List.mem_cons, Prod.mk.injEq, List.not_mem_nil, or_false] at hmem
    rcases hmem with ⟨rfl, rfl⟩ | ⟨rfl, rfl⟩ | ⟨rfl, rfl⟩ <;> exact ⟨rfl, rfl, rfl⟩
  subst hop
  rw [word_b_eq_encode hf] at hw
  refine ⟨fun hn => ?_, fun hn => ⟨?_, rfl, rfl⟩⟩
  · have hdec : decode s.pending = .ok (make n) := by rw [hw, decode_encode_b_ok hl hn]
    exact ⟨hdec, stepRunsThePendingCommand s _ hb hr hd hdec⟩
  · have hdec : decode s.pending = .error .badCount := by rw [hw, decode_encode_b hl, if_pos (by omega)]
    rw [step_of_illegal hb hr hd hdec, hw, opcodeByte_encode]
    rfl

end Sys2Proof.Machine
end

section
/-! The register frame of every command: which fields the working copy of its rule may differ in. -/

namespace Sys2Proof.Machine

/-- `u` differs from `s` only in the fields that the rule of `i` writes: the table of R106 for the results, and BR, the
slots and LMEM as the sections of the commands name them. -/
def WritesOnlyNamed (i : Instr) (s u : State) : Prop :=
  match i with
  | .nop => u = s
  | .coreInit => u = initCore s
  | .brInit | .brRefill => ∃ b, u = { s with br := b }
  | .brPeek _ | .brHas _ => ∃ x, u = s.setRes0 x
  | .brGet _ => ∃ b x, u = { s with br := b }.setRes0 x
  | .brSkipMarker | .htDecode _ | .htDecodeDc _ => ∃ b x y, u = { s with br := b }.setRes01 x y
  | .htDecodeAc _ => ∃ b x y z, u = { s with br := b }.setRes012 x y z
  | .htBuild t => ∃ h x y, u = (s.setSlot t h).setRes01 x y
  | .htDump _ => ∃ m x, u = { s with lmem := m }.setRes0 x
  | .idct | .upsNone | .upsH | .upsV | .upsHv | .ccRgb | .ccRgba | .ccRgbx | .ccGray | .ccYcbcr =>
    ∃ m, u = { s with lmem := m }

/-- The working copy of every command is of that form. -/
theorem effect_writesOnlyNamed {i : Instr} {s u : State} (hu : Effect i s u) : WritesOnlyNamed i s u := by
  cases i with
  | nop | coreInit => exact hu
  | brHas => exact ⟨_, hu⟩
  | brInit | brPeek => exact ⟨_, hu.2⟩
  | brRefill => obtain ⟨_, -, h⟩ := hu; exact ⟨_, h⟩
  | brGet => obtain ⟨-, _, _, -, h⟩ := hu; exact ⟨_, _, h⟩
  | brSkipMarker => obtain ⟨r, -, h⟩ := hu; cases r <;> exact ⟨_, _, _, h⟩
  | htBuild => obtain ⟨_, _, -, -, -, -, -, -, -, h⟩ := hu; exact ⟨_, _, _, h⟩
  | htDecode => obtain ⟨_, _, _, _, _, -, -, h⟩ := hu; exact ⟨_, _, _, h⟩
  | htDecodeDc => obtain ⟨_, _, _, _, _, _, _, -, -, -, -, h⟩ := hu; exact ⟨_, _, _, h⟩
  | htDecodeAc => obtain ⟨_, _, _, _, _, _, _, -, -, -, h⟩ := hu; exact ⟨_, _, _, _, h⟩
  | htDump => obtain ⟨-, -, h⟩ := hu; exact ⟨_, _, h⟩
  | idct | upsNone | upsH | ccGray => obtain ⟨_, -, -, h⟩ := hu; exact ⟨_, h⟩
  | upsV | upsHv => obtain ⟨_, _, _, -, -, h⟩ := hu; exact ⟨_, h⟩
  | ccRgb | ccRgba | ccRgbx | ccYcbcr => obtain ⟨_, _, _, -, -, -, -, h⟩ := hu; exact ⟨_, h⟩

/-- A slot that differs after one slot is set is that slot. -/
theorem eq_of_slot_setSlot_ne {s : State} {t x : BitVec 3} {h : HtSlot} (hne : (s.setSlot t h).slot x ≠ s.slot x) :
    x = t :=
  by_contra fun hx => hne (slot_setSlot_ne s h hx)

/-- Settles O28: an error leaves every field the clauses name, and a committed working copy differs only in the fields
of its command's rule. -/
theorem commandsChangeOnlyWhatTheyName : Obligations.CommandsChangeOnlyWhatTheyName := by
  intro i s t ht
  rcases exec_next_cases ht with ⟨k, rfl⟩ | ⟨u, hu, rfl⟩
  · exact ⟨rfl, absurd rfl, absurd rfl, absurd rfl, absurd rfl, fun _ => absurd rfl, absurd rfl, absurd rfl⟩
  have hw := effect_writesOnlyNamed hu
  cases i with
  | nop =>
    subst hw
    exact ⟨rfl, absurd rfl, absurd rfl, absurd rfl, absurd rfl, fun _ => absurd rfl, absurd rfl, absurd rfl⟩
  | coreInit =>
    subst hw
    exact ⟨rfl, fun _ => rfl, fun _ => .inl (by decide), fun _ => .inl (by decide), fun _ => .inl rfl,
      fun _ _ => .inl rfl, fun _ => .inl (by decide), absurd rfl⟩
  | brInit | brRefill =>
    obtain ⟨b, rfl⟩ := hw
    exact ⟨rfl, absurd rfl, absurd rfl, absurd rfl, absurd rfl, fun _ => absurd rfl, fun _ => .inl (by decide),
      absurd rfl⟩
  | brPeek n | brHas n =>
    obtain ⟨x, rfl⟩ := hw
    exact ⟨rfl, absurd rfl, fun _ => .inr (.inl ⟨n, by simp⟩), absurd rfl, absurd rfl, fun _ => absurd rfl, absurd rfl,
      absurd rfl⟩
  | brGet n =>
    obtain ⟨b, x, rfl⟩ := hw
    exact ⟨rfl, absurd rfl, fun _ => .inr (.inl ⟨n, by simp⟩), absurd rfl, absurd rfl, fun _ => absurd rfl,
      fun _ => .inr (.inl ⟨n, rfl⟩), absurd rfl⟩
  | brSkipMarker =>
    obtain ⟨b, x, y, rfl⟩ := hw
    exact ⟨rfl, absurd rfl, fun _ => .inl (by decide), fun _ => .inl (by decide), absurd rfl, fun _ => absurd rfl,
      fun _ => .inl (by decide), absurd rfl⟩
  | htBuild t =>
    obtain ⟨h, x, y, rfl⟩ := hw
    exact ⟨rfl, absurd rfl, fun _ => .inr (.inr ⟨t, by simp⟩), fun _ => .inr ⟨t, by simp⟩, absurd rfl,
      fun _ hx => .inr (congrArg Instr.htBuild (eq_of_slot_setSlot_ne hx).symm), absurd rfl, absurd rfl⟩
  | htDecode t | htDecodeDc t =>
    obtain ⟨b, x, y, rfl⟩ := hw
    exact ⟨rfl, absurd rfl, fun _ => .inr (.inr ⟨t, by simp⟩), fun _ => .inr ⟨t, by simp⟩, absurd rfl,
      fun _ => absurd rfl, fun _ => .inr (.inr ⟨t, by simp⟩), absurd rfl⟩
  | htDecodeAc t =>
    obtain ⟨b, x, y, z, rfl⟩ := hw
    exact ⟨rfl, absurd rfl, fun _ => .inr (.inr ⟨t, by simp⟩), fun _ => .inr ⟨t, by simp⟩, fun _ => .inr ⟨t, rfl⟩,
      fun _ => absurd rfl, fun _ => .inr (.inr ⟨t, by simp⟩), absurd rfl⟩
  | htDump t =>
    obtain ⟨m, x, rfl⟩ := hw
    exact ⟨rfl, absurd rfl, fun _ => .inr (.inr ⟨t, by simp⟩), absurd rfl, absurd rfl, fun _ => absurd rfl, absurd rfl,
      fun _ => .inr ⟨t, rfl⟩⟩
  | idct | upsNone | upsH | upsV | upsHv | ccRgb | ccRgba | ccRgbx | ccGray | ccYcbcr =>
    obtain ⟨m, rfl⟩ := hw
    exact ⟨rfl, absurd rfl, absurd rfl, absurd rfl, absurd rfl, fun _ => absurd rfl, absurd rfl,
      fun _ => .inl (by decide)⟩

end Sys2Proof.Machine
end

section
/-! The control commands, and what no command's outcome depends on: the backend latch and FAST_BITS. -/

namespace Sys2Proof.Machine

/-! ### The backend latch and FAST_BITS -/

/-- The backend latch replaced, the rest kept. -/
def Unread.replaceBackend (b : Bool) : Unread :=
  { cfg := id, args := id, cmd := id, backend := fun _ => b, fastBits := id }

/-- FAST_BITS replaced, the rest kept. -/
def Unread.replaceFastBits (k : Nat) : Unread :=
  { cfg := id, args := id, cmd := id, backend := id, fastBits := fun _ => k }

/-- R113: under another backend latch, a command other than CORE_INIT has the same outcome but for the latch. -/
theorem exec_replaceBackend {i : Instr} (hi : i ≠ .coreInit) (b : Bool) (s : State) :
    exec i { s with backend := b } = mapNext (fun t => { t with backend := b }) (exec i s) :=
  exec_change i (Unread.replaceBackend b) s (fun h => absurd h hi) fun _ => rfl

/-- R11: under another FAST_BITS, a command other than HT_DUMP has the same outcome but for the parameter. -/
theorem exec_replaceFastBits {i : Instr} (hi : ∀ x, i ≠ .htDump x) (k : Nat) (s : State) :
    exec i { s with params := { s.params with fastBits := k } } =
      mapNext (fun t => { t with params := { t.params with fastBits := k } }) (exec i s) :=
  exec_change i (Unread.replaceFastBits k) s (fun _ => rfl) fun ⟨x, h⟩ => absurd h (hi x)

/-- An outcome that is another one with its next state changed, read case by case. -/
theorem next_and_fault_of_eq_mapNext {f : State → State} {o o' : Outcome} (h : o' = mapNext f o) :
    (∀ t, o = .next t → o' = .next (f t)) ∧ (∀ g, o = .fault g → o' = .fault g) := by
  subst h
  constructor <;> rintro _ rfl <;> rfl

/-- Settles O31: the backend latch and FAST_BITS are unread fields, and CORE_INIT overwrites the latch. -/
theorem backendAndFastBitsAreUnobservable : Obligations.BackendAndFastBitsAreUnobservable := fun _ s =>
  ⟨fun b hi => next_and_fault_of_eq_mapNext (exec_replaceBackend hi b s), fun _ => rfl,
    fun k hi => next_and_fault_of_eq_mapNext (exec_replaceFastBits hi k s)⟩

/-! ### NOP and CORE_INIT -/

theorem exec_nop (s : State) : exec .nop s = .next (finished s) := rfl

theorem exec_coreInit (s : State) : exec .coreInit s = .next (finished (initCore s)) := rfl

/-- The selection of R112: parallel on request, unless scalar is forced or the parallel backend is absent. -/
theorem selectBackend_eq_true {p : Params} {c : Cfg} :
    selectBackend p c = true ↔ c.backendReq = true ∧ c.forceScalar = false ∧ p.parAvailable = true := by
  simp only [selectBackend, Bool.and_eq_true, Bool.not_eq_true', and_assoc]

/-- Settles O32: both commands complete by their equations, and CORE_INIT leaves `initCore`, field by field. -/
theorem controlCommandsComplete : Obligations.ControlCommandsComplete := fun s =>
  ⟨exec_nop s, finished (initCore s), exec_coreInit s, rfl, selectBackend_eq_true, rfl, slot_initCore s⟩

end Sys2Proof.Machine
end

section
/-! The bit reader: what each BR command answers, case by case, and the first marker that BR_SKIP_MARKER's scan finds. -/

namespace Sys2Proof.Machine

/-! ### Checks -/

/-- A rule whose first check fails ends in that check's error (R253, R258). -/
theorem commit_require_of_not {i : Instr} {s : State} {p : Prop} [Decidable p] (k : ErrKind) (f : Unit → CmdM State)
    (h : ¬ p) : commit i s (require (decide p) k >>= f) = .next (failed s i.opcode k) := by
  rw [decide_eq_false h, require_false, raise_bind, commit_raise, raiseError_eq_failed]

/-! ### BR_INIT -/

/-- Settles O33: the segment's region is BR_INIT's one check. -/
theorem brInitOpensTheSegment : Obligations.BrInitOpensTheSegment := by
  refine fun s => ⟨fun h => ?_, (brInit_checksFirst s).addressFault List.mem_cons_self⟩
  have hin : s.inRange s.opnd0 s.opnd1 = true := inRange_iff.2 h
  rw [exec, execBrInit, hin]
  rfl

/-! ### BR_PEEK and BR_HAS -/

/-- The next `n` bits as a quotient of the accumulator (R126). -/
theorem peekBits_eq_div (b : BitReader) (n : Nat) : peekBits b n = b.acc.toNat / 2 ^ (64 - n) := by
  rw [peekBits, BitVec.toNat_ushiftRight, Nat.shiftRight_eq_div_pow]

/-- Settles O36: each command's one question is whether `n` bits are buffered. -/
theorem peekAndHasLookAtTheBuffer : Obligations.PeekAndHasLookAtTheBuffer := by
  intro s n _
  refine ⟨fun h => ?_, fun h => ?_, fun h => ?_, fun h => ?_, rfl, rfl⟩
  · rw [exec, execBrPeek, decide_eq_true h, peekBits_eq_div]
    rfl
  · exact commit_require_of_not _ _ (Nat.not_le.2 h)
  · rw [exec, execBrHas, if_pos h]
    rfl
  · rw [exec, execBrHas, if_neg (Nat.not_le.2 h)]
    rfl

/-! ### BR_GET -/

section BrGet

variable {s : State} {n : BitVec 6}

/-- Too few bits are BIT_UNDERFLOW, checked first (R130). -/
theorem exec_brGet_of_lt (h : s.br.nbits < n.toNat) :
    exec (.brGet n) s = .next (failed s 0x13 .bitUnderflow) :=
  commit_require_of_not _ _ (Nat.not_le.2 h)

/-- A pad bit is not taken under STRICT (R126). -/
theorem exec_brGet_of_strict (h : n.toNat ≤ s.br.nbits) (hp : 0 < padTaken s.br n.toNat) (hs : s.strict = true) :
    exec (.brGet n) s = .next (failed s 0x13 .streamTruncated) := by
  rw [exec, execBrGet, decide_eq_true h, require_true, ok_bind, consume, if_pos ⟨hp, hs⟩, raise_bind, commit_raise,
    raiseError_eq_failed]
  rfl

/-- Otherwise the bits are taken (R126, R130). -/
theorem exec_brGet_of_le (h : n.toNat ≤ s.br.nbits) (hp : padTaken s.br n.toNat = 0 ∨ s.strict = false) :
    exec (.brGet n) s =
      .next (finished ({ s with br := dropBits s.br n.toNat }.setRes0 (zres (peekBits s.br n.toNat)))) := by
  have hc : ¬ (0 < padTaken s.br n.toNat ∧ s.strict = true) := by
    rcases hp with hp | hp <;> simp [hp]
  rw [exec, execBrGet, decide_eq_true h, require_true, ok_bind, consume, if_neg hc]
  rfl

end BrGet

/-- Settles O37: the three outcomes of BR_GET, the reader left written out as `afterBits`. -/
theorem getConsumesBits : Obligations.GetConsumesBits := by
  intro s n _ real
  have hpad : padTaken s.br n.toNat = n.toNat - real := rfl
  refine ⟨exec_brGet_of_lt, fun h hr hs => exec_brGet_of_strict h (by omega) hs, fun h hr => ?_, rfl, rfl, rfl, rfl⟩
  rw [exec_brGet_of_le h (hr.imp_left fun hr => by omega), dropBits_eq_afterBits, peekBits_eq_div]
  rfl

/-- Settles O38: under the invariant a pad bit is taken exactly when the data bits run out, and the pad bits are zero. -/
theorem getDeliversTheStream : Obligations.GetDeliversTheStream := by
  intro s n hinv hn hle hs
  have hpad := padTaken_pos_iff (m := s.lmem) hinv.br hle
  have hv : peekBits s.br n.toNat = bitsValue ((paddedBits s).take n.toNat) := by
    rw [peekBits_eq_bitsValue _ (by omega), paddedBits, take_bitsLeft hinv.br hle]
  have hok : padTaken s.br n.toNat = 0 ∨ s.strict = false := hs.symm.imp_left fun hs => by omega
  refine ⟨_, exec_brGet_of_le hle hok, rfl, ?_, dropBits_bitsLeft hinv.br hle, ?_⟩
  · rw [← hv]
    rfl
  · rw [← decide_eq_decide.2 hpad]
    rfl

/-! ### Which commands change the bit reader -/

/-- What BR_GET may change of the bit reader. -/
theorem brGet_br {n : BitVec 6} {s t : State} (h : exec (.brGet n) s = .next t) :
    t.br = { s.br with acc := t.br.acc, nbits := t.br.nbits, npad := t.br.npad, overrun := t.br.overrun } := by
  rcases exec_next_cases h with ⟨k, rfl⟩ | ⟨u, ⟨-, v, b, hc, rfl⟩, rfl⟩
  · rfl
  · obtain ⟨-, -, rfl⟩ := consume_eq_ok hc
    rfl

/-- Settles O27: the register frame (O28) names the commands that write BR, and of these BR_GET keeps pos. -/
theorem whoChangesTheBitReader : Obligations.WhoChangesTheBitReader := by
  intro i s t ht
  obtain ⟨-, -, -, -, -, -, hbr, -⟩ := commandsChangeOnlyWhatTheyName i s t ht
  refine ⟨fun ⟨n, hi⟩ => by_contra fun hne => ?_, fun ⟨n, hi⟩ => brGet_br (hi ▸ ht), fun hne => ?_⟩
  · rcases hi with rfl | rfl <;> simpa using hbr hne
  · rcases hbr fun he => hne (he ▸ rfl) with h | ⟨n, rfl⟩ | h
    · exact .inl (by simp only [List.mem_cons] at h ⊢; tauto)
    · exact absurd (congrArg BitReader.pos (brGet_br ht)) hne
    · exact .inr h

/-! ### BR_REFILL -/

/-- A refill that succeeds is BR_REFILL's outcome (R128). -/
theorem exec_brRefill_of_ok {s : State} {b : BitReader} (h : refill .brRefill s.lmem s.br = .ok b) :
    exec .brRefill s = .next { finished s with br := b } := by
  rw [exec, execBrRefill, h]
  rfl

/-- Settles O34 by the laws of `refill`. -/
theorem refillKeepsTheStream : Obligations.RefillKeepsTheStream := by
  intro s hinv hw
  obtain ⟨b, hb⟩ := refill_of_written (i := .brRefill) hinv.br.pos_le hw
  obtain ⟨hend, hover, -, -⟩ := refill_frame hb hinv.br.pos_le
  obtain ⟨hlo, hhi⟩ := refill_nbits hb hinv.br
  exact ⟨_, exec_brRefill_of_ok hb, rfl, hlo, hhi, hend, hover, refill_bitsLeft hb hinv.br⟩

/-- An ended reader is padded to 64 bits (R125). -/
theorem padBits_of_ended {b : BitReader} (he : b.ended = true) (hn : b.nbits ≤ 64) :
    padBits b = { b with npad := b.npad + (64 - b.nbits), nbits := 64 } := by
  rcases Nat.eq_or_lt_of_le hn with hfull | hlt
  · rw [padBits, if_neg (by omega), hfull, Nat.sub_self, Nat.add_zero, ← hfull]
  · rw [padBits, if_pos ⟨he, hlt⟩]

theorem padBits_of_not_ended {b : BitReader} (he : b.ended = false) : padBits b = b := by
  rw [padBits, if_neg (by simp [he])]

/-- A refill of an ended reader only pads. -/
theorem refill_of_ended {i : Instr} {m : Memory} {b : BitReader} (he : b.ended = true) :
    refill i m b = .ok (padBits b) := by
  rw [refill, refillLoop_of_stop (.inr he)]
  rfl

section Ahead

variable {i : Instr} {m : Memory} {b : BitReader} {ds : List Byte} {q : Nat} (he : b.ended = false)
  (h : DataAhead m b.endPos q b.pos ds)
include he h

/-- A refill over data bytes that fill the accumulator loads them, and does not pad. -/
theorem refill_of_full (hn : b.nbits + 8 * ds.length ≤ 64) (hfull : 56 < b.nbits + 8 * ds.length) :
    refill i m b = .ok (loadedTo b ds q) := by
  rw [refill, show 8 = ds.length + (8 - ds.length) by omega, refillLoop_ahead he hn h, refillLoop_of_stop (.inl hfull),
    ok_bind, padBits_of_not_ended (b := loadedTo b ds q) he]
  rfl

/-- A refill over data bytes that leave room is decided by the turn behind them, when that turn ends the stream. -/
theorem refill_of_room {c : BitReader} (hroom : b.nbits + 8 * ds.length ≤ 56)
    (hs : refillStep i m (loadedTo b ds q) = .ok c) (hc : c.ended = true) : refill i m b = .ok (padBits c) := by
  rw [refill, show 8 = ds.length + (7 - ds.length + 1) by omega, refillLoop_ahead he (by omega) h,
    refillLoop_succ (b := loadedTo b ds q) hroom he, hs, ok_bind, refillLoop_of_stop (.inr hc)]
  rfl

end Ahead

/-- Data bytes that leave room, and a turn behind them that ends the stream: BR_REFILL pads what that turn leaves. -/
theorem exec_brRefill_of_room {s : State} {ds : List Byte} {q : Nat} {c : BitReader} (he : s.br.ended = false)
    (h : DataAhead s.lmem s.br.endPos q s.br.pos ds) (hroom : s.br.nbits + 8 * ds.length ≤ 56)
    (hs : refillStep .brRefill s.lmem (loadedTo s.br ds q) = .ok c) (hc : c.ended = true) (hn : c.nbits ≤ 64) :
    exec .brRefill s = .next { finished s with br := { c with npad := c.npad + (64 - c.nbits), nbits := 64 } } := by
  rw [← padBits_of_ended hc hn]
  exact exec_brRefill_of_ok (refill_of_room he h hroom hs hc)

/-- The end of the segment ends the stream (R124). -/
theorem refillStep_at_end (i : Instr) (m : Memory) {b : BitReader} (h : b.endPos ≤ b.pos) :
    refillStep i m b = .ok { b with ended := true } := by
  rw [refillStep, if_pos h]

/-- A lone 0xFF at the end ends the stream (R124). -/
theorem refillStep_at_lone (i : Instr) {m : Memory} {b : BitReader} (h : b.pos + 1 = b.endPos)
    (hv : m.read? b.pos = some 0xFF) : refillStep i m b = .ok { b with ended := true } := by
  rw [refillStep, if_neg (by omega), readByte_of_some hv, ok_bind, if_neg (by simp), if_pos (by omega)]

/-- A marker ends the stream and is reported (R123). -/
theorem refillStep_at_marker (i : Instr) {m : Memory} {b : BitReader} {c : Byte} (h : b.pos + 1 < b.endPos)
    (hv : m.read? b.pos = some 0xFF) (hv2 : m.read? (b.pos + 1) = some c) (hc : c ≠ 0) :
    refillStep i m b = .ok { b with mfound := true, marker := c, ended := true } := by
  rw [refillStep, if_neg (by omega), readByte_of_some hv, ok_bind, if_neg (by simp), if_neg (by omega),
    readByte_of_some hv2, ok_bind, if_neg hc]

/-- Settles O35: the data bytes are loaded first, then the turn behind them decides. -/
theorem refillStopsAtMarkerAndEnd : Obligations.RefillStopsAtMarkerAndEnd := by
  refine ⟨fun s he hn => ?_, ?_⟩
  · exact exec_brRefill_of_ok ((refill_of_ended he).trans (congrArg _ (padBits_of_ended he hn)))
  intro s ds q he hn h n loaded stopped
  refine ⟨fun c hroom hq hv hv2 hc => ?_, fun hroom hq => ?_, fun hroom hq hv => ?_, fun hfull => ?_⟩
  · exact exec_brRefill_of_room he h hroom (refillStep_at_marker _ hq hv hv2 hc) rfl hn
  · exact exec_brRefill_of_room he h hroom (refillStep_at_end _ _ hq) rfl hn
  · exact exec_brRefill_of_room he h hroom (refillStep_at_lone _ hq hv) rfl hn
  · exact exec_brRefill_of_ok (refill_of_full he h hn hfull)

/-! ### BR_SKIP_MARKER -/

/-- At `j`, inside the segment that ends at `e`, stands a marker with the code `c` (R132). -/
def MarkerPair (m : Memory) (e j : Nat) (c : Byte) : Prop :=
  j + 1 < e ∧ m.read? j = some 0xFF ∧ m.read? (j + 1) = some c ∧ c ≠ 0x00 ∧ c ≠ 0xFF

theorem MarkerPair.lt {m : Memory} {e j : Nat} {c : Byte} (h : MarkerPair m e j c) : j < e := Nat.lt_of_succ_lt h.1

/-- One address holds one marker's code. -/
theorem MarkerPair.code_unique {m : Memory} {e j : Nat} {c c' : Byte} (h : MarkerPair m e j c)
    (h' : MarkerPair m e j c') : c = c' := by
  obtain ⟨-, -, hc, -⟩ := h
  obtain ⟨-, -, hc', -⟩ := h'
  exact Option.some.inj (hc.symm.trans hc')

/-- No marker stands from `p` up to `q`. -/
def NoMarker (m : Memory) (e p q : Nat) : Prop := ∀ j c, p ≤ j → j < q → ¬ MarkerPair m e j c

/-- The scan's answer from `p`: the code of the first marker and the address behind it, or none where there is no
marker. -/
def FirstMarker (m : Memory) (e p : Nat) : Option (Byte × Nat) → Prop
  | none => NoMarker m e p e
  | some (c, q) => ∃ j, q = j + 2 ∧ p ≤ j ∧ MarkerPair m e j c ∧ NoMarker m e p j

/-- The bytes from `p` up to `q` are 0xFF. -/
def AllFill (m : Memory) (p q : Nat) : Prop := ∀ x, p ≤ x → x < q → m.read? x = some 0xFF

theorem AllFill.refl (m : Memory) (p : Nat) : AllFill m p p := fun _ _ _ => by omega

theorem AllFill.cons {m : Memory} {p q : Nat} (hp : m.read? p = some 0xFF) (h : AllFill m (p + 1) q) :
    AllFill m p q := by
  intro x hx hq
  rcases Nat.eq_or_lt_of_le hx with rfl | hx
  · exact hp
  · exact h x hx hq

theorem NoMarker.of_le {m : Memory} {e p q : Nat} (h : q ≤ p) : NoMarker m e p q := fun _ _ _ _ => by omega

theorem NoMarker.trans {m : Memory} {e p q r : Nat} (h : NoMarker m e p q) (h' : NoMarker m e q r) :
    NoMarker m e p r := by
  intro j c hp hr
  rcases Nat.lt_or_ge j q with hq | hq
  · exact h j c hp hq
  · exact h' j c hq hr

/-- A byte other than 0xFF begins no marker. -/
theorem NoMarker.of_byte {m : Memory} {p : Nat} (e : Nat) (h : m.read? p ≠ some 0xFF) : NoMarker m e p (p + 1) := by
  rintro j c hp hq ⟨-, hv, -⟩
  exact h (show j = p by omega ▸ hv)

/-- No marker begins at the last byte of the segment. -/
theorem NoMarker.of_last (m : Memory) (p : Nat) : NoMarker m (p + 1) p (p + 1) := by
  rintro j c hp - ⟨hlt, -⟩
  omega

/-- A byte followed by 0x00 begins no marker, nor does that 0x00. -/
theorem NoMarker.of_stuffed {m : Memory} {p : Nat} (e : Nat) (h : m.read? (p + 1) = some 0x00) :
    NoMarker m e p (p + 2) := by
  refine NoMarker.trans (q := p + 1) ?_ (.of_byte e (by simp [h]))
  rintro j c hp hq ⟨-, -, hc, hne, -⟩
  obtain rfl : j = p := by omega
  exact hne (Option.some.inj (hc.symm.trans h))

/-- Within a run of fill bytes no marker begins but at the last one (R133). -/
theorem AllFill.noMarker {m : Memory} {p q : Nat} (e : Nat) (h : AllFill m p (q + 1)) : NoMarker m e p q := by
  rintro j c hp hq ⟨-, -, hc, -, hne⟩
  rw [h (j + 1) (by omega) (by omega)] at hc
  exact hne (Option.some.inj hc).symm

/-- Where no marker begins before `q`, the scan from `q` answers for the scan from `p`. -/
theorem FirstMarker.of_noMarker {m : Memory} {e p q : Nat} {r : Option (Byte × Nat)} (h : FirstMarker m e q r)
    (hn : NoMarker m e p q) (hpq : p ≤ q) : FirstMarker m e p r := by
  match r, h with
  | none, h => exact hn.trans h
  | some (c, a), ⟨j, ha, hj, hm, hfirst⟩ => exact ⟨j, ha, by omega, hm, hn.trans hfirst⟩

/-- The run of 0xFF is skipped whole (R132, R133). -/
theorem skipFill_eq_ok {i : Instr} {m : Memory} {e k q r : Nat} (h : skipFill i m e k q = .ok r) (hk : e ≤ q + k) :
    AllFill m q r ∧ (r < e → m.read? r ≠ some 0xFF) := by
  induction k generalizing q with
  | zero =>
    cases h
    exact ⟨.refl m _, fun _ => by omega⟩
  | succ k ih =>
    rw [skipFill] at h
    by_cases hq : q < e
    · rw [if_pos hq] at h
      rcases readByte_cases i m q with ⟨v, hv, hr⟩ | ⟨-, hr⟩
      · rw [hr, ok_bind] at h
        by_cases hff : v = 0xFF
        · rw [if_pos hff] at h
          obtain ⟨hfill, hstop⟩ := ih h (by omega)
          exact ⟨hfill.cons (hff ▸ hv), hstop⟩
        · rw [if_neg hff] at h
          cases h
          exact ⟨.refl m _, fun _ => by simpa [hv] using hff⟩
      · rw [hr] at h
        cases h
    · rw [if_neg hq] at h
      cases h
      exact ⟨.refl m _, fun hlt => absurd hlt hq⟩

/-- The five ways a turn of the scan ends: the end of the segment, a byte other than 0xFF, and a run of 0xFF with the
end, a stuffed 0x00 or a marker's code behind its last byte (R132, R133). -/
theorem scanMarker_succ_eq_ok {i : Instr} {m : Memory} {e k p : Nat} {r : Option (Byte × Nat)}
    (h : scanMarker i m e (k + 1) p = .ok r) :
    (e ≤ p ∧ r = none) ∨
    (m.read? p ≠ some 0xFF ∧ scanMarker i m e k (p + 1) = .ok r) ∨
    ∃ j, p ≤ j ∧ AllFill m p (j + 1) ∧
      ((j + 1 = e ∧ r = none) ∨
       (m.read? (j + 1) = some 0x00 ∧ scanMarker i m e k (j + 2) = .ok r) ∨
       ∃ c, MarkerPair m e j c ∧ r = some (c, j + 2)) := by
  rw [scanMarker] at h
  by_cases hp : p < e
  · rw [if_pos hp] at h
    rcases readByte_cases i m p with ⟨v, hv, hr⟩ | ⟨-, hr⟩
    · rw [hr, ok_bind] at h
      by_cases hff : v = 0xFF
      · subst hff
        rw [if_neg (by simp)] at h
        obtain ⟨q, hq, h⟩ := bind_eq_ok h
        obtain ⟨hpq, hqe⟩ := skipFill_bounds hq hp
        obtain ⟨hfill, hstop⟩ := skipFill_eq_ok hq (by omega)
        obtain ⟨j, rfl⟩ : ∃ j, q = j + 1 := ⟨q - 1, by omega⟩
        have hrun : AllFill m p (j + 1) := hfill.cons hv
        refine .inr (.inr ⟨j, by omega, hrun, ?_⟩)
        by_cases hend : e ≤ j + 1
        · rw [if_pos hend] at h
          exact .inl ⟨by omega, (Except.ok.inj h).symm⟩
        · rw [if_neg hend] at h
          rcases readByte_cases i m (j + 1) with ⟨c, hc, hr'⟩ | ⟨-, hr'⟩
          · rw [hr', ok_bind] at h
            by_cases hz : c = 0x00
            · rw [if_pos hz] at h
              exact .inr (.inl ⟨hz ▸ hc, h⟩)
            · rw [if_neg hz] at h
              have hne : c ≠ 0xFF := fun hff => hstop (by omega) (hff ▸ hc)
              exact .inr (.inr ⟨c, ⟨by omega, hrun j (by omega) (by omega), hc, hz, hne⟩, (Except.ok.inj h).symm⟩)
          · rw [hr'] at h
            cases h
      · rw [if_pos hff] at h
        exact .inr (.inl ⟨by simpa [hv] using hff, h⟩)
    · rw [hr] at h
      cases h
  · rw [if_neg hp] at h
    exact .inl ⟨by omega, (Except.ok.inj h).symm⟩

/-- The scan, with turns enough, finds the first marker (R132, R133). -/
theorem scanMarker_firstMarker {i : Instr} {m : Memory} {e k p : Nat} {r : Option (Byte × Nat)}
    (h : scanMarker i m e k p = .ok r) (hk : e ≤ p + k) : FirstMarker m e p r := by
  induction k generalizing p with
  | zero =>
    cases h
    exact NoMarker.of_le hk
  | succ k ih =>
    rcases scanMarker_succ_eq_ok h with ⟨hp, rfl⟩ | ⟨hv, h⟩ | ⟨j, hj, hrun, hturn⟩
    · exact NoMarker.of_le hp
    · exact (ih h (by omega)).of_noMarker (.of_byte e hv) (by omega)
    have hno := hrun.noMarker e
    rcases hturn with ⟨rfl, rfl⟩ | ⟨hc, h⟩ | ⟨c, hm, rfl⟩
    · exact hno.trans (.of_last m j)
    · exact (ih h (by omega)).of_noMarker (hno.trans (.of_stuffed e hc)) (by omega)
    · exact ⟨j, rfl, hj, hm, hno⟩

/-- Where a first marker stands, the scan's answer is that marker. -/
theorem FirstMarker.unique {m : Memory} {e p j : Nat} {c : Byte} {r : Option (Byte × Nat)} (h : FirstMarker m e p r)
    (hp : p ≤ j) (hm : MarkerPair m e j c) (hno : NoMarker m e p j) : r = some (c, j + 2) := by
  match r, h with
  | none, h => exact absurd hm (h j c hp hm.lt)
  | some (c', q), ⟨j', hq, hp', hm', hno'⟩ =>
    obtain rfl : j = j' := by
      rcases lt_trichotomy j j' with hlt | heq | hgt
      · exact absurd hm (hno' j c hp hlt)
      · exact heq
      · exact absurd hm' (hno j' c' hp' hgt)
    obtain rfl : c = c' := hm.code_unique hm'
    rw [hq]

/-- Over a written segment BR_SKIP_MARKER goes where its scan's answer says (R132). -/
theorem exec_brSkipMarker_of_written {s : State} (hw : Written s.lmem s.br.pos (s.br.endPos - s.br.pos)) :
    ∃ r, FirstMarker s.lmem s.br.endPos s.br.pos r ∧ exec .brSkipMarker s = .next (finished (skipTo s r)) := by
  cases h : findMarker .brSkipMarker s.lmem s.br with
  | ok r =>
    refine ⟨r, scanMarker_firstMarker h (by omega), ?_⟩
    rw [exec, execBrSkipMarker, h]
    rfl
  | error x =>
    obtain ⟨a, hlo, hhi, hnone, -⟩ := scanMarker_error h
    have := hw (a - s.br.pos) (by omega)
    rw [Nat.add_sub_cancel' hlo, hnone] at this
    cases this

/-- Settles O39: the scan's answer is the first marker, and there is only one first marker. -/
theorem skipMarkerFindsTheFirstMarker : Obligations.SkipMarkerFindsTheFirstMarker := by
  intro s _ hw markerAt
  obtain ⟨r, hr, hexec⟩ := exec_brSkipMarker_of_written hw
  rw [hexec]
  refine ⟨fun j c ⟨hj, hm⟩ hfirst => ?_, fun hnone => ?_⟩
  · rw [hr.unique hj hm fun j' c' hj' hlt hm' => hfirst j' c' hlt ⟨hj', hm'⟩]
    rfl
  · match r, hr with
    | none, _ => rfl
    | some (c, q), ⟨j, _, hj, hm, _⟩ => exact absurd ⟨hj, hm⟩ (hnone j c)

end Sys2Proof.Machine
end

section
/-! The canonical code and the lookups in it: codewords as bits and as numbers, the canonical assignment in closed form,
the decode function of a slot, and the table that HT_DUMP writes (spec 42_huffman §1, §2). -/

namespace Sys2Proof.Machine

/-! ### Windows -/

/-- The first `l` bits of the 16-bit window at the top of the accumulator are the first `l` of the accumulator (R162). -/
theorem window_div (acc : BitVec 64) {l : Nat} (hl : l ≤ 16) :
    (acc.extractLsb' 48 16).toNat / 2 ^ (16 - l) = acc.toNat / 2 ^ (64 - l) := by
  have hlt : acc.toNat / 2 ^ 48 < 2 ^ 16 := by have := acc.isLt; omega
  rw [BitVec.extractLsb'_toNat, Nat.shiftRight_eq_div_pow, Nat.mod_eq_of_lt hlt, Nat.div_div_eq_div_mul, ← Nat.pow_add,
    show 48 + (16 - l) = 64 - l by omega]

/-- Bits of the accumulator begin with a codeword when its window does. -/
theorem Codeword.bits_prefix_accBits_iff {w : Codeword} {n : Nat} (hl : w.len ≤ 16) (hc : w.code < 2 ^ w.len)
    (hn : w.len ≤ n) (acc : BitVec 64) :
    w.bits <+: accBits acc n ↔ (acc.extractLsb' 48 16).toNat / 2 ^ (16 - w.len) = w.code := by
  rw [List.prefix_iff_eq_take, Codeword.bits_length, accBits_take acc hn, bits_eq_accBits_iff (by omega) hc,
    window_div acc hl]

/-- The accumulator that holds a codeword and zero bits. -/
def Codeword.alone (w : Codeword) : BitVec 64 := BitVec.ofNat 64 (w.code * 2 ^ (64 - w.len))

theorem Codeword.window_alone {w : Codeword} (hl : w.len ≤ 16) (hc : w.code < 2 ^ w.len) :
    (w.alone.extractLsb' 48 16).toNat / 2 ^ (16 - w.len) = w.code := by
  have hlt : w.code * 2 ^ (64 - w.len) < 2 ^ 64 := by
    have := Nat.mul_lt_mul_of_pos_right hc (Nat.two_pow_pos (64 - w.len))
    rwa [← Nat.pow_add, show w.len + (64 - w.len) = 64 by omega] at this
  rw [window_div _ hl, alone, BitVec.toNat_ofNat, Nat.mod_eq_of_lt hlt, Nat.mul_div_cancel _ (Nat.two_pow_pos _)]

/-- Settles O40: a codeword that begins another begins the other's window too, and a window has one codeword. -/
theorem canonicalCodeIsPrefixFree : Obligations.CanonicalCodeIsPrefixFree := by
  refine fun count h16 hk => ⟨fun j k v w hjk hv hw hpre => hjk ?_, fun x j k v w hv hw => ?_⟩
  · have hvlen := mem_codewords_len h16 (List.mem_of_getElem? hv)
    have hwlen := mem_codewords_len h16 (List.mem_of_getElem? hw)
    have hvcode := codewords_code_lt h16 hk (List.mem_of_getElem? hv)
    have hwcode := codewords_code_lt h16 hk (List.mem_of_getElem? hw)
    have hself := w.window_alone hwlen.2 hwcode
    have hpre' : v.bits <+: accBits w.alone 64 :=
      hpre.trans ((Codeword.bits_prefix_accBits_iff hwlen.2 hwcode (by omega) _).2 hself)
    exact codewords_window_unique h16 hv hw
      ((Codeword.bits_prefix_accBits_iff hvlen.2 hvcode (by omega) _).1 hpre') hself
  · exact codewords_window_unique h16 hv hw

/-! ### The canonical assignment -/

/-- How many codewords the first `m` counts give. -/
def countBefore (cs : List Byte) (m : Nat) : Nat := ((List.range m).map (fun i => (cs.getD i 0).toNat)).sum

/-- The value that the first `m` counts put before the codewords of the next length. -/
def codeBefore (cs : List Byte) (m : Nat) : Nat :=
  ((List.range m).map (fun i => (cs.getD i 0).toNat * 2 ^ (m - i))).sum

theorem countBefore_cons (c : Byte) (cs : List Byte) (m : Nat) :
    countBefore (c :: cs) (m + 1) = c.toNat + countBefore cs m := by
  simp [countBefore, List.range_succ_eq_map, Function.comp_def]

theorem codeBefore_cons (c : Byte) (cs : List Byte) (m : Nat) :
    codeBefore (c :: cs) (m + 1) = c.toNat * 2 ^ (m + 1) + codeBefore cs m := by
  simp [codeBefore, List.range_succ_eq_map, Function.comp_def]

/-- The codeword at place `p` among those of the length of count `m`. -/
theorem codewordsFrom_getElem? {l code m p : Nat} {cs : List Byte} (hp : p < (cs.getD m 0).toNat) :
    (codewordsFrom l code cs)[countBefore cs m + p]? =
      some { len := l + m, code := code * 2 ^ m + codeBefore cs m + p } := by
  induction cs generalizing l code m with
  | nil => simp at hp
  | cons c cs ih =>
    rw [codewordsFrom_cons]
    cases m with
    | zero =>
      have hp' : p < c.toNat := by simpa using hp
      rw [List.getElem?_append_left (by simpa [countBefore] using hp')]
      simpa [countBefore, codeBefore] using codeBlock_getElem? hp'
    | succ m =>
      rw [List.getD_cons_succ] at hp
      have hcode : 2 * (code + c.toNat) * 2 ^ m + codeBefore cs m = code * 2 ^ (m + 1) + codeBefore (c :: cs) (m + 1) := by
        rw [codeBefore_cons]
        ring
      rw [countBefore_cons, List.getElem?_append_right (by rw [codeBlock_length]; omega), codeBlock_length,
        show c.toNat + countBefore cs m + p - c.toNat = countBefore cs m + p by omega, ih hp, hcode,
        Nat.add_right_comm l 1 m, Nat.add_assoc]

/-- Settles O41: the assignment from length 1 and value 0 on, and the bound of a code that is not over-subscribed. -/
theorem canonicalCodesIncreaseByOne : Obligations.CanonicalCodesIncreaseByOne := by
  intro count l p h16 hk hlo hhi hp before first
  obtain ⟨m, rfl⟩ : ∃ m, l = m + 1 := ⟨l - 1, by omega⟩
  have hfirst : first = codeBefore count m := by simp [first, codeBefore]
  have hget : (codewords count)[before + p]? = some { len := m + 1, code := first + p } := by
    have := codewordsFrom_getElem? (l := 1) (code := 0) hp
    rwa [Nat.zero_mul, Nat.zero_add, Nat.add_sub_cancel, ← hfirst, Nat.add_comm 1] at this
  exact ⟨hget, codewords_code_lt h16 hk (List.mem_of_getElem? hget)⟩

/-! ### The decode function -/

/-- Every codeword of a built slot has a symbol. -/
theorem SlotOk.exists_symbol {h : HtSlot} (hok : SlotOk h) {w : Codeword} (hw : w ∈ codewords h.count) :
    ∃ (k : Nat) (y : Byte), (codewords h.count)[k]? = some w ∧ h.sym[k]? = some y := by
  obtain ⟨k, hk⟩ := List.mem_iff_getElem?.1 hw
  have hlt : k < h.sym.length := by
    have := (List.getElem?_eq_some_iff.1 hk).1
    rwa [codewords_length, ← hok.nsyms_eq, ← hok.sym_len] at this
  exact ⟨k, h.sym[k], hk, List.getElem?_eq_getElem hlt⟩

/-- A codeword of the entries is one of the code. -/
theorem mem_codewords_of_mem_entries {h : HtSlot} {e : Codeword × Byte} (he : e ∈ h.entries) : e.1 ∈ codewords h.count :=
  (List.of_mem_zip (a := e.1) (b := e.2) he).1

/-- Settles O42: the search finds the one matching entry. -/
theorem decodeFindsTheUniqueCodeword : Obligations.DecodeFindsTheUniqueCodeword := by
  refine fun h x hok => ⟨fun k w y hw hy hx => ?_, fun hno => ?_⟩
  · have hfind : h.entries.find? (fun e => e.1.matches x) = some (w, y) :=
      find?_of_unique (entries_getElem?_iff.2 ⟨hw, hy⟩) (matches_iff.2 hx) fun j f hj hf =>
        codewords_window_unique hok.count_len (entries_getElem?_iff.1 hj).1 hw (matches_iff.1 hf) hx
    rw [HtSlot.decode, hfind]
    rfl
  · have hfind : h.entries.find? (fun e => e.1.matches x) = none :=
      List.find?_eq_none.2 fun e he hm => hno e.1 (mem_codewords_of_mem_entries he) (matches_iff.1 hm)
    rw [HtSlot.decode, hfind]
    rfl

/-- A decode result is a codeword of the slot that begins the window. -/
theorem exists_codeword_of_decode {h : HtSlot} {x : BitVec 16} {y : Byte} {l : Nat} (hd : h.decode x = some (y, l)) :
    ∃ w ∈ codewords h.count, w.len = l ∧ x.toNat / 2 ^ (16 - w.len) = w.code := by
  simp only [HtSlot.decode, Option.map_eq_some_iff, Prod.mk.injEq] at hd
  obtain ⟨e, he, -, hl⟩ := hd
  have hm : e.1.matches x = true := List.find?_some (p := fun e : Codeword × Byte => e.1.matches x) he
  exact ⟨e.1, mem_codewords_of_mem_entries (List.mem_of_find?_eq_some he), hl, matches_iff.1 hm⟩

/-! ### The lookup table -/

/-- The first bits of a shorter index are those of its first window. -/
theorem index_window_div {i k l : Nat} (hl : l ≤ k) (hk : k ≤ 16) :
    i * 2 ^ (16 - k) / 2 ^ (16 - l) = i / 2 ^ (k - l) := by
  rw [show 16 - l = (k - l) + (16 - k) by omega, Nat.pow_add, Nat.mul_div_mul_right _ _ (Nat.two_pow_pos _)]

/-- A HIT entry in numbers (R161). -/
theorem hit_toNat {l : Nat} (hl : l ≤ 16) (y : Byte) :
    (1#2 ++ (0#1 ++ (BitVec.ofNat 5 l ++ y)) : BitVec 16).toNat = 2 ^ 14 + l * 2 ^ 8 + y.toNat := by
  have hy := y.isLt
  have hlow : (BitVec.ofNat 5 l ++ y).toNat = l * 2 ^ 8 + y.toNat := by
    rw [BitVec.toNat_append, BitVec.toNat_ofNat, Nat.mod_eq_of_lt (show l < 2 ^ 5 by omega),
      ← Nat.shiftLeft_add_eq_or_of_lt hy, Nat.shiftLeft_eq]
  have hzero : (0#1 ++ (BitVec.ofNat 5 l ++ y)).toNat = l * 2 ^ 8 + y.toNat := by
    rw [BitVec.toNat_append, hlow, BitVec.toNat_ofNat, Nat.zero_mod, Nat.zero_shiftLeft, Nat.zero_or]
  rw [BitVec.toNat_append, hzero, ← Nat.shiftLeft_add_eq_or_of_lt (by omega), Nat.shiftLeft_eq, Nat.add_assoc]
  rfl

/-- The test for a codeword of at most `k` bits that the index begins with. -/
theorem begins_index_iff {w : Codeword} {k i : Nat} :
    (decide (w.len ≤ k) && i >>> (k - w.len) == w.code) = true ↔ w.len ≤ k ∧ i / 2 ^ (k - w.len) = w.code := by
  simp [Nat.shiftRight_eq_div_pow]

/-- The test for a codeword of more than `k` bits that begins with the index. -/
theorem continues_index_iff {w : Codeword} {k i : Nat} :
    (decide (k < w.len) && w.code >>> (w.len - k) == i) = true ↔ k < w.len ∧ w.code / 2 ^ (w.len - k) = i := by
  simp [Nat.shiftRight_eq_div_pow]

/-- Settles O43: the search over the codewords of at most `k` bits is a search over windows that begin with the index. -/
theorem lookupEntriesAreHitLongInvalid : Obligations.LookupEntriesAreHitLongInvalid := by
  intro h k i hok _ hk _
  refine ⟨fun j w y hw hy hlen hcode => ?_, fun hno => ?_⟩
  · have hfind : h.entries.find? (fun e => decide (e.1.len ≤ k) && i >>> (k - e.1.len) == e.1.code) = some (w, y) := by
      refine find?_of_unique (entries_getElem?_iff.2 ⟨hw, hy⟩) (begins_index_iff.2 ⟨hlen, hcode⟩) fun j' f hj hf => ?_
      obtain ⟨hflen, hfcode⟩ := begins_index_iff.1 hf
      exact codewords_window_unique hok.count_len (x := i * 2 ^ (16 - k)) (entries_getElem?_iff.1 hj).1 hw
        ((index_window_div hflen hk).trans hfcode) ((index_window_div hlen hk).trans hcode)
    rw [HtSlot.lutEntry, hfind]
    exact hit_toNat (mem_codewords_len hok.count_len (List.mem_of_getElem? hw)).2 y
  · have hfind : h.entries.find? (fun e => decide (e.1.len ≤ k) && i >>> (k - e.1.len) == e.1.code) = none := by
      refine List.find?_eq_none.2 fun e he hm => ?_
      obtain ⟨hlen, hcode⟩ := begins_index_iff.1 hm
      exact hno e.1 (mem_codewords_of_mem_entries he) hlen hcode
    rw [HtSlot.lutEntry, hfind]
    refine ⟨fun ⟨w, hw, hlong⟩ => if_pos ?_, fun hnone => if_neg fun hany => ?_⟩
    · obtain ⟨j, y, hj, hy⟩ := hok.exists_symbol hw
      exact List.any_eq_true.2
        ⟨(w, y), List.mem_of_getElem? (entries_getElem?_iff.2 ⟨hj, hy⟩), continues_index_iff.2 hlong⟩
    · obtain ⟨e, he, hm⟩ := List.any_eq_true.1 hany
      obtain ⟨hlen, hcode⟩ := continues_index_iff.1 hm
      exact hnone e.1 (mem_codewords_of_mem_entries he) hlen hcode

/-- The three kinds of entry, each with what it says of the codewords that begin with the index, or that the index begins
with (R161). -/
theorem lutEntry_cases {h : HtSlot} {k i : Nat} (hok : SlotOk h) (hk1 : 1 ≤ k) (hk : k ≤ 16) (hi : i < 2 ^ k) :
    (∃ (j : Nat) (w : Codeword) (y : Byte), (codewords h.count)[j]? = some w ∧ h.sym[j]? = some y ∧ w.len ≤ k ∧
      i / 2 ^ (k - w.len) = w.code ∧ h.lutEntry k i = 1#2 ++ (0#1 ++ (BitVec.ofNat 5 w.len ++ y))) ∨
    ((∀ w ∈ codewords h.count, w.len ≤ k → i / 2 ^ (k - w.len) ≠ w.code) ∧
      (h.lutEntry k i = 0x8000 ∨
        h.lutEntry k i = 0x0000 ∧ ∀ w ∈ codewords h.count, k < w.len → w.code / 2 ^ (w.len - k) ≠ i)) := by
  obtain ⟨hhit, hrest⟩ := lookupEntriesAreHitLongInvalid h k i hok hk1 hk hi
  by_cases hshort : ∃ w ∈ codewords h.count, w.len ≤ k ∧ i / 2 ^ (k - w.len) = w.code
  · obtain ⟨w, hw, hlen, hcode⟩ := hshort
    obtain ⟨j, y, hj, hy⟩ := hok.exists_symbol hw
    refine .inl ⟨j, w, y, hj, hy, hlen, hcode, BitVec.eq_of_toNat_eq ?_⟩
    rw [hhit j w y hj hy hlen hcode, hit_toNat (mem_codewords_len hok.count_len hw).2]
  · have hno : ∀ w ∈ codewords h.count, w.len ≤ k → i / 2 ^ (k - w.len) ≠ w.code :=
      fun w hw hlen hcode => hshort ⟨w, hw, hlen, hcode⟩
    obtain ⟨hlong, hinvalid⟩ := hrest hno
    refine .inr ⟨hno, ?_⟩
    by_cases hex : ∃ w ∈ codewords h.count, k < w.len ∧ w.code / 2 ^ (w.len - k) = i
    · exact .inl (hlong hex)
    · have hnone : ∀ w ∈ codewords h.count, k < w.len → w.code / 2 ^ (w.len - k) ≠ i :=
        fun w hw hlen hcode => hex ⟨w, hw, hlen, hcode⟩
      exact .inr ⟨hinvalid hnone, hnone⟩

/-- The fields of a HIT entry (R161). -/
theorem hit_fields {l : Nat} (hl : l ≤ 16) (y : Byte) :
    let e : BitVec 16 := 1#2 ++ (0#1 ++ (BitVec.ofNat 5 l ++ y))
    e.extractLsb' 14 2 = 1 ∧ (e.extractLsb' 8 5).toNat = l ∧ e.extractLsb' 0 8 = y := by
  have hy := y.isLt
  have he := hit_toNat hl y
  refine ⟨BitVec.eq_of_toNat_eq ?_, ?_, BitVec.eq_of_toNat_eq ?_⟩ <;>
    rw [BitVec.extractLsb'_toNat, he, Nat.shiftRight_eq_div_pow]
  · show _ = 1
    omega
  · omega
  · omega

/-- The first bits of a window are those of its table index. -/
theorem window_index_div (x : BitVec 16) {k l : Nat} (hl : l ≤ k) (hk : k ≤ 16) :
    x.toNat / 2 ^ (16 - k) / 2 ^ (k - l) = x.toNat / 2 ^ (16 - l) := by
  rw [Nat.div_div_eq_div_mul, ← Nat.pow_add, show 16 - k + (k - l) = 16 - l by omega]

/-- Settles O44: in each of the three cases of the entry, by the codewords that begin the window. -/
theorem lookupTableRefinesDecode : Obligations.LookupTableRefinesDecode := by
  intro h k x hok hk1 hk e
  have hi : x.toNat / 2 ^ (16 - k) < 2 ^ k := by
    rw [Nat.div_lt_iff_lt_mul (Nat.two_pow_pos _), ← Nat.pow_add, show k + (16 - k) = 16 by omega]
    exact x.isLt
  obtain ⟨hdec, hnomatch⟩ := decodeFindsTheUniqueCodeword h x hok
  rcases lutEntry_cases hok hk1 hk hi with ⟨j, w, y, hw, hy, hlen, hcode, hent⟩ | ⟨hno, hent⟩
  · have hwlen := mem_codewords_len hok.count_len (List.mem_of_getElem? hw)
    obtain ⟨hkind, hl, hsym⟩ := hit_fields hwlen.2 y
    rw [← hent] at hkind hl hsym
    have hx : h.decode x = some (y, w.len) := hdec j w y hw hy ((window_index_div x hlen hk).symm.trans hcode)
    rw [hkind, hl, hsym]
    exact ⟨fun _ => hx, fun h2 => absurd h2 (by decide), fun h0 => absurd h0 (by decide), by decide⟩
  · have hlonger : ∀ w ∈ codewords h.count, x.toNat / 2 ^ (16 - w.len) = w.code → k < w.len := by
      intro w hw hx
      by_contra hle
      exact hno w hw (by omega) ((window_index_div x (by omega) hk).trans hx)
    rcases hent with hent | ⟨hent, hnone⟩
    · have hkind : e.extractLsb' 14 2 = 2 := by rw [show e = 0x8000 from hent]; decide
      rw [hkind]
      refine ⟨fun h1 => absurd h1 (by decide), fun _ y l hd => ?_, fun h0 => absurd h0 (by decide), by decide⟩
      obtain ⟨w, hw, rfl, hx⟩ := exists_codeword_of_decode hd
      exact hlonger w hw hx
    · have hkind : e.extractLsb' 14 2 = 0 := by rw [show e = 0x0000 from hent]; decide
      rw [hkind]
      refine ⟨fun h1 => absurd h1 (by decide), fun h2 => absurd h2 (by decide), fun _ => hnomatch fun w hw hx => ?_,
        by decide⟩
      have hwlen := mem_codewords_len hok.count_len hw
      have hkl := hlonger w hw hx
      exact hnone w hw hkl (hx ▸ window_index_div x hkl.le hwlen.2)

/-! ### Sign extension -/

/-- Settles O45: the two halves of the raw values of `s` bits, 2^s being twice 2^(s-1). -/
theorem extendIsTheJpegConvention : Obligations.ExtendIsTheJpegConvention := by
  refine ⟨rfl, fun v s hs hv => ?_⟩
  obtain ⟨n, rfl⟩ : ∃ n, s = n + 1 := ⟨s - 1, by omega⟩
  rw [Nat.add_sub_cancel]
  have hdouble : (2 : Int) ^ (n + 1) = 2 * 2 ^ n := by ring
  have hlt : (v : Int) < 2 ^ (n + 1) := by exact_mod_cast hv
  refine ⟨fun hhi => ?_, fun hlo => ?_⟩
  · have hle : (2 : Int) ^ n ≤ v := by exact_mod_cast hhi
    have hval : extend v (n + 1) = v := by rw [extend, if_neg (by omega), Nat.add_sub_cancel, if_pos hhi]
    exact ⟨hval, by omega, by omega⟩
  · have hlt' : (v : Int) < 2 ^ n := by exact_mod_cast hlo
    have hval : extend v (n + 1) = v - (2 ^ (n + 1) - 1) := by
      rw [extend, if_neg (by omega), Nat.add_sub_cancel, if_neg (Nat.not_le.2 hlo)]
    exact ⟨hval, by omega, by omega⟩

end Sys2Proof.Machine
end

section
/-! HT_BUILD and HT_DUMP: the checks in their order, the slot built, and the table stored (spec 42_huffman §1, §2). -/

namespace Sys2Proof.Machine

/-! ### The sums -/

/-- `nsyms` is the sum of the counts (R151). -/
theorem countSum_eq_sum (cs : List Byte) : countSum cs = (cs.map (fun c => c.toNat)).sum := by
  induction cs with
  | nil => rfl
  | cons c cs ih => rw [countSum, ih, List.map_cons, List.sum_cons]

/-- The Kraft sum, term by term (R155). -/
theorem kraftFrom_eq_sum (l : Nat) (cs : List Byte) :
    kraftFrom l cs = ((List.range cs.length).map (fun j => (cs.getD j 0).toNat * 2 ^ (16 - (l + j)))).sum := by
  induction cs generalizing l with
  | nil => rfl
  | cons c cs ih =>
    simp [kraftFrom, ih, List.range_succ_eq_map, Function.comp_def, Nat.add_assoc, Nat.add_comm 1]

theorem kraft_eq_sum {cs : List Byte} (h16 : cs.length = 16) :
    kraft cs = ((List.range 16).map (fun j => (cs.getD j 0).toNat * 2 ^ (15 - j))).sum := by
  rw [kraft, kraftFrom_eq_sum, h16]
  refine congrArg List.sum (List.map_congr_left fun j _ => ?_)
  rw [show 16 - (1 + j) = 15 - j by omega]

/-! ### HT_BUILD -/

/-- What is left of HT_BUILD's rule once the counts are read (R159). -/
def buildFrom (t : BitVec 3) (s : State) (cs : List Byte) : CmdM State := do
  require (decide (countSum cs ≤ 256)) .tableTooManySymbols
  require (decide (countSum cs ≠ 0)) .tableEmpty
  require (decide (kraft cs ≤ 65536)) .tableOverSubscribed
  require (s.inRange (s.opnd0 + 16) (countSum cs)) .addressFault
  let sym ← readBytes (.htBuild t) s.lmem (s.opnd0 + 16) (countSum cs)
  return (s.setSlot t (builtSlot cs sym)).setRes01 (zres (countSum cs)) (zres (kraft cs))

section Build

variable {s : State} {t : BitVec 3} {cs : List Byte}

/-- Counts in range and written are read first. -/
theorem exec_htBuild_of_counts (h16 : cs.length = 16) (hin : s.opnd0 + 16 ≤ s.params.lmemSize)
    (hcs : Holds s.lmem s.opnd0 cs) : exec (.htBuild t) s = commit (.htBuild t) s (buildFrom t s cs) := by
  have hread : readBytes (.htBuild t) s.lmem s.opnd0 16 = .ok cs := readBytes_ok_iff.2 ⟨h16, hcs⟩
  rw [exec, execHtBuild, inRange_iff.2 hin, require_true, ok_bind, hread, ok_bind]
  rfl

theorem buildFrom_empty (h : countSum cs = 0) : buildFrom t s cs = raise .tableEmpty := by
  rw [buildFrom, h]
  rfl

theorem buildFrom_overSubscribed (hlo : 1 ≤ countSum cs) (hhi : countSum cs ≤ 256) (hk : 65536 < kraft cs) :
    buildFrom t s cs = raise .tableOverSubscribed := by
  rw [buildFrom, decide_eq_true hhi, decide_eq_true (Nat.one_le_iff_ne_zero.1 hlo), decide_eq_false (Nat.not_le.2 hk)]
  rfl

/-- With a table's counts, the symbols' region is what is left to check. -/
theorem buildFrom_of_ok (hlo : 1 ≤ countSum cs) (hhi : countSum cs ≤ 256) (hk : kraft cs ≤ 65536) :
    buildFrom t s cs = (do
      require (decide (s.opnd0 + 16 + countSum cs ≤ s.params.lmemSize)) .addressFault
      let sym ← readBytes (.htBuild t) s.lmem (s.opnd0 + 16) (countSum cs)
      return (s.setSlot t (builtSlot cs sym)).setRes01 (zres (countSum cs)) (zres (kraft cs))) := by
  rw [buildFrom, decide_eq_true hhi, decide_eq_true (Nat.one_le_iff_ne_zero.1 hlo), decide_eq_true hk]
  rfl

theorem buildFrom_built {sym : List Byte} (hlo : 1 ≤ countSum cs) (hhi : countSum cs ≤ 256) (hk : kraft cs ≤ 65536)
    (hin : s.opnd0 + 16 + countSum cs ≤ s.params.lmemSize) (hlen : sym.length = countSum cs)
    (hsym : Holds s.lmem (s.opnd0 + 16) sym) :
    buildFrom t s cs = .ok ((s.setSlot t (builtSlot cs sym)).setRes01 (zres (countSum cs)) (zres (kraft cs))) := by
  have hread : readBytes (.htBuild t) s.lmem (s.opnd0 + 16) (countSum cs) = .ok sym := readBytes_ok_iff.2 ⟨hlen, hsym⟩
  rw [buildFrom_of_ok hlo hhi hk, decide_eq_true hin, hread]
  rfl

end Build

/-- Settles O46: the counts' region is checked first, then `buildFrom` checks and builds. -/
theorem htBuildChecksThenBuilds : Obligations.HtBuildChecksThenBuilds := by
  intro s t cs h16 a size n K
  have hn : n = countSum cs := (countSum_eq_sum cs).symm
  have hK : K = kraft cs := (kraft_eq_sum h16).symm
  rw [hn, hK]
  refine ⟨fun hout => commit_require_of_not _ _ (Nat.not_le.2 hout), fun hin hcs => ?_, by decide⟩
  rw [exec_htBuild_of_counts h16 hin hcs]
  refine ⟨fun hmany => commit_require_of_not _ _ (Nat.not_le.2 hmany), fun h0 => ?_, fun hlo hhi hk => ?_,
    fun hlo hhi hk hout => ?_, fun hlo hhi hk hsymin syms hlen hsym => ?_⟩
  · rw [buildFrom_empty h0, commit_raise, raiseError_eq_failed]
    rfl
  · rw [buildFrom_overSubscribed hlo hhi hk, commit_raise, raiseError_eq_failed]
    rfl
  · rw [buildFrom_of_ok hlo hhi hk]
    exact commit_require_of_not _ _ (Nat.not_le.2 hout)
  · refine ⟨_, by rw [buildFrom_built hlo hhi hk hsymin hlen hsym, commit_ok], rfl, rfl, ?_, fun x hx => ?_⟩
    · exact slot_setSlot_self s t (builtSlot cs syms)
    · exact slot_setSlot_ne s (builtSlot cs syms) hx

/-! ### HT_DUMP -/

/-- Byte `j` of a word of any width stored little-endian is bits `8j` to `8j + 7` (R71). -/
theorem leBytes_bitVec_getElem? {w n j : Nat} (v : BitVec w) (hj : j < n) :
    (leBytes n v.toNat)[j]? = some (v.extractLsb' (8 * j) 8) := by
  rw [leBytes_getElem? _ hj, BitVec.extractLsb', Nat.shiftRight_eq_div_pow, Nat.pow_mul]

/-- The stored table, byte `j` of entry `i` (R161, R167). -/
theorem read?_writeBytes_lutBytes (m : Memory) (a : Nat) (h : HtSlot) {k i j : Nat} (hi : i < 2 ^ k) (hj : j < 2) :
    (m.writeBytes a (h.lutBytes k)).read? (a + (2 * i + j)) = some ((h.lutEntry k i).extractLsb' (8 * j) 8) := by
  rw [Memory.read?_writeBytes_inside _ (by rw [lutBytes_length]; omega), lutBytes_getElem? h hi hj,
    leBytes_bitVec_getElem? _ hj]

/-- Settles O52: the slot's valid bit and the output's region are the two checks, and the table is stored at ARG0. -/
theorem htDumpWritesTheTable : Obligations.HtDumpWritesTheTable := by
  intro s t hvalid a k
  have hexec : exec (.htDump t) s = commit (.htDump t) s (do
      require (decide (a + 2 * 2 ^ k ≤ s.params.lmemSize)) .addressFault
      return { s with lmem := s.lmem.writeBytes a ((s.slot t).lutBytes k) }.setRes0 (zres (2 ^ k))) := by
    rw [exec, execHtDump, hvalid]
    rfl
  rw [hexec]
  refine ⟨fun hout => commit_require_of_not _ _ (Nat.not_le.2 hout), fun hin => ?_⟩
  refine ⟨_, by rw [decide_eq_true hin, require_true, ok_bind, pure_eq_ok, commit_ok], rfl, rfl, fun i hi => ⟨?_, ?_⟩,
    fun x hx => ?_⟩
  · exact read?_writeBytes_lutBytes _ a _ hi (j := 0) (by omega)
  · exact read?_writeBytes_lutBytes _ a _ hi (j := 1) (by omega)
  · exact Memory.read?_writeBytes_outside _ (by rwa [lutBytes_length])

end Sys2Proof.Machine
end

section
/-! The decode commands: a codeword ahead in the stream is the symbol decoded, it and the extra bits behind it are taken
from the refilled reader, and a whole table decodes its own code (spec 42_huffman §2, §3). -/

namespace Sys2Proof.Machine

/-! ### A codeword ahead -/

/-- Slot `t` is valid, its codeword `w` stands for the symbol `y`, and `w` begins the stream, of which every byte is
written. -/
structure CodewordAhead (s : State) (t : BitVec 3) (w : Codeword) (y : Byte) : Prop where
  inv : Inv s
  valid : (s.slot t).valid = true
  written : Written s.lmem s.br.pos (s.br.endPos - s.br.pos)
  entry : ∃ k : Nat, (codewords (s.slot t).count)[k]? = some w ∧ (s.slot t).sym[k]? = some y
  ahead : w.bits <+: paddedBits s

/-- The reader `c` is the one BR_REFILL leaves at `s`, with the next `n` bits of the stream taken (R121, R126). -/
def Taken (s : State) (n : Nat) (c : BitReader) : Prop :=
  bitsLeft s.lmem c = (bitsLeft s.lmem s.br).drop n ∧
  c.overrun = (s.br.overrun || decide ((bitsLeft s.lmem s.br).length < n)) ∧
  ∃ v, exec .brRefill s = .next v ∧ c = afterBits v.br n

/-- Taking bits that are all data, or that STRICT does not guard, succeeds (R126). -/
theorem consume_of_data {m : Memory} {b : BitReader} {size n : Nat} {strict : Bool} (hb : BrOk b size)
    (hn : n ≤ b.nbits) (h : strict = false ∨ n ≤ (bitsLeft m b).length) :
    consume b n strict = .ok (peekBits b n, dropBits b n) := by
  have hpad := padTaken_pos_iff (m := m) hb hn
  refine if_neg fun ⟨htaken, hstrict⟩ => ?_
  rcases h with h | h
  · rw [hstrict] at h
    cases h
  · have := hpad.1 htaken
    omega

section Refilled

variable {i : Instr} {s : State} {b : BitReader} (hinv : Inv s) (hr : refill i s.lmem s.br = .ok b)
include hinv hr

/-- The refilled reader shows the stream's first bits. -/
theorem accBits_refill {n : Nat} (hn : n ≤ 57) : accBits b.acc n = (paddedBits s).take n := by
  have hnb := refill_nbits hr hinv.br
  rw [paddedBits, ← refill_bitsLeft hr hinv.br, take_bitsLeft (refill_brOk hr hinv.br) (by omega)]

/-- Bits dropped from the refilled reader are taken from the stream. -/
theorem taken_dropBits {n : Nat} (hn : n ≤ 57) : Taken s n (dropBits b n) := by
  have hok := refill_brOk hr hinv.br
  have hnb := refill_nbits hr hinv.br
  have hleft := refill_bitsLeft hr hinv.br
  have hpad := padTaken_pos_iff (m := s.lmem) hok (n := n) (by omega)
  rw [hleft] at hpad
  refine ⟨by rw [dropBits_bitsLeft hok (by omega), hleft], ?_, _, exec_brRefill_of_ok (refill_instr .brRefill hr),
    dropBits_eq_afterBits b n⟩
  rw [← decide_eq_decide.2 hpad, ← (refill_frame hr hinv.br.pos_le).2.1]
  rfl

/-- Bits taken from the refilled reader behind bits dropped from it: their value and the reader left. -/
theorem consume_dropBits {l z : Nat} (hlz : l + z ≤ 57)
    (hs : s.strict = false ∨ l + z ≤ (bitsLeft s.lmem s.br).length) :
    consume (dropBits b l) z s.strict =
      .ok (bitsValue (((paddedBits s).drop l).take z), dropBits b (l + z)) := by
  have hok := refill_brOk hr hinv.br
  have hnb := refill_nbits hr hinv.br
  have hcn : (dropBits b l).nbits = b.nbits - l := rfl
  have hleft : bitsLeft s.lmem (dropBits b l) = (bitsLeft s.lmem s.br).drop l := (taken_dropBits hinv hr (by omega)).1
  have hbits : accBits (dropBits b l).acc z = ((paddedBits s).drop l).take z := by
    have hshift : accBits (dropBits b l).acc z = (accBits b.acc (l + z)).drop l := accBits_shift b.acc (by omega)
    rw [hshift, accBits_refill hinv hr hlz, List.drop_take, Nat.add_sub_cancel_left]
  rw [consume_of_data (m := s.lmem) (dropBits_brOk hok (by omega)) (by omega)
      (hs.imp_right fun hs => by rw [hleft, List.length_drop]; omega),
    peekBits_eq_bitsValue _ (by omega), hbits, dropBits_dropBits hok.npad_le (by omega)]

end Refilled

section Ahead

variable {s : State} {t : BitVec 3} {w : Codeword} {y : Byte} (h : CodewordAhead s t w y)
include h

theorem CodewordAhead.len_le : w.len ≤ 16 := by
  obtain ⟨k, hw, -⟩ := h.entry
  exact (mem_codewords_len (h.inv.slots t h.valid).count_len (List.mem_of_getElem? hw)).2

/-- The refilled reader's window begins with the codeword, so the slot decodes it (R160, R162). -/
theorem CodewordAhead.decode {i : Instr} {b : BitReader} (hr : refill i s.lmem s.br = .ok b) :
    (s.slot t).decode (b.acc.extractLsb' 48 16) = some (y, w.len) := by
  have hok := h.inv.slots t h.valid
  have hlen := h.len_le
  obtain ⟨k, hw, hy⟩ := h.entry
  have hcode := codewords_code_lt hok.count_len hok.kraft_le (List.mem_of_getElem? hw)
  have hpre : w.bits <+: accBits b.acc 57 := by
    rw [accBits_refill h.inv hr le_rfl]
    exact List.prefix_take_iff.2 ⟨h.ahead, by rw [Codeword.bits_length]; omega⟩
  exact (decodeFindsTheUniqueCodeword _ _ hok).1 k w y hw hy
    ((Codeword.bits_prefix_accBits_iff hlen hcode (by omega) _).1 hpre)

/-- `decode_sym` finds the codeword's symbol and length in the refilled reader, and the codeword can be taken (R162). -/
theorem CodewordAhead.decodeSym_consume (i : Instr) (hs : s.strict = false ∨ w.len ≤ (bitsLeft s.lmem s.br).length) :
    ∃ b, refill i s.lmem s.br = .ok b ∧ decodeSym i t s = .ok (y, w.len, b) ∧
      consume b w.len s.strict = .ok (peekBits b w.len, dropBits b w.len) := by
  have hlen := h.len_le
  obtain ⟨b, hr⟩ := refill_of_written (i := i) h.inv.br.pos_le h.written
  have hnb := refill_nbits hr h.inv.br
  refine ⟨b, hr, ?_, consume_of_data (m := s.lmem) (refill_brOk hr h.inv.br) (by omega)
    (by rwa [refill_bitsLeft hr h.inv.br])⟩
  rw [decodeSym, h.valid, require_true, ok_bind, hr, ok_bind, h.decode hr]
  rfl

/-- The codeword is decoded and taken, and the `z` extra bits behind it are taken too (R162, R164). -/
theorem CodewordAhead.consume_extra (i : Instr) {z : Nat} (hz : z ≤ 15)
    (hs : s.strict = false ∨ w.len + z ≤ (bitsLeft s.lmem s.br).length) :
    ∃ b d, decodeSym i t s = .ok (y, w.len, b) ∧
      consume b w.len s.strict = .ok (peekBits b w.len, dropBits b w.len) ∧
      consume (dropBits b w.len) z s.strict = .ok (bitsValue (((paddedBits s).drop w.len).take z), d) ∧
      Taken s (w.len + z) d := by
  have hlen := h.len_le
  obtain ⟨b, hr, hdec, hcode⟩ := h.decodeSym_consume i (hs.imp_right fun hs => by omega)
  exact ⟨b, _, hdec, hcode, consume_dropBits h.inv hr (by omega) hs, taken_dropBits h.inv hr (by omega)⟩

/-! ### The three commands -/

/-- HT_DECODE with a codeword ahead (R163). -/
theorem CodewordAhead.exec_htDecode (hs : s.strict = false ∨ w.len ≤ (bitsLeft s.lmem s.br).length) :
    ∃ c, Taken s w.len c ∧
      exec (.htDecode t) s = .next (finished ({ s with br := c }.setRes01 (zres y.toNat) (zres w.len))) := by
  have hlen := h.len_le
  obtain ⟨b, hr, hdec, hcode⟩ := h.decodeSym_consume (.htDecode t) hs
  refine ⟨_, taken_dropBits h.inv hr (by omega), ?_⟩
  rw [exec, execHtDecode, hdec, ok_bind, hcode]
  rfl

/-- HT_DECODE_DC with a codeword of a category ahead (R165). -/
theorem CodewordAhead.exec_htDecodeDc (hcat : y.toNat ≤ 11)
    (hs : s.strict = false ∨ w.len + y.toNat ≤ (bitsLeft s.lmem s.br).length) :
    ∃ d, Taken s (w.len + y.toNat) d ∧ exec (.htDecodeDc t) s = .next (finished ({ s with br := d }.setRes01
      (sres (extend (bitsValue (((paddedBits s).drop w.len).take y.toNat)) y.toNat)) (zres y.toNat))) := by
  obtain ⟨b, d, hdec, hcode, hextra, htaken⟩ := h.consume_extra (.htDecodeDc t) (by omega) hs
  refine ⟨d, htaken, ?_⟩
  rw [exec, execHtDecodeDc, hdec, ok_bind, decide_eq_true hcat, require_true, ok_bind, hcode, ok_bind, hextra]
  rfl

/-- HT_DECODE_AC with a codeword of a run and a size ahead (R166). -/
theorem CodewordAhead.exec_htDecodeAc
    (hs : s.strict = false ∨ w.len + y.toNat % 16 ≤ (bitsLeft s.lmem s.br).length) :
    ∃ d, Taken s (w.len + y.toNat % 16) d ∧ exec (.htDecodeAc t) s = .next (finished ({ s with br := d }.setRes012
      (sres (extend (bitsValue (((paddedBits s).drop w.len).take (y.toNat % 16))) (y.toNat % 16))) (zres y.toNat)
      (zres (acKind (y.toNat / 16) (y.toNat % 16))))) := by
  obtain ⟨b, d, hdec, hcode, hextra, htaken⟩ := h.consume_extra (.htDecodeAc t) (by omega) hs
  refine ⟨d, htaken, ?_⟩
  rw [exec, execHtDecodeAc, hdec, ok_bind, hcode, ok_bind]
  dsimp only
  rw [hextra]
  rfl

end Ahead

/-- Settles O47: the codeword ahead is decoded and taken. -/
theorem htDecodeConsumesOneCodeword : Obligations.HtDecodeConsumesOneCodeword := by
  intro s t k w y hinv hvalid hwritten hw hy hahead hs
  obtain ⟨c, htaken, hexec⟩ := CodewordAhead.exec_htDecode ⟨hinv, hvalid, hwritten, ⟨k, hw, hy⟩, hahead⟩ hs
  exact ⟨_, hexec, rfl, rfl, htaken⟩

/-- Settles O48: the codeword ahead is decoded and taken, then its category's extra bits. -/
theorem htDecodeDcReturnsTheDifference : Obligations.HtDecodeDcReturnsTheDifference := by
  intro s t k w y hinv hvalid hwritten hw hy hahead hcat hs raw
  obtain ⟨d, htaken, hexec⟩ := CodewordAhead.exec_htDecodeDc ⟨hinv, hvalid, hwritten, ⟨k, hw, hy⟩, hahead⟩ hcat hs
  exact ⟨_, hexec, rfl, rfl, htaken⟩

/-- The kind of an AC symbol as RES2 shows it (R166, R168). -/
theorem zres_acKind (r z : Nat) :
    zres (acKind r z) = if z ≠ 0 then 0 else if r = 0 then 1 else if r = 15 then 2 else 3 := by
  rw [acKind, apply_ite zres, apply_ite zres, apply_ite zres]
  rfl

/-- Settles O49: the codeword ahead is decoded and taken, then its size's extra bits. -/
theorem htDecodeAcReturnsRunAndSize : Obligations.HtDecodeAcReturnsRunAndSize := by
  intro s t k w y hinv hvalid hwritten hw hy hahead run size hs raw
  obtain ⟨d, htaken, hexec⟩ := CodewordAhead.exec_htDecodeAc ⟨hinv, hvalid, hwritten, ⟨k, hw, hy⟩, hahead⟩ hs
  refine ⟨_, hexec, rfl, ?_, htaken⟩
  rw [← zres_acKind]
  rfl

/-! ### A table decodes its own code -/

/-- Taking bits moves the reader on in its segment, which stays written. -/
theorem Taken.written {s : State} {n : Nat} {c : BitReader} (hinv : Inv s)
    (hw : Written s.lmem s.br.pos (s.br.endPos - s.br.pos)) (h : Taken s n c) :
    Written s.lmem c.pos (c.endPos - c.pos) := by
  obtain ⟨-, -, v, hv, rfl⟩ := h
  obtain ⟨b, hr⟩ := refill_of_written (i := .brRefill) hinv.br.pos_le hw
  obtain rfl : { finished s with br := b } = v := by
    rw [exec_brRefill_of_ok hr] at hv
    exact Host.Outcome.next.inj hv
  obtain ⟨hend, -, hlo, hhi⟩ := refill_frame hr hinv.br.pos_le
  intro j hj
  change j < b.endPos - b.pos at hj
  have := hw (b.pos - s.br.pos + j) (by omega)
  rwa [show s.br.pos + (b.pos - s.br.pos + j) = b.pos + j by omega] at this

/-- From a stream that begins with the codewords of some entries of slot `t`, HT_DECODE returns these entries. -/
theorem decodeRun_of_entries {t : BitVec 3} {es : List (Byte × Codeword)} {s : State} (hinv : Inv s)
    (hvalid : (s.slot t).valid = true) (herr : s.err = none)
    (hw : Written s.lmem s.br.pos (s.br.endPos - s.br.pos))
    (hes : ∀ e ∈ es, ∃ k : Nat, (codewords (s.slot t).count)[k]? = some e.2 ∧ (s.slot t).sym[k]? = some e.1)
    (hbits : es.flatMap (fun e => e.2.bits) <+: bitsLeft s.lmem s.br) :
    decodeRun t es.length s =
      some (es.map (fun e => (BitVec.ofNat 32 e.1.toNat, BitVec.ofNat 32 e.2.len))) := by
  induction es generalizing s with
  | nil => rfl
  | cons e es ih =>
    rw [List.flatMap_cons] at hbits
    have hfirst : e.2.bits <+: bitsLeft s.lmem s.br := (List.prefix_append _ _).trans hbits
    have hlen : e.2.len ≤ (bitsLeft s.lmem s.br).length := by simpa using hfirst.length_le
    have hahead : CodewordAhead s t e.2 e.1 :=
      ⟨hinv, hvalid, hw, hes e List.mem_cons_self, hfirst.trans (List.prefix_append _ _)⟩
    obtain ⟨c, htaken, hexec⟩ := hahead.exec_htDecode (.inr hlen)
    have hrest : es.flatMap (fun e => e.2.bits) <+: bitsLeft s.lmem c := by
      have := hbits.drop e.2.len
      rwa [← e.2.bits_length, List.drop_left, e.2.bits_length, ← htaken.1] at this
    have hwritten := htaken.written hinv hw
    have hrun := ih (exec_keeps_inv hinv hexec) hvalid herr hwritten
      (fun f hf => hes f (List.mem_cons_of_mem _ hf)) hrest
    have hnoerr : (finished ({ s with br := c }.setRes01 (zres e.1.toNat) (zres e.2.len))).err.isSome = false := by
      show s.err.isSome = false
      rw [herr]
      rfl
    rw [List.length_cons, decodeRun, hexec]
    simp only [hnoerr, hrun]
    rfl

/-- Settles O51: the entries are the symbols with their codewords, as many as `nsyms` says. -/
theorem symbolsRoundTrip : Obligations.SymbolsRoundTrip := by
  intro s t hinv hvalid herr hw hbits
  have hok := hinv.slots t hvalid
  have hlen : (s.slot t).sym.length = (codewords (s.slot t).count).length := by
    rw [hok.sym_len, hok.nsyms_eq, codewords_length]
  have hcodes : ((s.slot t).sym.zip (codewords (s.slot t).count)).map Prod.snd = codewords (s.slot t).count :=
    List.map_snd_zip hlen.ge
  have hcount : ((s.slot t).sym.zip (codewords (s.slot t).count)).length = (s.slot t).nsyms := by
    rw [List.length_zip, ← hlen, Nat.min_self, hok.sym_len]
  rw [← hcount]
  refine decodeRun_of_entries hinv hvalid herr hw (fun e he => ?_) ?_
  · obtain ⟨k, hk⟩ := List.mem_iff_getElem?.1 he
    obtain ⟨hsym, hcode⟩ := List.getElem?_zip_eq_some.1 hk
    exact ⟨k, hcode, hsym⟩
  · rwa [← List.flatMap_map, hcodes]

end Sys2Proof.Machine
end

section
/-! IDCT: the block stored row by row, and the kernel: the reference kernel is the rules' two passes, DC-only blocks are
flat, and small coefficients never wrap (spec 43_idct). -/

namespace Sys2Proof.Machine

/-! ### The command -/

/-- Words standing little-endian in LMEM are the words read (R71). -/
theorem readWords_of_holdsWords {i : Instr} {m : Memory} {a : Nat} {ws : List Word} (h : HoldsWords m a ws) :
    readWords i m a ws.length = .ok ws :=
  readWords_ok_of fun j hj k hk => (h j hj k hk).trans (leBytes_toNat_getElem? _ hk).symm

/-- IDCT with its regions in LMEM and its coefficients written (R191). -/
theorem exec_idct_of_holdsWords {s : State} {c : List Word} (h64 : c.length = 64)
    (hin : InLmem s [(s.opnd0, 256), (s.opnd1 + 7 * s.opnd2, 8)]) (hc : HoldsWords s.lmem s.opnd0 c) :
    exec .idct s = .next (finished
      { s with lmem := s.lmem.writeCells (blockCells s.opnd1 s.opnd2 (idctKernel s.params.kernel c)) }) := by
  have hread : readWords .idct s.lmem s.opnd0 64 = .ok c := h64 ▸ readWords_of_holdsWords hc
  rw [exec, execIdct, checkRegions_eq_ok.2 hin, ok_bind, hread]
  rfl

/-- A sample of the block is read at its address unless a later row covers it: behind it in its own row the addresses
are larger (R202). -/
theorem Memory.read?_blockCells (m : Memory) {oa st r x : Nat} (o : List Byte) (hr : r < 8) (hx : x < 8)
    (hlater : ∀ r' x', r < r' → r' < 8 → x' < 8 → oa + r' * st + x' ≠ oa + r * st + x) :
    (m.writeCells (blockCells oa st o)).read? (oa + r * st + x) = some (o.getD (8 * r + x) 0) := by
  have hrow : (8 * r + x) / 8 = r := by omega
  have hcol : (8 * r + x) % 8 = x := by omega
  rw [blockCells_split o (show 8 * r + x < 64 by omega), hrow, hcol]
  refine Memory.read?_writeCells_last (fun cell hcell => ?_) m
  simp only [List.map_map, List.mem_map, List.mem_range, Function.comp_apply] at hcell
  obtain ⟨j, hj, rfl⟩ := hcell
  generalize hk : 8 * r + x + 1 + j = k
  rcases (show r ≤ k / 8 by omega).eq_or_lt with hsame | hbelow
  · simp only [← hsame]
    omega
  · exact hlater (k / 8) (k % 8) hbelow (by omega) (by omega)

/-- Settles O53: the command reads the coefficients and stores the block; the last cell naming an address is what is
read there. -/
theorem idctStoresTheBlock : Obligations.IdctStoresTheBlock := by
  intro s c h64 ca oa st hca hoa hc
  have hin : InLmem s [(s.opnd0, 256), (s.opnd1 + 7 * s.opnd2, 8)] := by
    simp only [InLmem, List.forall_mem_cons]
    exact ⟨hca, hoa, List.forall_mem_nil _⟩
  have hexec := exec_idct_of_holdsWords h64 hin hc
  generalize hm : s.lmem.writeCells _ = m at hexec
  refine ⟨_, hexec, rfl, fun r x hr hx hlater => ?_, fun a ha => ?_⟩
  · change m.read? _ = _
    rw [← hm]
    exact Memory.read?_blockCells s.lmem _ hr hx hlater
  · change m.read? a = _
    rw [← hm]
    refine Memory.read?_writeCells_of_notMem (fun cell hcell => ?_) _
    obtain ⟨k, hk, rfl⟩ := mem_blockCells hcell
    exact (ha (k / 8) (k % 8) (by omega) (by omega)).symm

/-! ### The rules' kernel as passes over eight places -/

/-- One pass of the rules over the eight values `v 0` to `v 7`. -/
def rulePassOn (wrap : Int → Int) (bias : Int) (sh : Nat) (v : Nat → Int) : List Int :=
  rulePass wrap bias sh (v 0) (v 1) (v 2) (v 3) (v 4) (v 5) (v 6) (v 7)

/-- Column `u` of the column pass (R198). -/
def ruleColumn (wrap : Int → Int) (c : List Int) (u : Nat) : List Int :=
  rulePassOn wrap 512 10 (fun k => c.getD (8 * k + u) 0)

/-- Row `r` of the row pass, before the clamp (R199). -/
def ruleRow (wrap : Int → Int) (c : List Int) (r : Nat) : List Int :=
  rulePassOn wrap 16842752 17 (fun u => (ruleColumn wrap c u).getD r 0)

theorem ruleKernel_eq (wrap : Int → Int) (c : List Int) :
    ruleKernel wrap c =
      (List.range 8).flatMap (fun r => (ruleRow wrap c r).map (fun x => max 0 (min 255 x))) := by
  simp only [ruleKernel, ruleRow, ruleColumn, rulePassOn, Nat.reduceMul, Nat.zero_add]

/-! ### The reference kernel is the rules' kernel (R196 to R199) -/

theorem at32_toInt (c : List Word) (k : Nat) : (at32 c k).toInt = (c.map BitVec.toInt).getD k 0 :=
  (List.getD_map (l := c) (d := 0) BitVec.toInt).symm

theorem columnPass_toInt (c : List Word) (u : Nat) :
    (columnPass c u).map BitVec.toInt = ruleColumn wrap32 (c.map BitVec.toInt) u := by
  rw [columnPass, passOut_toInt]
  simp [at32_toInt, ruleColumn, rulePassOn]

theorem colAt_columns_toInt (c : List Word) {u : Nat} (hu : u < 8) (r : Nat) :
    (colAt (columns c) u r).toInt = (ruleColumn wrap32 (c.map BitVec.toInt) u).getD r 0 := by
  have hcol : (columns c).getD u [] = columnPass c u := by simp [columns, hu]
  rw [colAt, hcol, at32_toInt, columnPass_toInt]

theorem rowPass_toInt (c : List Word) (r : Nat) :
    (rowPass (columns c) r).map BitVec.toInt = ruleRow wrap32 (c.map BitVec.toInt) r := by
  rw [rowPass, passOut_toInt]
  simp [colAt_columns_toInt, ruleRow, rulePassOn]

theorem referenceKernel_toNat (c : List Word) :
    (referenceKernel c).map (fun b => (b.toNat : Int)) = ruleKernel wrap32 (c.map BitVec.toInt) := by
  rw [referenceKernel, List.map_flatMap, ruleKernel_eq]
  simp only [← rowPass_toInt, List.map_map, Function.comp_def, clamp255_toNat]

/-! ### Without wraps (R200) -/

/-- Both signs of `x` are at most `M`. -/
abbrev Within (M x : Int) : Prop := -M ≤ x ∧ x ≤ M

/-- What holds of every element of a list and of the default holds of every place. -/
theorem getD_of_forall_mem {α : Type} {p : α → Prop} {l : List α} {d : α} (hl : ∀ x ∈ l, p x) (hd : p d) (k : Nat) :
    p (l.getD k d) := by
  rw [List.getD_eq_getElem?_getD]
  cases h : l[k]? with
  | none => exact hd
  | some x => exact hl x (List.mem_of_getElem? h)

section Pass

variable {M bias : Int} {sh : Nat} {v : Nat → Int}

/-- While 30610 times the inputs, and the bias, fit 32 signed bits, a pass has no wrap that changes a value. -/
theorem rulePassOn_wrap32_eq_id (hv : ∀ k, Within M (v k)) (hlo : -2147483648 ≤ -(30610 * M) + bias)
    (hhi : 30610 * M + bias < 2147483648) : rulePassOn wrap32 bias sh v = rulePassOn id bias sh v := by
  refine rulePass_wrap32_eq_id fun x hx => ?_
  have hb := passForms_bound (hv 0) (hv 1) (hv 2) (hv 3) (hv 4) (hv 5) (hv 6) (hv 7) x hx
  omega

theorem rulePassOn_id_bound (hv : ∀ k, Within M (v k)) :
    ∀ y ∈ rulePassOn id bias sh v, (-(30610 * M) + bias) / 2 ^ sh ≤ y ∧ y ≤ (30610 * M + bias) / 2 ^ sh := by
  intro y hy
  rw [rulePassOn, rulePass_id] at hy
  obtain ⟨x, hx, rfl⟩ := List.mem_map.1 hy
  have hb := passForms_bound (hv 0) (hv 1) (hv 2) (hv 3) (hv 4) (hv 5) (hv 6) (hv 7) x hx
  exact ⟨Int.ediv_le_ediv (by positivity) hb.1, Int.ediv_le_ediv (by positivity) hb.2⟩

/-- A pass whose other seven inputs are zero gives its first, scaled, in all eight places. -/
theorem rulePassOn_dc (hv : ∀ k, 0 < k → v k = 0) :
    rulePassOn wrap32 bias sh v = List.replicate 8 (wrap32 (v 0 * 4096 + bias) / 2 ^ sh) := by
  simp [rulePassOn, rulePass_wrap32, passForms, hv, List.replicate]

end Pass

section Small

variable {c : List Int} (hc : ∀ x ∈ c, Within 2328 x)
include hc

theorem ruleColumn_wrap32_eq_id (u : Nat) : ruleColumn wrap32 c u = ruleColumn id c u :=
  rulePassOn_wrap32_eq_id (fun _ => getD_of_forall_mem hc (by decide) _) (by decide) (by decide)

/-- The intermediates of such a block are at most 69591 in size. -/
theorem ruleColumn_within (u r : Nat) : Within 69591 ((ruleColumn id c u).getD r 0) := by
  refine getD_of_forall_mem (fun y hy => ?_) (by decide) r
  have hb := rulePassOn_id_bound (fun _ => getD_of_forall_mem hc (by decide) _) y hy
  omega

theorem ruleRow_wrap32_eq_id (r : Nat) : ruleRow wrap32 c r = ruleRow id c r := by
  simp only [ruleRow, ruleColumn_wrap32_eq_id hc]
  exact rulePassOn_wrap32_eq_id (fun u => ruleColumn_within hc u r) (by decide) (by decide)

theorem ruleKernel_wrap32_eq_id : ruleKernel wrap32 c = ruleKernel id c := by
  simp only [ruleKernel_eq, ruleRow_wrap32_eq_id hc]

end Small

/-! ### DC-only blocks (R194, R195) -/

/-- The value of both passes on a DC-only block, before the clamp. -/
def dcPasses (d : Int) : Int := wrap32 (wrap32 (d * 4096 + 512) / 2 ^ 10 * 4096 + 16842752) / 2 ^ 17

/-- Column 0 of a DC-only block holds the scaled DC coefficient in all eight places, the other columns hold zeros. -/
theorem ruleColumn_dc (d : Int) (u : Nat) :
    ruleColumn wrap32 (d :: List.replicate 63 0) u =
      List.replicate 8 (if u = 0 then wrap32 (d * 4096 + 512) / 2 ^ 10 else 0) := by
  have hzero : ∀ k, 0 < k → (d :: List.replicate 63 0).getD k 0 = 0 := by
    rintro (_ | k) hk
    · omega
    · exact getD_of_forall_mem (p := (· = 0)) (fun x hx => List.eq_of_mem_replicate hx) rfl k
  rw [ruleColumn, rulePassOn_dc fun k hk => hzero _ (by omega)]
  split
  case isTrue h => rw [h]; rfl
  case isFalse h => rw [hzero _ (by omega)]; rfl

theorem ruleRow_dc (d : Int) {r : Nat} (hr : r < 8) :
    ruleRow wrap32 (d :: List.replicate 63 0) r = List.replicate 8 (dcPasses d) := by
  have hcol : ∀ u, (ruleColumn wrap32 (d :: List.replicate 63 0) u).getD r 0 =
      if u = 0 then wrap32 (d * 4096 + 512) / 2 ^ 10 else 0 := by
    intro u
    rw [ruleColumn_dc, List.getD_replicate _ hr]
  simp only [ruleRow, hcol]
  exact rulePassOn_dc fun u hu => if_neg (by omega)

theorem ruleKernel_dc (d : Int) :
    ruleKernel wrap32 (d :: List.replicate 63 0) = List.replicate 64 (max 0 (min 255 (dcPasses d))) := by
  rw [ruleKernel_eq]
  calc _ = (List.range 8).flatMap (fun _ => List.replicate 8 (max 0 (min 255 (dcPasses d)))) :=
        List.flatMap_congr fun r hr => by rw [ruleRow_dc d (List.mem_range.1 hr), List.map_replicate]
    _ = _ := rfl

/-- The reference kernel has no short cut, but its samples on a DC-only block are equal (R194). -/
theorem referenceKernel_dc (d : Word) :
    referenceKernel (d :: List.replicate 63 0) = List.replicate 64 (clamp255 (dcPasses d.toInt)) := by
  have hinj : Function.Injective (fun b : Byte => (b.toNat : Int)) :=
    fun _ _ h => BitVec.eq_of_toNat_eq (Int.ofNat_inj.1 h)
  apply List.map_injective_iff.2 hinj
  rw [referenceKernel_toNat, List.map_cons, List.map_replicate, List.map_replicate, clamp255_toNat]
  exact ruleKernel_dc d.toInt

/-- In this range neither pass wraps; the row pass's bias rounds and shifts the level (R195). -/
theorem dcPasses_eq {d : Int} (hlo : -132100 ≤ d) (hhi : d ≤ 130043) : dcPasses d = (d + 4) / 8 + 128 := by
  have hcolumn : wrap32 (d * 4096 + 512) / 2 ^ 10 = 4 * d := by
    rw [wrap32_of_lt (by omega) (by omega)]
    omega
  rw [dcPasses, hcolumn, wrap32_of_lt (by omega) (by omega)]
  omega

/-- The reference kernel's sample on a DC-only block, in the range it does not wrap in. -/
theorem clamp255_dcPasses_toNat {d : Int} (hlo : -132100 ≤ d) (hhi : d ≤ 130043) :
    ((clamp255 (dcPasses d)).toNat : Int) = max 0 (min 255 ((d + 4) / 8 + 128)) := by
  rw [clamp255_toNat, dcPasses_eq hlo hhi]

theorem dcval_toNat (d : Int) : ((dcval d).toNat : Int) = max 0 (min 255 ((d + 4) / 8 + 128)) := clamp255_toNat _

/-- Any other kernel repeats one sample on a DC-only block, the rule's in the rule's range. -/
theorem idctKernel_other_dc (n : Nat) (d : Word) :
    idctKernel (.other n) (d :: List.replicate 63 0) = List.replicate 64
      (if dcInRange d.toInt then dcval d.toInt else Config.idctSample n (d :: List.replicate 63 0) 0) := by
  have hdc : dcOnly (d :: List.replicate 63 0) = true := by simp [dcOnly]
  rw [idctKernel, if_pos hdc]
  rfl

/-- Settles O54: the flat blocks kernel by kernel, the two passes of the reference kernel, and their domain without
wraps. -/
theorem dcOnlyBlocksAreFlat : Obligations.DcOnlyBlocksAreFlat := by
  refine ⟨fun k d => ?_, fun d hlo hhi => ?_, referenceKernel_toNat, fun c hc => ruleKernel_wrap32_eq_id hc⟩
  · cases k with
    | reference =>
      exact ⟨_, referenceKernel_dc d, fun hlo hhi => clamp255_dcPasses_toNat (by omega) (by omega)⟩
    | other n =>
      refine ⟨_, idctKernel_other_dc n d, fun hlo hhi => ?_⟩
      rw [if_pos (by simp [dcInRange, hlo, hhi])]
      exact dcval_toNat d.toInt
  · exact ⟨_, referenceKernel_dc d, clamp255_dcPasses_toNat hlo hhi⟩

end Sys2Proof.Machine
end

section
/-! The upsampler, and the grey conversion that copies as it does: the row copy, the triangle filter along a row and
across two rows, and the two composed (spec 44_upsampler; 45_color R238). -/

namespace Sys2Proof.Machine

/-! ### Commands that store one run of bytes -/

/-- A command that completes with `bs` stored from `out` on: the bytes stand there, and all else is unchanged (R36,
R81). -/
theorem stored_completes {i : Instr} {s : State} {out n : Nat} {bs : List Byte}
    (hexec : exec i s = .next (finished { s with lmem := s.lmem.writeBytes out bs })) (hn : bs.length = n) :
    ∃ u, exec i s = .next u ∧ u = { finished s with lmem := u.lmem } ∧ Holds u.lmem out bs ∧
      ∀ x, x < out ∨ out + n ≤ x → u.lmem.read? x = s.lmem.read? x :=
  ⟨_, hexec, rfl, fun _ hj => Memory.read?_writeBytes_inside s.lmem hj,
    fun _ hx => Memory.read?_writeBytes_outside s.lmem (hn ▸ hx)⟩

/-- Bytes standing in LMEM are the bytes read. -/
theorem readBytes_of_holds {i : Instr} {m : Memory} {a n : Nat} {bs : List Byte} (hn : bs.length = n)
    (h : Holds m a bs) : readBytes i m a n = .ok bs :=
  readBytes_ok_iff.2 ⟨hn, h⟩

/-- The three rows UPS_V and UPS_HV read, when they are written (R215, R217). -/
theorem readRows_of_holds {i : Instr} {s : State} {c n f : List Byte}
    (hcw : c.length = s.opnd4) (hnw : n.length = s.opnd4) (hfw : f.length = s.opnd4)
    (hc : Holds s.lmem s.opnd0 c) (hn : Holds s.lmem s.opnd1 n) (hf : Holds s.lmem s.opnd2 f) :
    readRows i s = .ok (c, n, f) := by
  rw [readRows, readBytes_of_holds hcw hc, ok_bind, readBytes_of_holds hnw hn, ok_bind, readBytes_of_holds hfw hf]
  rfl

/-- Regions are in LMEM one by one. -/
theorem inLmem_cons {s : State} {a n : Nat} {rs : List (Nat × Nat)} (h : a + n ≤ s.params.lmemSize)
    (hrs : InLmem s rs) : InLmem s ((a, n) :: rs) :=
  List.forall_mem_cons.2 ⟨h, hrs⟩

theorem inLmem_nil (s : State) : InLmem s [] := List.forall_mem_nil _

/-! ### Bytes standing in LMEM -/

theorem Holds.byteIs {m : Memory} {a j : Nat} {bs : List Byte} (h : Holds m a bs) (hj : j < bs.length) :
    ByteIs m (a + j) (at8 bs j).toNat :=
  ⟨bs[j], (h j hj).trans (List.getElem?_eq_getElem hj), by rw [at8, List.getD_eq_getElem _ _ hj]⟩

/-- Two rows stored one after the other: the first. -/
theorem Holds.of_append_left {m : Memory} {a : Nat} {bs cs : List Byte} (h : Holds m a (bs ++ cs)) : Holds m a bs :=
  fun j hj => (h j (by rw [List.length_append]; omega)).trans (List.getElem?_append_left hj)

/-- Two rows stored one after the other: the second. -/
theorem Holds.of_append_right {m : Memory} {a n : Nat} {bs cs : List Byte} (h : Holds m a (bs ++ cs))
    (hn : bs.length = n) : Holds m (a + n) cs := by
  intro j hj
  subst hn
  rw [Nat.add_assoc, h _ (by rw [List.length_append]; omega), List.getElem?_append_right (by omega),
    Nat.add_sub_cancel_left]

/-! ### Rows by their values -/

/-- A row of `w` samples whose values are `r 0` to `r (w-1)`. -/
structure RowIs (row : List Byte) (w : Nat) (r : Nat → Nat) : Prop where
  length : row.length = w
  value : ∀ i, i < w → (at8 row i).toNat = r i

theorem RowIs.of_length {row : List Byte} {w : Nat} (h : row.length = w) :
    RowIs row w (fun i => (row.getD i 0).toNat) :=
  ⟨h, fun _ _ => rfl⟩

theorem RowIs.hrow_length {row : List Byte} {w : Nat} {r : Nat → Nat} (h : RowIs row w r) :
    (hrow row).length = 2 * w := by
  rw [Machine.hrow_length, h.length]

/-- The vertical row function by values (R215, R219). -/
theorem RowIs.of_vrow {c n : List Byte} {w : Nat} (hc : c.length = w) (hn : n.length = w) :
    RowIs (vrow c n) w (fun i => (3 * (c.getD i 0).toNat + (n.getD i 0).toNat + 2) / 4) := by
  refine ⟨by rw [vrow_length, hc, hn, Nat.min_self], fun i hi => ?_⟩
  rw [at8, List.getD_eq_getElem?_getD, vrow_getElem? c n (hc ▸ hi) (hn ▸ hi)]
  exact tri_toNat _ _

/-- Both outputs of sample `i` of a row, as elements of the row twice as wide (R214). -/
theorem at8_hrow {row : List Byte} {i j : Nat} (hi : i < row.length) (hj : j < 2) :
    at8 (hrow row) (2 * i + j) = at8 (hpair row i) j := by
  rw [at8, at8, List.getD_eq_getElem?_getD, List.getD_eq_getElem?_getD, hrow_getElem? hi hj]

section
variable {row : List Byte} {w i : Nat} {r : Nat → Nat} (h : RowIs row w r) (hi : i < w)
include h hi

/-- The left output of a sample by values: the first sample is its own left neighbour (R214, R219). -/
theorem RowIs.hrow_left :
    (at8 (hrow row) (2 * i)).toNat = (3 * r i + (if i = 0 then r 0 else r (i - 1)) + 2) / 4 := by
  have hout : at8 (hrow row) (2 * i) = tri (at8 row i) (at8 row (i - 1)) :=
    at8_hrow (h.length.symm ▸ hi) (j := 0) (by omega)
  rw [hout, tri_toNat, h.value i hi, h.value (i - 1) (by omega)]
  split
  · rw [‹i = 0›]
  · rfl

/-- The right output of a sample by values: the last sample is its own right neighbour (R214, R219). -/
theorem RowIs.hrow_right :
    (at8 (hrow row) (2 * i + 1)).toNat = (3 * r i + (if i + 1 = w then r i else r (i + 1)) + 2) / 4 := by
  have hout : at8 (hrow row) (2 * i + 1) = tri (at8 row i) (at8 row (min (i + 1) (row.length - 1))) :=
    at8_hrow (h.length.symm ▸ hi) (j := 1) (by omega)
  rw [hout, tri_toNat, h.value i hi, h.length, h.value _ (by omega)]
  split
  · rw [show min (i + 1) (w - 1) = i by omega]
  · rw [show min (i + 1) (w - 1) = i + 1 by omega]

/-- The outputs of a sample where the horizontal interpolation of its row stands (R213, R214). -/
theorem RowIs.byteIs_hrow {m : Memory} {a : Nat} (hout : Holds m a (hrow row)) :
    ByteIs m (a + 2 * i) ((3 * r i + (if i = 0 then r 0 else r (i - 1)) + 2) / 4) ∧
    ByteIs m (a + 2 * i + 1) ((3 * r i + (if i + 1 = w then r i else r (i + 1)) + 2) / 4) := by
  have hlen := h.hrow_length
  rw [← h.hrow_left hi, ← h.hrow_right hi]
  exact ⟨hout.byteIs (j := 2 * i) (by omega), hout.byteIs (j := 2 * i + 1) (by omega)⟩

theorem RowIs.byteIs {m : Memory} {a : Nat} (hout : Holds m a row) : ByteIs m (a + i) (r i) :=
  h.value i hi ▸ hout.byteIs (h.length.symm ▸ hi)

end

/-! ### The rules, with their regions in LMEM and their rows written -/

/-- UPS_NONE (R212). -/
theorem exec_upsNone_of_row {s : State} {row : List Byte}
    (hin : InLmem s [(s.opnd0, s.opnd4), (s.opnd3, s.opnd4)])
    (hread : readBytes .upsNone s.lmem s.opnd0 s.opnd4 = .ok row) :
    exec .upsNone s = .next (finished { s with lmem := s.lmem.writeBytes s.opnd3 row }) := by
  rw [exec, execUpsNone, checkRegions_eq_ok.2 hin, ok_bind, hread]
  rfl

/-- CC_GRAY (R238). -/
theorem exec_ccGray_of_row {s : State} {row : List Byte}
    (hin : InLmem s [(s.opnd0, s.opnd4), (s.opnd3, s.opnd4)])
    (hread : readBytes .ccGray s.lmem s.opnd0 s.opnd4 = .ok row) :
    exec .ccGray s = .next (finished { s with lmem := s.lmem.writeBytes s.opnd3 row }) := by
  rw [exec, execCcGray, checkRegions_eq_ok.2 hin, ok_bind, hread]
  rfl

/-- UPS_H (R213). -/
theorem exec_upsH_of_row {s : State} {row : List Byte}
    (hin : InLmem s [(s.opnd0, s.opnd4), (s.opnd3, 2 * s.opnd4)])
    (hread : readBytes .upsH s.lmem s.opnd0 s.opnd4 = .ok row) :
    exec .upsH s = .next (finished { s with lmem := s.lmem.writeBytes s.opnd3 (hrow row) }) := by
  rw [exec, execUpsH, checkRegions_eq_ok.2 hin, ok_bind, hread]
  rfl

/-- UPS_V (R215). -/
theorem exec_upsV_of_rows {s : State} {c n f : List Byte}
    (hin : InLmem s [(s.opnd0, s.opnd4), (s.opnd1, s.opnd4), (s.opnd2, s.opnd4), (s.opnd3, 2 * s.opnd4)])
    (hread : readRows .upsV s = .ok (c, n, f)) :
    exec .upsV s = .next (finished { s with lmem := s.lmem.writeBytes s.opnd3 (vrow c n ++ vrow c f) }) := by
  rw [exec, execUpsV, checkRegions_eq_ok.2 hin, ok_bind, hread]
  rfl

/-- UPS_HV (R217). -/
theorem exec_upsHv_of_rows {s : State} {c n f : List Byte}
    (hin : InLmem s [(s.opnd0, s.opnd4), (s.opnd1, s.opnd4), (s.opnd2, s.opnd4), (s.opnd3, 4 * s.opnd4)])
    (hread : readRows .upsHv s = .ok (c, n, f)) :
    exec .upsHv s = .next (finished
      { s with lmem := s.lmem.writeBytes s.opnd3 (hrow (vrow c n) ++ hrow (vrow c f)) }) := by
  rw [exec, execUpsHv, checkRegions_eq_ok.2 hin, ok_bind, hread]
  rfl

/-! ### The statements -/

/-- Settles O55: both rules check the input and the output, read the row and store it. -/
theorem upsNoneAndGrayCopy : Obligations.UpsNoneAndGrayCopy := by
  intro s row i hi src out w hw hsrc hout hholds
  have hin : InLmem s [(s.opnd0, s.opnd4), (s.opnd3, s.opnd4)] := inLmem_cons hsrc (inLmem_cons hout (inLmem_nil s))
  simp only [List.mem_cons, List.not_mem_nil, or_false] at hi
  rcases hi with rfl | rfl
  · exact stored_completes (exec_upsNone_of_row hin (readBytes_of_holds hw hholds)) hw
  · exact stored_completes (exec_ccGray_of_row hin (readBytes_of_holds hw hholds)) hw

/-- Settles O56: UPS_H stores the horizontal interpolation of the row. -/
theorem upsHInterpolatesTheRow : Obligations.UpsHInterpolatesTheRow := by
  intro s row src out w at' hw hsrc hout hholds
  have hin : InLmem s [(s.opnd0, s.opnd4), (s.opnd3, 2 * s.opnd4)] :=
    inLmem_cons hsrc (inLmem_cons hout (inLmem_nil s))
  have hr := RowIs.of_length hw
  obtain ⟨u, hexec, hrest, hbytes, hframe⟩ :=
    stored_completes (exec_upsH_of_row hin (readBytes_of_holds hw hholds)) hr.hrow_length
  exact ⟨u, hexec, hrest, fun i hi => hr.byteIs_hrow hi hbytes, hframe⟩

/-- Settles O57: UPS_V stores the two vertical interpolations, the upper row and then the lower one. -/
theorem upsVInterpolatesTwoRows : Obligations.UpsVInterpolatesTwoRows := by
  intro s cur near far out w hcur hnear hfar hin0 hin1 hin2 hin3 hc hn hf
  have hin : InLmem s [(s.opnd0, s.opnd4), (s.opnd1, s.opnd4), (s.opnd2, s.opnd4), (s.opnd3, 2 * s.opnd4)] :=
    inLmem_cons hin0 (inLmem_cons hin1 (inLmem_cons hin2 (inLmem_cons hin3 (inLmem_nil s))))
  have hup := RowIs.of_vrow hcur hnear
  have hlo := RowIs.of_vrow hcur hfar
  have hlen : (vrow cur near ++ vrow cur far).length = 2 * w := by
    rw [List.length_append, hup.length, hlo.length, Nat.two_mul]
  obtain ⟨u, hexec, hrest, hbytes, hframe⟩ :=
    stored_completes (exec_upsV_of_rows hin (readRows_of_holds hcur hnear hfar hc hn hf)) hlen
  exact ⟨u, hexec, hrest, fun i hi =>
    ⟨hup.byteIs hi hbytes.of_append_left, hlo.byteIs hi (hbytes.of_append_right hup.length)⟩, hframe⟩

/-- Settles O58: UPS_HV stores the horizontal interpolations of the two vertical ones. -/
theorem upsHvComposesVerticalThenHorizontal : Obligations.UpsHvComposesVerticalThenHorizontal := by
  intro s cur near far out w up lo left right hcur hnear hfar hin0 hin1 hin2 hin3 hc hn hf
  have hin : InLmem s [(s.opnd0, s.opnd4), (s.opnd1, s.opnd4), (s.opnd2, s.opnd4), (s.opnd3, 4 * s.opnd4)] :=
    inLmem_cons hin0 (inLmem_cons hin1 (inLmem_cons hin2 (inLmem_cons hin3 (inLmem_nil s))))
  have hup := RowIs.of_vrow hcur hnear
  have hlo := RowIs.of_vrow hcur hfar
  have hlen : (hrow (vrow cur near) ++ hrow (vrow cur far)).length = 4 * w := by
    rw [List.length_append, hup.hrow_length, hlo.hrow_length, ← Nat.add_mul]
  obtain ⟨u, hexec, hrest, hbytes, hframe⟩ :=
    stored_completes (exec_upsHv_of_rows hin (readRows_of_holds hcur hnear hfar hc hn hf)) hlen
  refine ⟨u, hexec, hrest, fun i hi => ?_, hframe⟩
  obtain ⟨hupLeft, hupRight⟩ := hup.byteIs_hrow hi hbytes.of_append_left
  obtain ⟨hloLeft, hloRight⟩ := hlo.byteIs_hrow hi (hbytes.of_append_right hup.hrow_length)
  exact ⟨hupLeft, hupRight, hloLeft, hloRight⟩

end Sys2Proof.Machine
end

section
/-! The colour converter: the three planes, the pixel of each place, and the integer formula of the three colours (spec
45_color). -/

namespace Sys2Proof.Machine

/-! ### Three planes in LMEM -/

/-- The operands name three written planes, and room for pixels of `bpp` bytes, inside LMEM (R231, R235). -/
structure PlanesAt (s : State) (bpp : Nat) (ys cbs crs : List Byte) : Prop where
  ys_length : ys.length = s.opnd4
  cbs_length : cbs.length = s.opnd4
  crs_length : crs.length = s.opnd4
  ys_inLmem : s.opnd0 + s.opnd4 ≤ s.params.lmemSize
  cbs_inLmem : s.opnd1 + s.opnd4 ≤ s.params.lmemSize
  crs_inLmem : s.opnd2 + s.opnd4 ≤ s.params.lmemSize
  out_inLmem : s.opnd3 + bpp * s.opnd4 ≤ s.params.lmemSize
  ys_holds : Holds s.lmem s.opnd0 ys
  cbs_holds : Holds s.lmem s.opnd1 cbs
  crs_holds : Holds s.lmem s.opnd2 crs

section
variable {s : State} {bpp : Nat} {ys cbs crs : List Byte} (h : PlanesAt s bpp ys cbs crs)
include h

theorem PlanesAt.inLmem :
    InLmem s [(s.opnd0, s.opnd4), (s.opnd1, s.opnd4), (s.opnd2, s.opnd4), (s.opnd3, bpp * s.opnd4)] :=
  inLmem_cons h.ys_inLmem (inLmem_cons h.cbs_inLmem (inLmem_cons h.crs_inLmem
    (inLmem_cons h.out_inLmem (inLmem_nil s))))

/-- On such planes the rule the commands share ends with the pixels stored (R235). -/
theorem PlanesAt.convert_eq (i : Instr) (pixel : Byte → Byte → Byte → List Byte) :
    convert i bpp pixel s = .ok { s with lmem := s.lmem.writeBytes s.opnd3 (interleave pixel ys cbs crs) } := by
  rw [convert, checkRegions_eq_ok.2 h.inLmem, ok_bind, readBytes_of_holds h.ys_length h.ys_holds, ok_bind,
    readBytes_of_holds h.cbs_length h.cbs_holds, ok_bind, readBytes_of_holds h.crs_length h.crs_holds]
  rfl

theorem PlanesAt.interleave_length {pixel : Byte → Byte → Byte → List Byte}
    (hp : ∀ y cb cr, (pixel y cb cr).length = bpp) : (interleave pixel ys cbs crs).length = bpp * s.opnd4 := by
  rw [Machine.interleave_length hp (h.cbs_length.trans h.ys_length.symm) (h.crs_length.trans h.ys_length.symm),
    h.ys_length]

/-- Where the pixels stand one after another, pixel `j` stands `bpp * j` bytes on. -/
theorem PlanesAt.holds_pixel {pixel : Byte → Byte → Byte → List Byte} (hp : ∀ y cb cr, (pixel y cb cr).length = bpp)
    {m : Memory} {out j : Nat} (hout : Holds m out (interleave pixel ys cbs crs)) (hj : j < s.opnd4) :
    Holds m (out + bpp * j) (pixel (at8 ys j) (at8 cbs j) (at8 crs j)) := by
  intro k hk
  rw [hp] at hk
  have hin : bpp * j + k < bpp * s.opnd4 :=
    calc bpp * j + k < bpp * (j + 1) := by rw [Nat.mul_succ]; omega
      _ ≤ bpp * s.opnd4 := Nat.mul_le_mul_left bpp hj
  rw [Nat.add_assoc, hout _ (by rwa [h.interleave_length hp]),
    interleave_getElem? hp (h.cbs_length.trans h.ys_length.symm) (h.crs_length.trans h.ys_length.symm)
      (h.ys_length.symm ▸ hj) hk]

/-- A command that is the shared rule completes with every pixel in its place and all else unchanged. -/
theorem PlanesAt.completes {i : Instr} {pixel : Byte → Byte → Byte → List Byte}
    (hexec : exec i s = commit i s (convert i bpp pixel s)) (hp : ∀ y cb cr, (pixel y cb cr).length = bpp) :
    ∃ u, exec i s = .next u ∧ u = { finished s with lmem := u.lmem } ∧
      (∀ j, j < s.opnd4 → Holds u.lmem (s.opnd3 + bpp * j) (pixel (at8 ys j) (at8 cbs j) (at8 crs j))) ∧
      ∀ x, x < s.opnd3 ∨ s.opnd3 + bpp * s.opnd4 ≤ x → u.lmem.read? x = s.lmem.read? x := by
  rw [h.convert_eq] at hexec
  obtain ⟨u, hnext, hrest, hbytes, hframe⟩ := stored_completes hexec (h.interleave_length hp)
  exact ⟨u, hnext, hrest, fun _ hj => h.holds_pixel hp hbytes hj, hframe⟩

end

/-! ### The colours of a pixel -/

@[simp] theorem pixelRgb_length (y cb cr : Byte) : (pixelRgb y cb cr).length = 3 := rfl
@[simp] theorem pixelYcbcr_length (y cb cr : Byte) : (pixelYcbcr y cb cr).length = 3 := rfl

/-- The last two steps of every colour, the floor division and the clamp, as a number (R232, R233). -/
theorem clamp255_asr_toNat (v : Int) : (clamp255 (asr v 14)).toNat = (max 0 (min 255 (v / 16384))).toNat := by
  have hasr : asr v 14 = v / 16384 := rfl
  rw [← hasr, ← clamp255_toNat, Int.toNat_natCast]

section
variable (y cb cr : Byte)

theorem yccR_toNat : (yccR y cr).toNat =
    (max 0 (min 255 (((y.toNat : Int) * 16384 + 8191 + ((cr.toNat : Int) - 128) * 22970) / 16384))).toNat :=
  clamp255_asr_toNat _

theorem yccG_toNat : (yccG y cb cr).toNat =
    (max 0 (min 255 (((y.toNat : Int) * 16384 + 8191 + ((cr.toNat : Int) - 128) * -11700 +
      ((cb.toNat : Int) - 128) * -5638) / 16384))).toNat :=
  clamp255_asr_toNat _

theorem yccB_toNat : (yccB y cb).toNat =
    (max 0 (min 255 (((y.toNat : Int) * 16384 + 8191 + ((cb.toNat : Int) - 128) * 29032) / 16384))).toNat :=
  clamp255_asr_toNat _

end

/-- Red, green, blue, and the bytes that pad the pixel out (R235 to R237). -/
def pixelRgbThen (pad : List Byte) (y cb cr : Byte) : List Byte := pixelRgb y cb cr ++ pad

/-- CC_RGB, CC_RGBA and CC_RGBX are the shared rule with the pixel's layout: no pad, or one byte 0xFF. -/
theorem exec_of_colour {i : Instr} {bpp : Nat}
    (hi : (i, bpp) ∈ [(Instr.ccRgb, 3), (Instr.ccRgba, 4), (Instr.ccRgbx, 4)]) :
    ∃ pad : List Byte, 3 + pad.length = bpp ∧ (bpp = 4 → pad = [0xFF]) ∧
      ∀ s, exec i s = commit i s (convert i bpp (pixelRgbThen pad) s) := by
  simp only [List.mem_cons, Prod.mk.injEq, List.not_mem_nil, or_false] at hi
  rcases hi with ⟨rfl, rfl⟩ | ⟨rfl, rfl⟩ | ⟨rfl, rfl⟩
  · exact ⟨[], rfl, by decide, fun _ => rfl⟩
  · exact ⟨[0xFF], rfl, fun _ => rfl, fun _ => rfl⟩
  · exact ⟨[0xFF], rfl, fun _ => rfl, fun _ => rfl⟩

/-- The three colours of a pixel where it stands. -/
theorem Holds.byteIs_colours {m : Memory} {a : Nat} {y cb cr : Byte} (h : Holds m a (pixelRgb y cb cr)) :
    ByteIs m a (yccR y cr).toNat ∧ ByteIs m (a + 1) (yccG y cb cr).toNat ∧ ByteIs m (a + 2) (yccB y cb).toNat :=
  ⟨h.byteIs (j := 0) (by simp), h.byteIs (j := 1) (by simp), h.byteIs (j := 2) (by simp)⟩

/-! ### The statements -/

/-- Settles O59: the three commands are one rule, whose pixels begin with the three colours. -/
theorem colourPixelsAreTheIntegerFormula : Obligations.ColourPixelsAreTheIntegerFormula := by
  intro s ys cbs crs i bpp hi out N base cb cr sample hys hcbs hcrs hin0 hin1 hin2 hin3 hy hcb hcr
  have hplanes : PlanesAt s bpp ys cbs crs :=
    ⟨hys, hcbs, hcrs, hin0, hin1, hin2, hin3, hy, hcb, hcr⟩
  obtain ⟨pad, hlen, hpad, hexec⟩ := exec_of_colour hi
  obtain ⟨u, hnext, hrest, hpixel, hframe⟩ := hplanes.completes (hexec s) fun _ _ _ => by
    rw [pixelRgbThen, List.length_append, pixelRgb_length, hlen]
  refine ⟨u, hnext, hrest, fun j hj => ?_, hframe⟩
  obtain ⟨hred, hgreen, hblue⟩ := (hpixel j hj).of_append_left.byteIs_colours
  rw [yccR_toNat] at hred
  rw [yccG_toNat] at hgreen
  rw [yccB_toNat] at hblue
  refine ⟨hred, hgreen, hblue, fun h4 => ?_⟩
  have hfourth := (hpixel j hj).of_append_right (pixelRgb_length _ _ _)
  rw [hpad h4] at hfourth
  exact hfourth.byteIs (j := 0) (by decide)

/-- Settles O60: the rule the colour commands share, with the samples themselves as the pixel. -/
theorem ycbcrInterleavesThePlanes : Obligations.YcbcrInterleavesThePlanes := by
  intro s ys cbs crs out N hys hcbs hcrs hin0 hin1 hin2 hin3 hy hcb hcr
  have hplanes : PlanesAt s 3 ys cbs crs :=
    ⟨hys, hcbs, hcrs, hin0, hin1, hin2, hin3, hy, hcb, hcr⟩
  obtain ⟨u, hnext, hrest, hpixel, hframe⟩ :=
    hplanes.completes (i := .ccYcbcr) (pixel := pixelYcbcr) rfl pixelYcbcr_length
  have hsample : ∀ {plane : List Byte} {j : Nat}, plane.length = N → j < N → plane[j]? = some (at8 plane j) :=
    fun hl hj => by rw [at8, List.getD_eq_getElem _ _ (hl ▸ hj), List.getElem?_eq_getElem]
  refine ⟨u, hnext, hrest, fun j hj => ?_, hframe⟩
  rw [hsample hys hj, hsample hcbs hj, hsample hcrs hj]
  exact ⟨hpixel j hj 0 (by simp), hpixel j hj 1 (by simp), hpixel j hj 2 (by simp)⟩

end Sys2Proof.Machine
end

section
/-! How a command ends, and the CMD writes that start none: an error is precise, only an unwritten byte of LMEM stops
the machine, and a command word written in error or while BUSY = 1 is discarded (spec 60_exceptions §1). -/

namespace Sys2Proof.Machine

/-! ### CMD writes that start no command -/

theorem coreReady_eq_false {s : State} (h : s.busy = false ∨ s.delay ≠ 0) : coreReady s = false := by
  rw [← Bool.not_eq_true, coreReady_iff]
  rintro ⟨hb, -, hd⟩
  rcases h with h | h
  · rw [hb] at h
    cases h
  · exact h hd

/-- Settles O10: in flight the overrun finds an error recorded, idle the word is not one that is accepted. -/
theorem commandsAreDiscardedInError : Obligations.CommandsAreDiscardedInError := by
  intro s w rest hr hturn hs herr hnop hinit
  refine ⟨{ s with script := rest, cmd := w, delay := s.delay - 1 }, ?_, rfl⟩
  rw [step_register_write (coreReady_eq_false hturn) hr hs (by decide) (by decide)]
  obtain ⟨e, he⟩ := Option.isSome_iff_exists.1 herr
  refine congrArg Host.Outcome.next ?_
  rcases writeCmd_cases w { tick s with script := rest } with ⟨-, h⟩ | ⟨-, -, -, h⟩ | ⟨-, hok, -⟩
  · have hkept : s.err.or (some { kind := .cmdOverrun, opc := opcodeByte w }) = s.err := by rw [he]; rfl
    exact h.trans (by rw [← hkept]; rfl)
  · exact h
  · rcases hok with hnone | hacc
    · exact absurd (he.symm.trans hnone) nofun
    · exact absurd ((acceptedInError_iff w).1 hacc) (not_or.2 ⟨hnop, hinit⟩)

/-- Settles O11: the first of the three cases of a CMD write (R56). -/
theorem commandWriteWhileBusyIsAnOverrun : Obligations.CommandWriteWhileBusyIsAnOverrun := by
  intro s w rest hr hb hd hs
  refine ⟨?_, rfl, rfl⟩
  rw [step_register_write (coreReady_eq_false (.inr hd)) hr hs (by decide) (by decide), ← opcodeByte_eq]
  rcases writeCmd_cases w { tick s with script := rest } with ⟨-, h⟩ | ⟨hidle, -⟩ | ⟨hidle, -⟩
  · exact congrArg Host.Outcome.next h
  · exact absurd (hb.symm.trans hidle) (by decide)
  · exact absurd (hb.symm.trans hidle) (by decide)

/-! ### The two ways the core's step ends -/

/-- Settles O23: an illegal word is an error, and a command raises one or commits its working copy and completes. -/
theorem errorsArePrecise : Obligations.ErrorsArePrecise := by
  intro s t _ h
  rw [← opcodeByte_eq]
  cases hd : decode s.pending with
  | error e =>
    rw [coreStep_of_illegal hd, raiseError_eq_failed] at h
    cases h
    exact ⟨rfl, .inr ⟨illegalKind e, rfl⟩⟩
  | ok i =>
    rw [coreStep_of_decode hd] at h
    rcases exec_next_cases h with ⟨k, rfl⟩ | ⟨u, -, rfl⟩
    · rw [raiseError_eq_failed, decode_opcode hd]
      exact ⟨rfl, .inr ⟨k, rfl⟩⟩
    · exact ⟨rfl, .inl rfl⟩

/-! ### Where a command faults -/

/-- A part of the rule of command `i` that faults only by reading a byte `m` does not hold (R60). -/
def FaultsOnUnwritten {α : Type} (i : Instr) (m : Memory) (x : CmdM α) : Prop :=
  ∀ g, x = .error (.fault g) → ∃ a, g = .unwrittenByte i a ∧ m.read? a = none

section Parts

variable {α β : Type} {i : Instr} {m : Memory}

theorem FaultsOnUnwritten.ok (a : α) : FaultsOnUnwritten i m (.ok a) := nofun

theorem FaultsOnUnwritten.raise (k : ErrKind) : FaultsOnUnwritten (α := α) i m (raise k) := nofun

theorem FaultsOnUnwritten.bind {x : CmdM α} {f : α → CmdM β} (hx : FaultsOnUnwritten i m x)
    (hf : ∀ a, FaultsOnUnwritten i m (f a)) : FaultsOnUnwritten i m (x >>= f) := by
  intro g h
  rcases bind_eq_error h with h | ⟨a, -, h⟩
  · exact hx g h
  · exact hf a g h

theorem FaultsOnUnwritten.require (c : Bool) (k : ErrKind) : FaultsOnUnwritten i m (require c k) := by
  cases c
  · exact .raise k
  · exact .ok ()

/-- A part that stops in no other way than this fault. -/
theorem FaultsOnUnwritten.of_error {x : CmdM α}
    (h : ∀ e, x = .error e → ∃ a, m.read? a = none ∧ e = .fault (.unwrittenByte i a)) : FaultsOnUnwritten i m x := by
  intro g hg
  obtain ⟨a, ha, he⟩ := h _ hg
  cases he
  exact ⟨a, rfl, ha⟩

theorem faultsOnUnwritten_checkRegions (s : State) (rs : List (Nat × Nat)) :
    FaultsOnUnwritten i m (checkRegions s rs) := by
  rcases checkRegions_cases s rs with ⟨-, h⟩ | ⟨-, h⟩ <;> rw [h]
  · exact .ok ()
  · exact .raise _

theorem faultsOnUnwritten_readBytes (a n : Nat) : FaultsOnUnwritten i m (readBytes i m a n) :=
  .of_error fun _ h => by
    obtain ⟨j, -, hj⟩ := readBytes_error h
    exact ⟨a + j, hj⟩

theorem faultsOnUnwritten_readWords (a n : Nat) : FaultsOnUnwritten i m (readWords i m a n) :=
  .of_error fun _ h => by
    obtain ⟨j, -, hj⟩ := readWords_error h
    exact ⟨a + j, hj⟩

theorem faultsOnUnwritten_refillStep (b : BitReader) : FaultsOnUnwritten i m (refillStep i m b) :=
  .of_error fun _ h => by
    obtain ⟨a, -, -, ha⟩ := refillStep_error h
    exact ⟨a, ha⟩

theorem faultsOnUnwritten_refillLoop (k : Nat) (b : BitReader) : FaultsOnUnwritten i m (refillLoop i m k b) := by
  induction k generalizing b with
  | zero => exact .ok b
  | succ k ih =>
    rw [refillLoop]
    split
    · exact (faultsOnUnwritten_refillStep b).bind ih
    · exact .ok b

theorem faultsOnUnwritten_refill (b : BitReader) : FaultsOnUnwritten i m (refill i m b) :=
  (faultsOnUnwritten_refillLoop 8 b).bind fun c => .ok (padBits c)

theorem faultsOnUnwritten_consume (b : BitReader) (n : Nat) (strict : Bool) :
    FaultsOnUnwritten i m (consume b n strict) := by
  rcases consume_cases b n strict with ⟨-, -, h⟩ | ⟨-, h⟩ <;> rw [h]
  · exact .raise _
  · exact .ok _

theorem faultsOnUnwritten_findMarker (b : BitReader) : FaultsOnUnwritten i m (findMarker i m b) :=
  .of_error fun _ h => by
    obtain ⟨a, -, -, ha⟩ := scanMarker_error h
    exact ⟨a, ha⟩

end Parts

theorem faultsOnUnwritten_decodeSym (i : Instr) (t : BitVec 3) (s : State) :
    FaultsOnUnwritten i s.lmem (decodeSym i t s) := by
  refine (FaultsOnUnwritten.require _ _).bind fun _ => (faultsOnUnwritten_refill _).bind fun b => ?_
  split
  · exact .raise _
  · exact .ok _

theorem faultsOnUnwritten_readRows (i : Instr) (s : State) : FaultsOnUnwritten i s.lmem (readRows i s) :=
  (faultsOnUnwritten_readBytes _ _).bind fun _ => (faultsOnUnwritten_readBytes _ _).bind fun _ =>
    (faultsOnUnwritten_readBytes _ _).bind fun _ => .ok _

theorem faultsOnUnwritten_convert (i : Instr) (bpp : Nat) (pixel : Byte → Byte → Byte → List Byte) (s : State) :
    FaultsOnUnwritten i s.lmem (convert i bpp pixel s) :=
  (faultsOnUnwritten_checkRegions _ _).bind fun _ => (faultsOnUnwritten_readBytes _ _).bind fun _ =>
    (faultsOnUnwritten_readBytes _ _).bind fun _ => (faultsOnUnwritten_readBytes _ _).bind fun _ => .ok _

/-- The shape of the commands that check their regions, read once and store. -/
theorem faultsOnUnwritten_checked_store {α : Type} {i : Instr} {s : State} {x : CmdM α}
    (hx : FaultsOnUnwritten i s.lmem x) (rs : List (Nat × Nat)) (u : α → State) :
    FaultsOnUnwritten i s.lmem (do checkRegions s rs; let a ← x; return u a) :=
  (faultsOnUnwritten_checkRegions s rs).bind fun _ => hx.bind fun a => .ok (u a)

/-- Every meaning is the commitment of a rule that faults only on an unwritten byte. -/
theorem exec_faultsOnUnwritten (i : Instr) (s : State) :
    ∃ x, exec i s = commit i s x ∧ FaultsOnUnwritten i s.lmem x := by
  cases i with
  | nop => exact ⟨.ok s, rfl, .ok _⟩
  | coreInit => exact ⟨.ok (initCore s), rfl, .ok _⟩
  | brHas n => exact ⟨.ok (s.setRes0 (zres (if n.toNat ≤ s.br.nbits then 1 else 0))), rfl, .ok _⟩
  | brInit => exact ⟨_, rfl, (FaultsOnUnwritten.require _ _).bind fun _ => .ok _⟩
  | brRefill => exact ⟨_, rfl, (faultsOnUnwritten_refill _).bind fun _ => .ok _⟩
  | brPeek n => exact ⟨_, rfl, (FaultsOnUnwritten.require _ _).bind fun _ => .ok _⟩
  | brGet n =>
    exact ⟨_, rfl, (FaultsOnUnwritten.require _ _).bind fun _ => (faultsOnUnwritten_consume _ _ _).bind fun _ => .ok _⟩
  | brSkipMarker => exact ⟨_, rfl, (faultsOnUnwritten_findMarker _).bind fun _ => .ok _⟩
  | htBuild t =>
    exact ⟨_, rfl, (FaultsOnUnwritten.require _ _).bind fun _ => (faultsOnUnwritten_readBytes _ _).bind fun _ =>
      (FaultsOnUnwritten.require _ _).bind fun _ => (FaultsOnUnwritten.require _ _).bind fun _ =>
      (FaultsOnUnwritten.require _ _).bind fun _ => (FaultsOnUnwritten.require _ _).bind fun _ =>
      (faultsOnUnwritten_readBytes _ _).bind fun _ => .ok _⟩
  | htDecode t =>
    exact ⟨_, rfl, (faultsOnUnwritten_decodeSym _ _ _).bind fun _ => (faultsOnUnwritten_consume _ _ _).bind fun _ =>
      .ok _⟩
  | htDecodeDc t =>
    exact ⟨_, rfl, (faultsOnUnwritten_decodeSym _ _ _).bind fun _ => (FaultsOnUnwritten.require _ _).bind fun _ =>
      (faultsOnUnwritten_consume _ _ _).bind fun _ => (faultsOnUnwritten_consume _ _ _).bind fun _ => .ok _⟩
  | htDecodeAc t =>
    exact ⟨_, rfl, (faultsOnUnwritten_decodeSym _ _ _).bind fun _ => (faultsOnUnwritten_consume _ _ _).bind fun _ =>
      (faultsOnUnwritten_consume _ _ _).bind fun _ => .ok _⟩
  | htDump t =>
    exact ⟨_, rfl, (FaultsOnUnwritten.require _ _).bind fun _ => (FaultsOnUnwritten.require _ _).bind fun _ => .ok _⟩
  | idct => exact ⟨_, rfl, faultsOnUnwritten_checked_store (faultsOnUnwritten_readWords _ _) _ _⟩
  | upsNone | upsH | ccGray => exact ⟨_, rfl, faultsOnUnwritten_checked_store (faultsOnUnwritten_readBytes _ _) _ _⟩
  | upsV | upsHv => exact ⟨_, rfl, faultsOnUnwritten_checked_store (faultsOnUnwritten_readRows _ _) _ _⟩
  | ccRgb | ccRgba | ccRgbx | ccYcbcr => exact ⟨_, rfl, faultsOnUnwritten_convert _ _ _ _⟩

/-- Settles O25: of the three ends of a command's rule, success and an error are next states. -/
theorem onlyAnUnwrittenByteStopsACommand : Obligations.OnlyAnUnwrittenByteStopsACommand := by
  intro i s
  obtain ⟨x, hexec, hx⟩ := exec_faultsOnUnwritten i s
  rw [hexec]
  match x, hx with
  | .ok u, _ => exact .inl ⟨_, rfl⟩
  | .error (.raise k), _ => exact .inl ⟨_, rfl⟩
  | .error (.fault g), hx =>
    obtain ⟨a, rfl, ha⟩ := hx g rfl
    exact .inr ⟨a, rfl, ha⟩

end Sys2Proof.Machine
end

section
/-! The errors of the decode commands: an undefined table, a stream no codeword begins, a category too large, and bits
taken past the data under STRICT (spec 42_huffman §2, 60_exceptions §1). -/

namespace Sys2Proof.Machine

/-! ### Errors of `decode_sym` -/

/-- A rule that raises ends in that error (R253). -/
theorem exec_of_raise {i : Instr} {s : State} {x : CmdM State} {k : ErrKind} (hexec : exec i s = commit i s x)
    (hx : x = raise k) : exec i s = .next (failed s i.opcode k) := by
  rw [hexec, hx, commit_raise, raiseError_eq_failed]

/-- The three decode commands decode a symbol before anything else, so its error is theirs. -/
theorem decode_commands_of_raise {t : BitVec 3} {s : State} {k : ErrKind} (h : ∀ i, decodeSym i t s = raise k) :
    exec (.htDecode t) s = .next (failed s 0x21 k) ∧ exec (.htDecodeDc t) s = .next (failed s 0x22 k) ∧
      exec (.htDecodeAc t) s = .next (failed s 0x23 k) :=
  ⟨exec_of_raise rfl (by rw [h, raise_bind]), exec_of_raise rfl (by rw [h, raise_bind]),
    exec_of_raise rfl (by rw [h, raise_bind])⟩

/-- An invalid slot is looked at before the stream (R61, R258). -/
theorem decodeSym_of_invalid (i : Instr) {t : BitVec 3} {s : State} (h : (s.slot t).valid = false) :
    decodeSym i t s = raise .tableUndefined := by
  rw [decodeSym, h, require_false, raise_bind]

/-- A stream that no codeword begins (R160, R162). -/
theorem decodeSym_of_no_codeword (i : Instr) {t : BitVec 3} {s : State} (hinv : Inv s)
    (hvalid : (s.slot t).valid = true) (hwritten : Written s.lmem s.br.pos (s.br.endPos - s.br.pos))
    (hno : ∀ w ∈ codewords (s.slot t).count, ¬ w.bits <+: paddedBits s) :
    decodeSym i t s = raise .streamNoMatch := by
  have hok := hinv.slots t hvalid
  obtain ⟨b, hr⟩ := refill_of_written (i := i) hinv.br.pos_le hwritten
  have hnone : (s.slot t).decode (b.acc.extractLsb' 48 16) = none := by
    refine (decodeFindsTheUniqueCodeword _ _ hok).2 fun w hw hx => hno w hw ?_
    have hlen := (mem_codewords_len hok.count_len hw).2
    have hcode := codewords_code_lt hok.count_len hok.kraft_le hw
    have hpre : w.bits <+: accBits b.acc 57 := (Codeword.bits_prefix_accBits_iff hlen hcode (by omega) _).2 hx
    rw [accBits_refill hinv hr le_rfl] at hpre
    exact hpre.trans (List.take_prefix _ _)
  rw [decodeSym, hvalid, require_true, ok_bind, hr, ok_bind, hnone]

/-! ### Bits past the data under STRICT -/

/-- Taking more bits than there is data, with STRICT = 1 (R126). -/
theorem consume_of_padTaken {b : BitReader} {n : Nat} (h : 0 < padTaken b n) :
    consume b n true = raise .streamTruncated :=
  if_pos ⟨h, rfl⟩

/-- Two runs of bits that together pass the data: the first or the second is the one that does (R126). -/
theorem consume_consume_of_padTaken {b : BitReader} {l z : Nat} (hb : b.npad ≤ b.nbits) (hlz : l + z ≤ b.nbits)
    (h : 0 < padTaken b (l + z)) (f : Nat × BitReader → Nat × BitReader → CmdM State) :
    (do let c ← consume b l true; let v ← consume c.2 z true; f c v) = raise .streamTruncated := by
  rcases consume_cases b l true with ⟨-, -, hc⟩ | ⟨h0, hc⟩
  · rw [hc, raise_bind]
  · have hsum := padTaken_dropBits hb hlz
    have hzero : padTaken b l = 0 := h0.resolve_right (by decide)
    have hrest : 0 < padTaken (dropBits b l) z := by omega
    rw [hc, ok_bind, consume_of_padTaken hrest, raise_bind]

section Ahead

variable {s : State} {t : BitVec 3} {w : Codeword} {y : Byte} (h : CodewordAhead s t w y)
include h

/-- The codeword ahead is decoded, and bits beyond those left are pad bits of the refilled reader (R126, R162). -/
theorem CodewordAhead.decodeSym_padTaken (i : Instr) :
    ∃ b, decodeSym i t s = .ok (y, w.len, b) ∧ b.npad ≤ b.nbits ∧ 57 ≤ b.nbits ∧
      ∀ n, n ≤ 57 → (bitsLeft s.lmem s.br).length < n → 0 < padTaken b n := by
  obtain ⟨b, hr⟩ := refill_of_written (i := i) h.inv.br.pos_le h.written
  have hok := refill_brOk hr h.inv.br
  have hnb := refill_nbits hr h.inv.br
  refine ⟨b, ?_, hok.npad_le, hnb.1, fun n hn hlt => ?_⟩
  · rw [decodeSym, h.valid, require_true, ok_bind, hr, ok_bind, h.decode hr]
    rfl
  · exact (padTaken_pos_iff (m := s.lmem) hok (by omega)).2 (by rwa [refill_bitsLeft hr h.inv.br])

/-- A DC symbol above 11 is an error before its codeword is taken (R165, R258). -/
theorem CodewordAhead.exec_htDecodeDc_of_gt (hcat : 11 < y.toNat) :
    exec (.htDecodeDc t) s = .next (failed s 0x22 .streamBadCategory) := by
  obtain ⟨b, hdec, -⟩ := h.decodeSym_padTaken (.htDecodeDc t)
  refine exec_of_raise rfl ?_
  rw [hdec, ok_bind, decide_eq_false (Nat.not_le.2 hcat), require_false, raise_bind]

variable (hs : s.strict = true)
include hs

theorem CodewordAhead.exec_htDecode_of_short (hlt : (bitsLeft s.lmem s.br).length < w.len) :
    exec (.htDecode t) s = .next (failed s 0x21 .streamTruncated) := by
  have hlen := h.len_le
  obtain ⟨b, hdec, -, -, hpad⟩ := h.decodeSym_padTaken (.htDecode t)
  refine exec_of_raise rfl ?_
  rw [hdec, ok_bind, hs, consume_of_padTaken (hpad _ (by omega) hlt), raise_bind]

theorem CodewordAhead.exec_htDecodeDc_of_short (hcat : y.toNat ≤ 11)
    (hlt : (bitsLeft s.lmem s.br).length < w.len + y.toNat) :
    exec (.htDecodeDc t) s = .next (failed s 0x22 .streamTruncated) := by
  have hlen := h.len_le
  obtain ⟨b, hdec, hle, hnb, hpad⟩ := h.decodeSym_padTaken (.htDecodeDc t)
  refine exec_of_raise rfl ?_
  rw [hdec, ok_bind, decide_eq_true hcat, require_true, ok_bind, hs]
  exact consume_consume_of_padTaken hle (by omega) (hpad _ (by omega) hlt) _

theorem CodewordAhead.exec_htDecodeAc_of_short (hlt : (bitsLeft s.lmem s.br).length < w.len + y.toNat % 16) :
    exec (.htDecodeAc t) s = .next (failed s 0x23 .streamTruncated) := by
  have hlen := h.len_le
  obtain ⟨b, hdec, hle, hnb, hpad⟩ := h.decodeSym_padTaken (.htDecodeAc t)
  refine exec_of_raise rfl ?_
  rw [hdec, ok_bind, hs]
  exact consume_consume_of_padTaken hle (by omega) (hpad _ (by omega) hlt) _

end Ahead

/-- HT_DUMP looks at the slot before its region (R61, R258). -/
theorem exec_htDump_of_invalid {t : BitVec 3} {s : State} (h : (s.slot t).valid = false) :
    exec (.htDump t) s = .next (failed s 0x24 .tableUndefined) :=
  exec_of_raise rfl (by rw [h, require_false, raise_bind])

/-- Settles O50: `decode_sym` raises before anything is taken; a codeword ahead leaves the category and the pad bits. -/
theorem decodeErrors : Obligations.DecodeErrors := by
  refine ⟨fun s t hinvalid => ?_, fun s t hinv hvalid hwritten => ⟨fun hno => ?_, fun k w y hw hy hahead => ?_⟩,
    by decide⟩
  · obtain ⟨hsym, hdc, hac⟩ := decode_commands_of_raise fun i => decodeSym_of_invalid i hinvalid
    exact ⟨hsym, hdc, hac, exec_htDump_of_invalid hinvalid⟩
  · exact decode_commands_of_raise fun i => decodeSym_of_no_codeword i hinv hvalid hwritten hno
  · have h : CodewordAhead s t w y := ⟨hinv, hvalid, hwritten, ⟨k, hw, hy⟩, hahead⟩
    exact ⟨h.exec_htDecodeDc_of_gt, fun hs =>
      ⟨h.exec_htDecode_of_short hs, h.exec_htDecodeDc_of_short hs, h.exec_htDecodeAc_of_short hs⟩⟩

end Sys2Proof.Machine
end

section
/-! The countdown and the reset input: a host that waits sees its command run, and the reset input abandons it
(spec 70_reset_and_hazards §1, §3). -/

namespace Sys2Proof.Machine

/-- The host's turn on its next operation. -/
theorem step_host {s : State} {op : HostOp} {rest : List HostOp} (hc : coreReady s = false)
    (hs : s.script = op :: rest) : step s = runHostOp op { tick s with script := rest } := by
  rw [step_of_not_ready hc, hostStep_of_cons (s := tick s) hs]

/-! ### A host that waits -/

section Waiting
variable {s : State} {rest : List HostOp}

/-- A poll while a command is in flight: the program stays where it is, and the countdown moves (R103, R289). -/
theorem step_wait_inFlight (hb : s.busy = true) (hr : s.inReset = false) (hs : s.script = .wait :: rest)
    (hd : s.delay ≠ 0) : step s = .next { s with delay := s.delay - 1, freeCtr := s.freeCtr + 1 } := by
  rw [step_host (coreReady_eq_false (.inr hd)) hs, runHostOp_wait_busy (s := { tick s with script := rest }) hb hr]
  simp only [tick, ← hs]

/-- The polls of a `wait` run the countdown out, and the core's step follows. -/
theorem run_wait_inFlight {d : Nat} (hd : s.delay = d) (hb : s.busy = true) (hr : s.inReset = false)
    (hs : s.script = .wait :: rest) :
    Sys2Proof.core.run (d + 1) s = coreStep { s with delay := 0, freeCtr := s.freeCtr + d } := by
  induction d generalizing s with
  | zero =>
    rw [run_one, step_of_ready (coreReady_iff.2 ⟨hb, hr, hd⟩), Nat.add_zero, ← hd]
  | succ d ih =>
    have hpoll := step_wait_inFlight hb hr hs (hd ▸ Nat.succ_ne_zero d)
    have hpred : s.delay - 1 = d := by rw [hd, Nat.add_sub_cancel]
    have hpolls : s.freeCtr + 1 + d = s.freeCtr + (d + 1) := by omega
    rw [← hpolls]
    exact (run_succ_of_next hpoll).trans (ih hpred hb hr hs)

end Waiting

/-- Settles O8, by induction on the delay: each poll moves the countdown, and the core's step is then `exec`. -/
theorem waitingHostSeesTheCommandComplete : Obligations.WaitingHostSeesTheCommandComplete := by
  intro s i rest hb hr hs hi
  exact (run_wait_inFlight rfl hb hr hs).trans (coreStep_of_decode hi)

/-! ### The reset input -/

section Asserted
variable {s : State} (hr : s.inReset = true)
include hr

/-- While the reset input is asserted the turn is the host's, whatever is in flight (R280). -/
theorem coreReady_of_inReset : coreReady s = false := by
  simp [coreReady, hr]

theorem hostWrite_of_inReset (size : AccessSize) (off : BitVec 17) (w : Word) : hostWrite size off w s = .next s := by
  rw [hostWrite, if_pos hr]

theorem hostRead_of_inReset (size : AccessSize) (off : BitVec 17) :
    hostRead size off s = .next (logRead (anyValue s size, drawn s)) := by
  rw [hostRead, if_pos hr]

theorem runHostOp_releaseReset_of_inReset : runHostOp .releaseReset s = .next (resetBlock s) := by
  rw [runHostOp, if_pos hr]

end Asserted

/-- Settles O22: each clause is the host's turn on its next operation; only the assertion asks that it be the host's. -/
theorem resetInputAbandonsTheCommand : Obligations.ResetInputAbandonsTheCommand := by
  refine fun s rest => ⟨fun hs hc => step_host hc hs,
    fun hr => ⟨fun size off w hs => ?write, fun size off hs => ⟨anyValue s size, ?read⟩, fun hs => ?release⟩⟩
  all_goals rw [step_host (coreReady_of_inReset hr) hs]
  case write => exact hostWrite_of_inReset (s := { tick s with script := rest }) hr size off w
  case read => exact hostRead_of_inReset (s := { tick s with script := rest }) hr size off
  case release => exact runHostOp_releaseReset_of_inReset (s := { tick s with script := rest }) hr

end Sys2Proof.Machine
end
